-- ==== Sys2Proof/Word.lean ====
section
/-! DEFINITION. The plain types every other file is written over: words, bytes, offsets, bitstrings, keyed lists. -/

namespace Sys2Proof

/-- A 32-bit register value, bus value or command word; bit 0 is the least significant (00_scope R10). -/
abbrev Word := BitVec 32

/-- One byte of a stream buffer. -/
abbrev Byte := BitVec 8

/-- A byte offset from `BASE`: 19 bits, 0x00000 to 0x7FFFF (20_memory R70). -/
abbrev Offset := BitVec 19

/-- A bitstring `b_0 b_1 ...`, first bit first (00_scope R11). -/
abbrev Bits := List Bool

/-- Sparse data by key: (key, value) pairs, kept with strictly rising keys. -/
abbrev Cells (α : Type) := List (Nat × α)

end Sys2Proof
end

