-- ==== Sys2Proof/Config.lean ====
section
/-! DEFINITION. The implementation parameters (00_scope R8), and the free values: constants with no body, for what the
spec leaves open. -/

namespace Sys2Proof

/-- The parameters of 00_scope R8 a model chooses. The others follow from them, or are fixed. -/
structure Config where
  /-- `SYM_BITS`: width of a symbol, 1..8. -/
  symBits : Nat
  /-- `COUNT_BITS`: width of every count, 1..32. -/
  countBits : Nat
  /-- `OUT_CAP`: output buffer size in bytes, 2..65536. -/
  outCap : Nat
  /-- `IN_CAP`: input buffer size in bytes, 1..65536. -/
  inCap : Nat
  /-- `SYMOUT_CAP`: decoded-symbol buffer size, 1..65536. -/
  symoutCap : Nat
deriving DecidableEq, Repr

/-- The default column of 00_scope R8. -/
def Config.default : Config :=
  { symBits := 8, countBits := 32, outCap := 4096, inCap := 4096, symoutCap := 32768 }

/-- `NSYM = 2^SYM_BITS` (00_scope R8). -/
def Config.nsym (c : Config) : Nat := 2 ^ c.symBits

/-- `COUNT_MAX = 2^COUNT_BITS - 1` (00_scope R8). -/
def Config.countMax (c : Config) : Nat := 2 ^ c.countBits - 1

/-- `NODE_CAP = 2*NSYM - 1` (00_scope R8). -/
def Config.nodeCap (c : Config) : Nat := 2 * c.nsym - 1

/-- `CODE_LEN_MAX`, fixed at 255 (00_scope R8). -/
def Config.codeLenMax : Nat := 255

/-- The legal values of the parameters (00_scope R8). -/
abbrev Config.Legal (c : Config) : Prop :=
  (1 ≤ c.symBits ∧ c.symBits ≤ 8) ∧ (1 ≤ c.countBits ∧ c.countBits ≤ 32) ∧
  (2 ≤ c.outCap ∧ c.outCap ≤ 65536) ∧ (1 ≤ c.inCap ∧ c.inCap ≤ 65536) ∧
  (1 ≤ c.symoutCap ∧ c.symoutCap ≤ 65536)

/-- The three buffers of 10_state R64. -/
inductive Buffer where
  | outbuf | inbuf | symout
deriving DecidableEq, Repr

/-- `BASE`, the bus address of offset 0: OPEN in the spec (00_scope R8, 93 U17), so a free value. Log 7. -/
opaque Config.base : Nat

/-- The bus address of an offset (10_state R23). -/
def Config.busAddress (off : Offset) : Nat := Config.base + off.toNat

/-- FREE VALUE (log 4, 93 U6; log 5): the byte a buffer holds at an index nothing has written since the `draw`-th reset. -/
opaque Config.freeByte (b : Buffer) (draw index : Nat) : Byte

end Sys2Proof
end

