-- ==== Sys2Proof/Syntax.lean ====
section
/-! DEFINITION. The commands (30_encoding R98): one constructor of `Instr` for each row of the opcode table, and the
names of their formats and opcodes. -/

namespace Sys2Proof

/-- The five formats of a command word (30_encoding R92 to R96). -/
inductive Format where
  /-- no operand -/
  | N
  /-- clear mask -/
  | C
  /-- symbol -/
  | S
  /-- load code: symbol and length -/
  | L
  /-- raw bits: count and value -/
  | B
deriving DecidableEq, Repr

/-- The 14 opcodes of 30_encoding R98. -/
inductive Opcode where
  | nop | clear | count | tbinit | merge | build | assign | loadcode
  | enc | putbits | flush | xfer | unpack | decode
deriving DecidableEq, Repr

/-- A command with its operand fields taken as they stand in the word (30_encoding R97). -/
inductive Instr where
  /-- `NOP` (44_control R191). -/
  | nop
  /-- `CLEAR mask` (44_control R192). -/
  | clear (mask : BitVec 5)
  /-- `COUNT sym` (40_tree_builder R111). -/
  | count (sym : BitVec 16)
  /-- `TBINIT` (40_tree_builder R112). -/
  | tbinit
  /-- `MERGE` (40_tree_builder R113). -/
  | merge
  /-- `BUILD` (40_tree_builder R114). -/
  | build
  /-- `ASSIGN` (41_code_table R133). -/
  | assign
  /-- `LOADCODE sym, len` (41_code_table R134). -/
  | loadcode (len : BitVec 8) (sym : BitVec 16)
  /-- `ENC sym` (42_encode_pack R152). -/
  | enc (sym : BitVec 16)
  /-- `PUTBITS n, bits` (42_encode_pack R153). -/
  | putbits (n : BitVec 5) (val : BitVec 16)
  /-- `FLUSH` (42_encode_pack R155). -/
  | flush
  /-- `XFER` (42_encode_pack R156). -/
  | xfer
  /-- `UNPACK` (43_unpack_decode R172). -/
  | unpack
  /-- `DECODE` (43_unpack_decode R173). -/
  | decode
deriving DecidableEq, Repr

end Sys2Proof
end

