-- ==== Sys2Proof/WellFormed.lean ====
section
/-! DEFINITION. The operand conditions of 30_encoding R98 (the last column of its match and mask table). -/

namespace Sys2Proof

/-- The operand conditions of a command, under the configuration `c`. -/
def Instr.wellFormed (c : Config) : Instr → Bool
  | .count sym => decide (sym.toNat < c.nsym)
  | .loadcode _ sym => decide (sym.toNat < c.nsym)
  | .enc sym => decide (sym.toNat < c.nsym)
  | .putbits n val => decide (n.toNat ≤ 16) && decide (val.toNat < 2 ^ n.toNat)
  | .nop => true
  | .clear _ => true
  | .tbinit => true
  | .merge => true
  | .build => true
  | .assign => true
  | .flush => true
  | .xfer => true
  | .unpack => true
  | .decode => true

/-- `WellFormed c i`: the command's operands meet the conditions of 30_encoding R98. -/
abbrev WellFormed (c : Config) (i : Instr) : Prop := i.wellFormed c = true

end Sys2Proof
end

