-- ==== Sys2Proof/Decode.lean ====
section
/-! DEFINITION. The opcode map, the legality check and the decoder of 30_encoding R90 to R100, and after them the
encoder, written from the same formats. -/

namespace Sys2Proof

/-- The opcode bytes of 30_encoding R98. -/
def Opcode.toBits : Opcode → BitVec 8
  | .nop => 0x00#8
  | .clear => 0x01#8
  | .count => 0x10#8
  | .tbinit => 0x20#8
  | .merge => 0x21#8
  | .build => 0x22#8
  | .assign => 0x30#8
  | .loadcode => 0x31#8
  | .enc => 0x40#8
  | .putbits => 0x41#8
  | .flush => 0x42#8
  | .xfer => 0x43#8
  | .unpack => 0x50#8
  | .decode => 0x51#8

/-- All opcodes, in the order of 30_encoding R98. -/
def Opcode.all : List Opcode :=
  [.nop, .clear, .count, .tbinit, .merge, .build, .assign, .loadcode, .enc, .putbits, .flush, .xfer, .unpack, .decode]

/-- The opcode a byte names; `none` for the 242 reserved ones (30_encoding R100). -/
def Opcode.ofBits (b : BitVec 8) : Option Opcode :=
  Opcode.all.find? (fun o => o.toBits == b)

/-- The format column of 30_encoding R98. -/
def Opcode.format : Opcode → Format
  | .clear => .C
  | .count => .S
  | .enc => .S
  | .loadcode => .L
  | .putbits => .B
  | .nop => .N
  | .tbinit => .N
  | .merge => .N
  | .build => .N
  | .assign => .N
  | .flush => .N
  | .xfer => .N
  | .unpack => .N
  | .decode => .N

/-- The fields of a command word (30_encoding R91, R97). -/
def opcField (w : Word) : BitVec 8 := w.extractLsb' 24 8
/-- `MASK = w[4:0]`. -/
def maskField (w : Word) : BitVec 5 := w.extractLsb' 0 5
/-- `SYM = w[15:0]`, and `VAL = w[15:0]`. -/
def lowField (w : Word) : BitVec 16 := w.extractLsb' 0 16
/-- `LEN = w[23:16]`. -/
def lenField (w : Word) : BitVec 8 := w.extractLsb' 16 8
/-- `N = w[20:16]`. -/
def nField (w : Word) : BitVec 5 := w.extractLsb' 16 5

/-- The reserved bits of a format are all 0 (30_encoding R92 to R96). -/
def reservedClear : Format → Word → Bool
  | .N, w => w.extractLsb' 0 24 == 0#24
  | .C, w => w.extractLsb' 5 19 == 0#19
  | .S, w => w.extractLsb' 16 8 == 0#8
  | .L, _ => true
  | .B, w => w.extractLsb' 21 3 == 0#3

/-- Why a word is illegal (30_encoding R99): the decoder's rejections, by name. -/
inductive Illegal where
  /-- subcode 1: reserved opcode -/
  | reservedOpcode
  /-- subcode 2: reserved bits set -/
  | reservedBits
  /-- subcode 3: symbol out of range -/
  | symbolRange
  /-- subcode 4: bit count too large -/
  | bitCount
  /-- subcode 5: stray value bits -/
  | strayBits
deriving DecidableEq, Repr

/-- The subcode of `IllegalCommand` (30_encoding R99). -/
def Illegal.subcode : Illegal → Nat
  | .reservedOpcode => 1
  | .reservedBits => 2
  | .symbolRange => 3
  | .bitCount => 4
  | .strayBits => 5

/-- The command of an opcode with its operand fields read from the word (30_encoding R97). -/
def instrOf : Opcode → Word → Instr
  | .nop, _ => .nop
  | .clear, w => .clear (maskField w)
  | .count, w => .count (lowField w)
  | .tbinit, _ => .tbinit
  | .merge, _ => .merge
  | .build, _ => .build
  | .assign, _ => .assign
  | .loadcode, w => .loadcode (lenField w) (lowField w)
  | .enc, w => .enc (lowField w)
  | .putbits, w => .putbits (nField w) (lowField w)
  | .flush, _ => .flush
  | .xfer, _ => .xfer
  | .unpack, _ => .unpack
  | .decode, _ => .decode

/-- The operand checks of `Legal(w)`, subcodes 3, 4, 5 in that order (30_encoding R99). -/
def operandIllegal (c : Config) (f : Format) (w : Word) : Option Illegal :=
  if (f = .S ∨ f = .L) ∧ c.nsym ≤ (lowField w).toNat then some .symbolRange
  else if f = .B ∧ 16 < (nField w).toNat then some .bitCount
  else if f = .B ∧ 2 ^ (nField w).toNat ≤ (lowField w).toNat then some .strayBits
  else none

/-- The decoder: the command of a word, or the first failing check of `Legal(w)` (30_encoding R98, R99). -/
def decode (c : Config) (w : Word) : Except Illegal Instr :=
  match Opcode.ofBits (opcField w) with
  | none => .error .reservedOpcode
  | some o =>
    if reservedClear o.format w then
      match operandIllegal c o.format w with
      | some e => .error e
      | none => .ok (instrOf o w)
    else .error .reservedBits

/-- The opcode of a command. -/
def Instr.opcode : Instr → Opcode
  | .nop => .nop
  | .clear _ => .clear
  | .count _ => .count
  | .tbinit => .tbinit
  | .merge => .merge
  | .build => .build
  | .assign => .assign
  | .loadcode _ _ => .loadcode
  | .enc _ => .enc
  | .putbits _ _ => .putbits
  | .flush => .flush
  | .xfer => .xfer
  | .unpack => .unpack
  | .decode => .decode

/-- `w[23:0]` of a command's word, by its format (30_encoding R92 to R96). -/
def Instr.operands : Instr → BitVec 24
  | .clear mask => (0#19 ++ mask : BitVec (19 + 5))
  | .count sym => (0#8 ++ sym : BitVec (8 + 16))
  | .enc sym => (0#8 ++ sym : BitVec (8 + 16))
  | .loadcode len sym => (len ++ sym : BitVec (8 + 16))
  | .putbits n val => ((0#3 ++ n : BitVec (3 + 5)) ++ val : BitVec (3 + 5 + 16))
  | .nop => 0#24
  | .tbinit => 0#24
  | .merge => 0#24
  | .build => 0#24
  | .assign => 0#24
  | .flush => 0#24
  | .xfer => 0#24
  | .unpack => 0#24
  | .decode => 0#24

/-- The encoder: `OPC` in bits 31:24, the operands below (30_encoding R91, R101). -/
def encode (i : Instr) : Word := (i.opcode.toBits ++ i.operands : BitVec (8 + 24))

/-- What the decoder reads from a table row's word under the default parameters. A command is one 32-bit word
(30_encoding R90), so the bits above 31 have no place in it and those above `nbits` are 0. -/
def decodeTableWord (nbits w : Nat) : Option Instr :=
  match decode Config.default (BitVec.ofNat 32 (w % 2 ^ nbits)) with
  | .ok i => some i
  | .error _ => none

end Sys2Proof
end

