-- ==== Sys2Proof/Machine/State.lean ====
section
/-! DEFINITION. The block's state (10_state), with the host agent's pending actions (00_scope R7), the reasons a step
can stop, and the state after reset (10_state R68). -/

namespace Sys2Proof.Machine

/-- A byte memory: (index, byte) pairs with strictly rising indices. An unlisted index holds NO VALUE: nothing has
written it since reset. No pair can equal that, so the form is canonical. -/
abbrev Memory := List Host.Cell

/-- The canonical form of keyed data: strictly rising keys. -/
abbrev Cells.Rising {α : Type} (m : Cells α) : Prop := (m.map Prod.fst).Pairwise (· < ·)

/-- The canonical form of a memory. -/
abbrev Memory.wf (m : Memory) : Prop := Cells.Rising m

/-- `TB_STATE` (10_state R66). -/
inductive TbState where
  | idle | loaded | done
deriving DecidableEq, Repr

/-- `CT_STATE` (10_state R66). -/
inductive CtState where
  | empty | tree | loaded
deriving DecidableEq, Repr

/-- `PK_STATE` (10_state R66). -/
inductive PkState where
  | opened | flushed
deriving DecidableEq, Repr

/-- `UP_STATE` (10_state R66). -/
inductive UpState where
  | idle | ready | done
deriving DecidableEq, Repr

/-- A node of the tree, a tagged variant (00_scope R18, 10_state R61). -/
inductive Node where
  | leaf (count sym : Nat)
  | internal (count left right : Nat)
deriving DecidableEq, Repr

/-- `ERR.CODE` (60_exceptions R201). -/
inductive ErrCode where
  | none
  | emptyAlphabet
  | unknownSymbol
  | truncatedOrCorruptStream
  | malformedCodeTable
  | illegalCommand
  | sequenceError
  | countOverflow
  | bufferOverflow
deriving DecidableEq, Repr

/-- `ERR.STAGE` (60_exceptions R203). -/
inductive Stage where
  | none | counting | building | assigning | encoding | decoding | packing | interface
deriving DecidableEq, Repr

/-- The error registers (10_state R30 to R33): the fields of `ERR`, then `ERR_INFO0`, `ERR_INFO1`, `ERR_CMD`. -/
structure ErrRecord where
  code : ErrCode
  sub : BitVec 4
  stage : Stage
  opc : BitVec 8
  info0 : Word
  info1 : Word
  cmd : Word
deriving DecidableEq, Repr

/-- The error registers with no error recorded (10_state R68, 60_exceptions R212). -/
def ErrRecord.clear : ErrRecord :=
  { code := .none, sub := 0#4, stage := .none, opc := 0#8, info0 := 0#32, info1 := 0#32, cmd := 0#32 }

/-- The size of a bus access. Only a word is inside the block's interface (20_memory R71). -/
inductive Width where
  | byte | half | word
deriving DecidableEq, Repr

/-- What the host may do to the block (20_memory R87). A write to `CMD` executes the command. -/
inductive HostAction where
  /-- bus read at an offset -/
  | read (width : Width) (off : Offset)
  /-- bus write at an offset -/
  | write (width : Width) (off : Offset) (value : Word)
  /-- assert and release reset (70_reset_and_hazards R230) -/
  | reset
  /-- read the `err_irq` level (60_exceptions R210) -/
  | readIrq
deriving DecidableEq, Repr

/-- What the latest host action returned to the host. The model's own (log 3). -/
inductive Reply where
  /-- nothing: a write, or reset -/
  | silent
  /-- the value of a bus read -/
  | word (v : Word)
  /-- the level of `err_irq` -/
  | level (b : Bool)
deriving DecidableEq, Repr

/-- The machine: the configuration, the host agent, and every piece of state of 10_state R20. Counters are naturals,
as the spec's pseudocode computes them (00_scope R13); a register's width applies where the bus reads it. Log 9. -/
structure State where
  /-- The parameters; no step changes them (10_state R20). Log 1. -/
  cfg : Config
  /-- The actions the host has yet to issue, next first (00_scope R7). Log 2. -/
  host : List HostAction
  /-- What the latest host action returned. Log 3. -/
  reply : Reply
  /-- Which draw of free bytes the buffers hold (93 U6). Log 4. -/
  draws : Nat
  /-- `CTRL.ERR_IE` (10_state R27). -/
  errIe : Bool
  /-- `ERR`, `ERR_INFO0`, `ERR_INFO1`, `ERR_CMD` (10_state R30 to R33). -/
  err : ErrRecord
  /-- `FREQ` (10_state R60): an unlisted symbol has count 0; no count 0 is listed. -/
  freq : Cells Nat
  /-- `TOTAL` (10_state R34). -/
  total : Nat
  /-- `LEAVES` (10_state R35). -/
  leaves : Nat
  /-- `NODE` (10_state R61): an unlisted index holds no value. -/
  nodes : Cells Node
  /-- `NODE_COUNT` (10_state R36). -/
  nodeCount : Nat
  /-- `WL` (10_state R62). -/
  wl : List Nat
  /-- `WL_LEN` (10_state R37). -/
  wlLen : Nat
  /-- `TB_STATE` (10_state R66). -/
  tbState : TbState
  /-- `CT` (10_state R63): the code of a symbol; an unlisted symbol has `len = 0`; no empty code is listed.
  Log 10. -/
  ct : Cells Bits
  /-- `CT_COUNT` (10_state R39). -/
  ctCount : Nat
  /-- `CT_STATE` (10_state R66). -/
  ctState : CtState
  /-- `OUTBUF` (10_state R64). -/
  outbuf : Memory
  /-- `OUT_LEN` (10_state R40). -/
  outLen : Nat
  /-- `BITCNT` (10_state R41). -/
  bitcnt : Nat
  /-- `PK_ACC.ACC` (10_state R42). -/
  acc : Nat
  /-- `PK_ACC.ACC_N` (10_state R42). -/
  accN : Nat
  /-- `PK_STATE` (10_state R66). -/
  pkState : PkState
  /-- `INBUF` (10_state R64). -/
  inbuf : Memory
  /-- `IN_LEN` (10_state R43). -/
  inLen : Nat
  /-- `DEC_BITS` (10_state R44). -/
  decBits : Nat
  /-- `DEC_POS` (10_state R45). -/
  decPos : Nat
  /-- `DEC_CLEN` (10_state R46). -/
  decClen : Nat
  /-- `CHUNK`, hidden (10_state R65). -/
  chunk : Bits
  /-- `SYMOUT` (10_state R64). -/
  symout : Memory
  /-- `SYMOUT_LEN` (10_state R47). -/
  symoutLen : Nat
  /-- `UP_STATE` (10_state R66). -/
  upState : UpState
  /-- `SYM_SEL` (10_state R48). -/
  symSel : BitVec 8
  /-- `NODE_SEL` (10_state R52). -/
  nodeSel : BitVec 9
  /-- `WL_SEL` (10_state R56). -/
  wlSel : BitVec 9
  /-- `LC_BITS0..7` (10_state R58). -/
  lcBits : Vector Word 8
deriving DecidableEq, Repr

/-- Why the machine stops. Every one is raised only from a state that no run from reset reaches (10_state R67 rules
them out); each is SAFE: the model stops where the spec gives no effect because it says the case cannot arise. Log 8. -/
inductive Fault where
  /-- Raised by `MERGE`, `BUILD` and `ASSIGN` when a node they need holds no value (10_state R61: "no rule reads them"),
  or when the walk of `ASSIGN` does not end within `NODE_COUNT` levels. Safe. -/
  | noNode
  /-- Raised by `MERGE`, `BUILD` and `ASSIGN` when the working list is shorter than the phase says. Safe. -/
  | shortWorkingList
  /-- Raised by `ENC`, `PUTBITS`, `FLUSH`, `XFER`, `UNPACK` and `DECODE` when an engine access would fall outside a
  buffer (20_memory R78: "No engine access can fall outside a buffer"). Safe. -/
  | outsideBuffer
deriving DecidableEq, Repr

/-- Why a step has no meaning. -/
inductive Refusal where
  /-- Raised by the dispatch alone, for an instruction that has no meaning yet: none. Safe. -/
  | notModelled (mnemonic : String)
  /-- Raised by the host port for a byte or halfword access, or an offset that is not a multiple of 4: "outside the
  block's interface: the model refuses it" (20_memory R71, 93 U1). Safe. -/
  | outsideInterface
deriving DecidableEq, Repr

/-- The state after reset (10_state R68), under a configuration, for a draw of free bytes. -/
def State.afterReset (c : Config) (draw : Nat) : State :=
  { cfg := c, host := [], reply := .silent, draws := draw
    errIe := false, err := ErrRecord.clear
    freq := [], total := 0, leaves := 0
    nodes := [], nodeCount := 0, wl := [], wlLen := 0, tbState := .idle
    ct := [], ctCount := 0, ctState := .empty
    outbuf := [(0, 0#8)], outLen := 1, bitcnt := 0, acc := 0, accN := 0, pkState := .opened
    inbuf := [], inLen := 0
    decBits := 0, decPos := 0, decClen := 0, chunk := [], symout := [], symoutLen := 0, upState := .idle
    symSel := 0#8, nodeSel := 0#9, wlSel := 0#9, lcBits := Vector.replicate 8 0#32 }

/-- The machine right after reset, with the default parameters of 00_scope R8 and a host that has issued nothing. -/
def State.reset : State := State.afterReset Config.default 0

end Sys2Proof.Machine
end

