-- ==== Sys2Proof/Machine/Flags.lean ====
section
/-! DEFINITION. The status and error words and the interrupt level: `STATUS` (10_state R28), `ERR` (10_state R30), the
codes and stages of 60_exceptions R201 and R203, `err_irq` (60_exceptions R210). -/

namespace Sys2Proof.Machine

/-- The values of `TB_STATE` in `STATUS` (10_state R28). -/
def TbState.toBits : TbState → BitVec 2
  | .idle => 0#2
  | .loaded => 1#2
  | .done => 2#2

/-- The values of `CT_STATE` in `STATUS` (10_state R28). -/
def CtState.toBits : CtState → BitVec 2
  | .empty => 0#2
  | .tree => 1#2
  | .loaded => 2#2

/-- The values of `PK_STATE` in `STATUS` (10_state R28). -/
def PkState.toBits : PkState → BitVec 1
  | .opened => 0#1
  | .flushed => 1#1

/-- The values of `UP_STATE` in `STATUS` (10_state R28). -/
def UpState.toBits : UpState → BitVec 2
  | .idle => 0#2
  | .ready => 1#2
  | .done => 2#2

/-- The numbers of the error codes (60_exceptions R201). -/
def ErrCode.toBits : ErrCode → BitVec 4
  | .none => 0#4
  | .emptyAlphabet => 1#4
  | .unknownSymbol => 2#4
  | .truncatedOrCorruptStream => 3#4
  | .malformedCodeTable => 4#4
  | .illegalCommand => 5#4
  | .sequenceError => 6#4
  | .countOverflow => 7#4
  | .bufferOverflow => 8#4

/-- The numbers of the stages (60_exceptions R203). -/
def Stage.toBits : Stage → BitVec 3
  | .none => 0#3
  | .counting => 1#3
  | .building => 2#3
  | .assigning => 3#3
  | .encoding => 4#3
  | .decoding => 5#3
  | .packing => 6#3
  | .interface => 7#3

/-- The stage of a command's opcode (60_exceptions R203). -/
def stageOf : Opcode → Stage
  | .count => .counting
  | .tbinit => .building
  | .merge => .building
  | .build => .building
  | .assign => .assigning
  | .loadcode => .assigning
  | .enc => .encoding
  | .decode => .decoding
  | .putbits => .packing
  | .flush => .packing
  | .xfer => .packing
  | .unpack => .packing
  | .nop => .interface
  | .clear => .interface

/-- `ERR.CODE != 0`, shown as `STATUS.ERRF` (10_state R28). -/
def State.errored (s : State) : Bool := s.err.code != .none

/-- The level of `err_irq` (60_exceptions R210). -/
def State.errIrq (s : State) : Bool := s.errIe && s.errored

/-- `STATUS` (10_state R28), from bit 31 down: `BUSY` (always 0, 70_reset_and_hazards R234, log 12), reserved, `IRQ`, `ERRF`,
`UP_STATE`, `PK_STATE`, `CT_STATE`, `TB_STATE`. -/
def State.status (s : State) : Word :=
  (0#1 ++ 0#22 ++ BitVec.ofBool s.errIrq ++ BitVec.ofBool s.errored ++ s.upState.toBits ++ s.pkState.toBits
    ++ s.ctState.toBits ++ s.tbState.toBits : BitVec (1 + 22 + 1 + 1 + 2 + 1 + 2 + 2))

/-- `ERR` (10_state R30), from bit 31 down: reserved, `OPC`, reserved, `STAGE`, `SUB`, `CODE`. -/
def ErrRecord.toWord (e : ErrRecord) : Word :=
  (0#8 ++ e.opc ++ 0#5 ++ e.stage.toBits ++ e.sub ++ e.code.toBits : BitVec (8 + 8 + 5 + 3 + 4 + 4))

end Sys2Proof.Machine
end

