-- ==== Sys2Proof/Machine/Operands.lean ====
section
/-! DEFINITION. Bitstrings and operand forms: `val` and `bstr` (00_scope R11), the operands of 30_encoding R97, the
staged code value `W` (10_state R58), and the prefix relation of 41_code_table R134. -/

namespace Sys2Proof.Machine

/-- `val(x)`, first bit most significant (00_scope R11), after the bits read so far. -/
def valFrom : Nat → Bits → Nat
  | n, [] => n
  | n, b :: x => valFrom (2 * n + b.toNat) x

/-- `val(x)` (00_scope R11). -/
def val (x : Bits) : Nat := valFrom 0 x

/-- `bstr(v, n)`: the bitstring of length `n` with value `v`, for `v < 2^n` (00_scope R11). -/
def bstr (v : Nat) : Nat → Bits
  | 0 => []
  | n + 1 => v.testBit n :: bstr v n

/-- The bits of `PUTBITS n, val`: `VAL[N-1]` first (30_encoding R96). -/
def rawBits (n : BitVec 5) (v : BitVec 16) : Bits := bstr v.toNat n.toNat

/-- `sum_j LC_BITSj * 2^(32j)` over the staging registers of a list, first is `j = 0`. -/
def stagedFrom : List Word → Nat
  | [] => 0
  | v :: r => v.toNat + 2 ^ 32 * stagedFrom r

/-- `W`, the 256-bit value of `LC_BITS0..7` (10_state R58). -/
def State.staged (s : State) : Nat := stagedFrom s.lcBits.toList

/-- `prefix(x, m) = prefix(y, m)` with `m = min(|x|, |y|)`: one of the two is a prefix of the other (41_code_table R134). -/
def clashes (x y : Bits) : Bool :=
  let m := min x.length y.length
  x.take m == y.take m

end Sys2Proof.Machine
end

