-- ==== Sys2Proof/Machine/Ops.lean ====
section
/-! DEFINITION. The named operations over state: keyed data and the buffers (20_memory R78), raising an error and
returning from one (60_exceptions R205, R212), the block's reset (70_reset_and_hazards R230), and how a command's body
ends. -/

namespace Sys2Proof.Machine

/-- The value at a key, if listed. -/
def Cells.get {α : Type} : Cells α → Nat → Option α
  | [], _ => none
  | (k, v) :: r, a => if a = k then some v else Cells.get r a

/-- Store a value at a key, keeping the keys strictly rising. -/
def Cells.set {α : Type} : Cells α → Nat → α → Cells α
  | [], a, v => [(a, v)]
  | (k, w) :: r, a, v =>
    if a < k then (a, v) :: (k, w) :: r
    else if a = k then (a, v) :: r
    else (k, w) :: Cells.set r a v

/-- `FREQ[s]` (10_state R60). -/
def State.freqOf (s : State) (sym : Nat) : Nat := (Cells.get s.freq sym).getD 0

/-- `CT[s].code`, the empty bitstring when the symbol has no code (10_state R63). -/
def State.codeOf (s : State) (sym : Nat) : Bits := (Cells.get s.ct sym).getD []

/-- `NODE[i]`: an entry at or beyond `NODE_COUNT` holds no value (10_state R61). -/
def State.nodeAt (s : State) (i : Nat) : Option Node :=
  if i < s.nodeCount then Cells.get s.nodes i else none

/-- A node's count (00_scope R18). -/
def Node.count : Node → Nat
  | .leaf c _ => c
  | .internal c _ _ => c

/-- The capacity of a buffer (10_state R64). -/
def capacityOf (c : Config) : Buffer → Nat
  | .outbuf => c.outCap
  | .inbuf => c.inCap
  | .symout => c.symoutCap

/-- The contents of a buffer. -/
def State.buffer (s : State) : Buffer → Memory
  | .outbuf => s.outbuf
  | .inbuf => s.inbuf
  | .symout => s.symout

/-- The state with a buffer's contents replaced. -/
def State.withBuffer (s : State) (b : Buffer) (m : Memory) : State :=
  match b with
  | .outbuf => { s with outbuf := m }
  | .inbuf => { s with inbuf := m }
  | .symout => { s with symout := m }

/-- The stored byte of a buffer: what was written, or the free byte of this draw where nothing was (93 U6). Log 4, 5. -/
def State.stored (s : State) (b : Buffer) (i : Nat) : Byte :=
  (Cells.get (s.buffer b) i).getD (Config.freeByte b s.draws i)

/-- What a `raise` carries (60_exceptions R205): error, subcode, first and second detail. -/
structure Raised where
  code : ErrCode
  sub : Nat
  info0 : Nat
  info1 : Nat
deriving DecidableEq, Repr

/-- How a command's body ends without a new state: it raises an error, or the machine stops. -/
inductive Halt where
  | error (e : Raised)
  | fault (f : Fault)
deriving DecidableEq, Repr

/-- The result of a command's body. -/
abbrev Cmd (α : Type) := Except Halt α

/-- `raise E(sub, info0, info1)` as a body's result. -/
def raising {α : Type} (code : ErrCode) (sub info0 info1 : Nat) : Cmd α :=
  .error (.error { code := code, sub := sub, info0 := info0, info1 := info1 })

/-- `raise SequenceError(0, STATUS, 0)`, with `STATUS` before the command (60_exceptions R202). -/
def sequenceError {α : Type} (s : State) : Cmd α := raising .sequenceError 0 s.status.toNat 0

/-- The machine stops. -/
def stopping {α : Type} (f : Fault) : Cmd α := .error (.fault f)

/-- `MemRead(buf, i)` (20_memory R78). -/
def memRead (b : Buffer) (i : Nat) (s : State) : Cmd Byte :=
  if i < capacityOf s.cfg b then .ok (s.stored b i) else stopping .outsideBuffer

/-- `MemWrite(buf, i, v)` (20_memory R78). -/
def memWrite (b : Buffer) (i : Nat) (v : Byte) (s : State) : Cmd State :=
  if i < capacityOf s.cfg b then .ok (s.withBuffer b (Cells.set (s.buffer b) i v)) else stopping .outsideBuffer

/-- The stage a `raise` records (60_exceptions R204, R205). -/
def stageRecorded (code : ErrCode) (w : Word) : Stage :=
  if code = .illegalCommand then .interface
  else match Opcode.ofBits (opcField w) with
    | some o => stageOf o
    | none => .interface

/-- TAKING AN ERROR (60_exceptions R205): the error registers record it inside command word `w`; nothing else is saved
and no mode changes (60_exceptions R211). -/
def raiseError (w : Word) (e : Raised) (s : State) : State :=
  { s with err :=
    { code := e.code, sub := BitVec.ofNat 4 e.sub, stage := stageRecorded e.code w, opc := opcField w
      info0 := BitVec.ofNat 32 e.info0, info1 := BitVec.ofNat 32 e.info1, cmd := w } }

/-- RETURN FROM AN ERROR (60_exceptions R212): the error registers become 0; nothing is restored. -/
def clearError (s : State) : State := { s with err := ErrRecord.clear }

/-- How a precise command ends (60_exceptions R207): its new state, or the error recorded in the state before it.
The word recorded is the command's encoding (log 11). -/
def finish (i : Instr) (s : State) : Cmd State → Host.Outcome State Fault Refusal
  | .ok t => .next t
  | .error (.error e) => .next (raiseError (encode i) e s)
  | .error (.fault f) => .fault f

/-- Reset (70_reset_and_hazards R230): every piece of the block's state as 10_state R68 says, with a new draw of free
bytes for `INBUF`. The parameters and the host's own pending actions are not the block's state. -/
def resetBlock (s : State) : State :=
  { State.afterReset s.cfg (s.draws + 1) with host := s.host }

end Sys2Proof.Machine
end

