-- ==== Sys2Proof/Machine/CodeTable.lean ====
section
/-! DEFINITION. The code table (41_code_table): lookups, `ASSIGN`, `LOADCODE`. -/

namespace Sys2Proof.Machine

/-- `Lookup(s)` (41_code_table R131). -/
def State.lookup (s : State) (sym : Nat) : Option Bits :=
  if s.codeOf sym = [] then none else some (s.codeOf sym)

/-- `Match(x)` over the entries of a code table (41_code_table R132): exact strings, lengths included. -/
def matchCode (ct : Cells Bits) (x : Bits) : Option Nat :=
  (ct.find? (fun p => decide (p.2 ≠ []) && (p.2 == x))).map Prod.fst

/-- The bit of a left edge, and of a right edge (41_code_table R130). -/
def leftBit : Bool := true
/-- The bit of a right edge (41_code_table R130). -/
def rightBit : Bool := false

/-- `Walk(i, path)` (41_code_table R133): the leaves below node `i` with their paths, left subtree first. A child's
index is below its parent's (10_state R61), so `NODE_COUNT` levels are enough. -/
def walk (s : State) : Nat → Nat → Bits → Option (List (Nat × Bits))
  | 0, _, _ => none
  | fuel + 1, i, path =>
    match s.nodeAt i with
    | none => none
    | some (.leaf _ sym) => some [(sym, path)]
    | some (.internal _ l r) =>
      match walk s fuel l (path ++ [leftBit]), walk s fuel r (path ++ [rightBit]) with
      | some xs, some ys => some (xs ++ ys)
      | _, _ => none

/-- `CT[s] <- {len = |path|, code = path}` for each leaf found (41_code_table R133). -/
def enterCodes : List (Nat × Bits) → Cells Bits → Cells Bits
  | [], ct => ct
  | (sym, code) :: r, ct => enterCodes r (Cells.set ct sym code)

/-- The codes `ASSIGN` gives: a lone leaf's is `'1'`, else the walk's (41_code_table R133). -/
def State.treeCodes (s : State) (root : Nat) : Option (List (Nat × Bits)) :=
  match s.nodeAt root with
  | some (.leaf _ sym) => some [(sym, [leftBit])]
  | _ => walk s s.nodeCount root []

/-- `ASSIGN` (41_code_table R133). -/
def assignBody (s : State) : Cmd State :=
  if s.tbState ≠ .done ∨ s.ctState ≠ .empty then sequenceError s
  else match s.wl with
    | [] => stopping .shortWorkingList
    | root :: _ =>
      match s.treeCodes root with
      | none => stopping .noNode
      | some codes => .ok { s with ct := enterCodes codes s.ct, ctCount := s.leaves, ctState := .tree }

/-- `ASSIGN` (41_code_table R133). -/
def execAssign (s : State) : Host.Outcome State Fault Refusal := finish .assign s (assignBody s)

/-- `min K` of `LOADCODE`: the smallest symbol whose code is equal to `x`, a prefix of it or an extension of it
(41_code_table R134). The entries' keys rise, so the first is the smallest. -/
def firstClash (ct : Cells Bits) (x : Bits) : Option Nat :=
  (ct.find? (fun p => decide (p.2 ≠ []) && clashes x p.2)).map Prod.fst

/-- `LOADCODE sym, len` (41_code_table R134). -/
def loadcodeBody (len sym : Nat) (s : State) : Cmd State :=
  if s.ctState = .tree then sequenceError s
  else if len = 0 then raising .malformedCodeTable 1 sym 0
  else if 2 ^ len ≤ s.staged then raising .malformedCodeTable 2 sym len
  else if s.codeOf sym ≠ [] then raising .malformedCodeTable 3 sym sym
  else
    let x := bstr s.staged len
    match firstClash s.ct x with
    | some t => raising .malformedCodeTable 4 sym t
    | none => .ok { s with ct := Cells.set s.ct sym x, ctCount := s.ctCount + 1, ctState := .loaded }

/-- `LOADCODE sym, len` (41_code_table R134). -/
def execLoadcode (len : BitVec 8) (sym : BitVec 16) (s : State) : Host.Outcome State Fault Refusal :=
  finish (.loadcode len sym) s (loadcodeBody len.toNat sym.toNat s)

end Sys2Proof.Machine
end

