-- ==== Sys2Proof/Machine/Control.lean ====
section
/-! DEFINITION. The control commands (44_control): `NOP`, `CLEAR`. -/

namespace Sys2Proof.Machine

/-- `NOP`: do nothing (44_control R191). -/
def execNop (s : State) : Host.Outcome State Fault Refusal := .next s

/-- `CLEAR` mask bit 0: frequency table and tree builder (44_control R192). -/
def clearTree (s : State) : State :=
  { s with freq := [], total := 0, leaves := 0, nodes := [], nodeCount := 0, wl := [], wlLen := 0, tbState := .idle }

/-- `CLEAR` mask bit 1: code table (44_control R192). -/
def clearTable (s : State) : State := { s with ct := [], ctCount := 0, ctState := .empty }

/-- `CLEAR` mask bit 2: packer; `MemWrite(OUTBUF, 0, 0)` is always in range, since `OUT_CAP >= 2` (44_control R192). -/
def clearPacker (s : State) : State :=
  { s with outbuf := Cells.set s.outbuf 0 0#8, outLen := 1, bitcnt := 0, acc := 0, accN := 0, pkState := .opened }

/-- `CLEAR` mask bit 3: unpacker and decoder (44_control R192). -/
def clearUnpacker (s : State) : State :=
  { s with decBits := 0, decPos := 0, decClen := 0, chunk := [], symoutLen := 0, upState := .idle }

/-- `CLEAR mask` (44_control R192). Mask bit 4 is the return from an error. -/
def execClear (mask : BitVec 5) (s : State) : Host.Outcome State Fault Refusal :=
  let s := if mask.getLsbD 0 then clearTree s else s
  let s := if mask.getLsbD 1 then clearTable s else s
  let s := if mask.getLsbD 2 then clearPacker s else s
  let s := if mask.getLsbD 3 then clearUnpacker s else s
  .next (if mask.getLsbD 4 then clearError s else s)

end Sys2Proof.Machine
end

