-- ==== Sys2Proof/Machine/Packer.lean ====
section
/-! DEFINITION. The encoder and the bit packer (42_encode_pack): `ENC`, `PUTBITS`, `FLUSH`, `XFER`. -/

namespace Sys2Proof.Machine

/-- One round of `AppendBits` (42_encode_pack R150): the eighth bit writes the byte. -/
def appendBit (b : Bool) (s : State) : Cmd State :=
  if s.accN + 1 = 8 then
    (memWrite .outbuf s.outLen (BitVec.ofNat 8 (2 * s.acc + b.toNat)) s).bind (fun t =>
      .ok { t with outLen := s.outLen + 1, bitcnt := s.bitcnt + 1, acc := 0, accN := 0 })
  else .ok { s with bitcnt := s.bitcnt + 1, acc := 2 * s.acc + b.toNat, accN := s.accN + 1 }

/-- `AppendBits(x)` (42_encode_pack R150). -/
def appendBits : Bits → State → Cmd State
  | [], s => .ok s
  | b :: x, s => (appendBit b s).bind (appendBits x)

/-- `Fits(n)` (42_encode_pack R151). -/
def State.fits (s : State) (n : Nat) : Bool := decide (1 + (s.bitcnt + n + 7) / 8 ≤ s.cfg.outCap)

/-- The end of `ENC` and `PUTBITS`: the capacity check, then the bits (42_encode_pack R152, R153). -/
def appendChecked (x : Bits) (s : State) : Cmd State :=
  if s.fits x.length then appendBits x s else raising .bufferOverflow 1 s.bitcnt x.length

/-- `ENC sym` (42_encode_pack R152). -/
def encBody (sym : Nat) (s : State) : Cmd State :=
  if s.ctState = .empty ∨ s.pkState ≠ .opened then sequenceError s
  else match s.lookup sym with
    | none => raising .unknownSymbol 0 sym 0
    | some x => appendChecked x s

/-- `ENC sym` (42_encode_pack R152). -/
def execEnc (sym : BitVec 16) (s : State) : Host.Outcome State Fault Refusal :=
  finish (.enc sym) s (encBody sym.toNat s)

/-- `PUTBITS n, bits` (42_encode_pack R153). -/
def putbitsBody (x : Bits) (s : State) : Cmd State :=
  if s.pkState ≠ .opened then sequenceError s else appendChecked x s

/-- `PUTBITS n, bits` (42_encode_pack R153). -/
def execPutbits (n : BitVec 5) (v : BitVec 16) (s : State) : Host.Outcome State Fault Refusal :=
  finish (.putbits n v) s (putbitsBody (rawBits n v) s)

/-- `Padding(n)` (42_encode_pack R154). -/
def padding (n : Nat) : Nat := (8 - n % 8) % 8

/-- The last byte of `FLUSH`, where bits are pending (42_encode_pack R155). -/
def flushPending (s : State) : Cmd State :=
  if 0 < s.accN then
    (memWrite .outbuf s.outLen (BitVec.ofNat 8 (s.acc * 2 ^ padding s.bitcnt)) s).bind (fun t =>
      .ok { t with outLen := s.outLen + 1 })
  else .ok s

/-- `FLUSH` (42_encode_pack R155). -/
def flushBody (s : State) : Cmd State :=
  if s.pkState ≠ .opened then sequenceError s
  else (flushPending s).bind (fun t =>
    (memWrite .outbuf 0 (BitVec.ofNat 8 (padding s.bitcnt)) t).bind (fun u =>
      .ok { u with acc := 0, accN := 0, pkState := .flushed }))

/-- `FLUSH` (42_encode_pack R155). -/
def execFlush (s : State) : Host.Outcome State Fault Refusal := finish .flush s (flushBody s)

/-- `for i in 0 .. n-1: MemWrite(INBUF, i, MemRead(OUTBUF, i))` (42_encode_pack R156). -/
def copyOut : Nat → State → Cmd State
  | 0, s => .ok s
  | n + 1, s => (copyOut n s).bind (fun t => (memRead .outbuf n t).bind (fun v => memWrite .inbuf n v t))

/-- `XFER` (42_encode_pack R156). -/
def xferBody (s : State) : Cmd State :=
  if s.pkState ≠ .flushed then sequenceError s
  else if s.cfg.inCap < s.outLen then raising .bufferOverflow 2 s.outLen s.cfg.inCap
  else (copyOut s.outLen s).bind (fun t => .ok { t with inLen := s.outLen, upState := .idle })

/-- `XFER` (42_encode_pack R156). -/
def execXfer (s : State) : Host.Outcome State Fault Refusal := finish .xfer s (xferBody s)

end Sys2Proof.Machine
end

