-- ==== Sys2Proof/Machine/Tree.lean ====
section
/-! DEFINITION. The frequency counter and the tree builder (40_tree_builder): `COUNT`, `TBINIT`, `MERGE`, `BUILD`. -/

namespace Sys2Proof.Machine

/-- `COUNT sym` (40_tree_builder R111). -/
def countBody (sym : Nat) (s : State) : Cmd State :=
  if s.tbState ≠ .idle then sequenceError s
  else if s.total = s.cfg.countMax then raising .countOverflow 0 sym (s.freqOf sym)
  else .ok { s with
    leaves := if s.freqOf sym = 0 then s.leaves + 1 else s.leaves
    freq := Cells.set s.freq sym (s.freqOf sym + 1)
    total := s.total + 1 }

/-- `COUNT sym` (40_tree_builder R111). -/
def execCount (sym : BitVec 16) (s : State) : Host.Outcome State Fault Refusal :=
  finish (.count sym) s (countBody sym.toNat s)

/-- `(count, symbol)` of the first comes before the second's (40_tree_builder R112). -/
def leafBefore (a b : Nat × Nat) : Bool := a.2 < b.2 || (a.2 == b.2 && a.1 ≤ b.1)

/-- Insert a (symbol, count) pair into a list ascending by (count, symbol). -/
def insertLeaf (a : Nat × Nat) : List (Nat × Nat) → List (Nat × Nat)
  | [] => [a]
  | b :: r => if leafBefore a b then a :: b :: r else b :: insertLeaf a r

/-- The (symbol, count) pairs sorted ascending by (count, symbol) (40_tree_builder R112). -/
def sortLeaves : Cells Nat → List (Nat × Nat)
  | [] => []
  | a :: r => insertLeaf a (sortLeaves r)

/-- `S` of `TBINIT`: the symbols with `FREQ >= 1`, sorted (40_tree_builder R112). -/
def State.leafOrder (s : State) : List (Nat × Nat) := sortLeaves (s.freq.filter (fun p => decide (1 ≤ p.2)))

/-- `NODE[i] <- Leaf{count = FREQ[S[i]], sym = S[i]}` for each pair of `S`, from index `i` on (40_tree_builder R112). -/
def leafNodes : Nat → List (Nat × Nat) → Cells Node
  | _, [] => []
  | i, (sym, c) :: r => (i, .leaf c sym) :: leafNodes (i + 1) r

/-- `TBINIT` after its phase check (40_tree_builder R112). The store holds no entry before it (10_state R61).
Log 10. -/
def initTree (s : State) : Cmd State :=
  if s.leaves = 0 then raising .emptyAlphabet 0 0 0
  else .ok { s with
    nodes := leafNodes 0 (s.leafOrder.take s.leaves)
    nodeCount := s.leaves
    wl := List.range s.leaves
    wlLen := s.leaves
    tbState := if s.leaves = 1 then .done else .loaded }

/-- `TBINIT` (40_tree_builder R112). -/
def tbinitBody (s : State) : Cmd State := if s.tbState ≠ .idle then sequenceError s else initTree s

/-- `TBINIT` (40_tree_builder R112). -/
def execTbinit (s : State) : Host.Outcome State Fault Refusal := finish .tbinit s (tbinitBody s)

/-- The count of a node of the store, for an index that holds a node. -/
def State.countAt (s : State) (i : Nat) : Nat := ((s.nodeAt i).map Node.count).getD 0

/-- `MERGE` after its phase check (40_tree_builder R113). -/
def mergeOnce (s : State) : Cmd State :=
  match s.wl with
  | a :: b :: r =>
    if s.wl.all (fun i => (s.nodeAt i).isSome) then
      let n := s.nodeCount
      let c := s.countAt a + s.countAt b
      let p := (r.filter (fun j => decide (s.countAt j ≤ c))).length
      .ok { s with
        nodes := Cells.set s.nodes n (.internal c a b)
        nodeCount := n + 1
        wl := r.take p ++ n :: r.drop p
        wlLen := s.wlLen - 1
        tbState := if s.wlLen - 1 = 1 then .done else s.tbState }
    else stopping .noNode
  | _ => stopping .shortWorkingList

/-- `MERGE` (40_tree_builder R113). -/
def mergeBody (s : State) : Cmd State := if s.tbState ≠ .loaded then sequenceError s else mergeOnce s

/-- `MERGE` (40_tree_builder R113). -/
def execMerge (s : State) : Host.Outcome State Fault Refusal := finish .merge s (mergeBody s)

/-- `while TB_STATE = LOADED: MERGE` (40_tree_builder R114). Each merge shortens the working list by one, so as many
rounds as it has entries are enough. -/
def mergeAll : Nat → State → Cmd State
  | 0, s => if s.tbState = .loaded then stopping .shortWorkingList else .ok s
  | n + 1, s => if s.tbState = .loaded then (mergeOnce s).bind (mergeAll n) else .ok s

/-- `BUILD` (40_tree_builder R114). -/
def buildBody (s : State) : Cmd State :=
  if s.tbState = .done then sequenceError s
  else (if s.tbState = .idle then initTree s else .ok s).bind (fun t => mergeAll t.wl.length t)

/-- `BUILD` (40_tree_builder R114). -/
def execBuild (s : State) : Host.Outcome State Fault Refusal := finish .build s (buildBody s)

end Sys2Proof.Machine
end

