-- ==== Sys2Proof/Machine/Unpacker.lean ====
section
/-! DEFINITION. The unpacker and the decoder (43_unpack_decode): `UNPACK`, `DECODE`. -/

namespace Sys2Proof.Machine

/-- `UNPACK` (43_unpack_decode R172). -/
def unpackBody (s : State) : Cmd State :=
  if s.inLen = 0 then raising .truncatedOrCorruptStream 1 0 0
  else (memRead .inbuf 0 s).bind (fun header =>
    let pad := header.toNat
    if 7 < pad then raising .truncatedOrCorruptStream 2 pad 0
    else if 8 * (s.inLen - 1) < pad then raising .truncatedOrCorruptStream 3 pad s.inLen
    else .ok { s with
      decBits := 8 * (s.inLen - 1) - pad
      decPos := 0, decClen := 0, chunk := [], symoutLen := 0, upState := .ready })

/-- `UNPACK` (43_unpack_decode R172). -/
def execUnpack (s : State) : Host.Outcome State Fault Refusal := finish .unpack s (unpackBody s)

/-- `PayloadBit(p)` (43_unpack_decode R171, 20_memory R80). -/
def payloadBit (p : Nat) (s : State) : Cmd Bool :=
  (memRead .inbuf (1 + p / 8) s).bind (fun v => .ok (v.getLsbD (7 - p % 8)))

/-- One bit into the chunk (43_unpack_decode R173). -/
def takeBit (b : Bool) (s : State) : State :=
  { s with chunk := s.chunk ++ [b], decClen := s.decClen + 1, decPos := s.decPos + 1 }

/-- A decoded symbol into `SYMOUT`, and a fresh chunk (43_unpack_decode R173). -/
def emitSymbol (sym : Nat) (s : State) : Cmd State :=
  (memWrite .symout s.symoutLen (BitVec.ofNat 8 sym) s).bind (fun t =>
    .ok { t with symoutLen := s.symoutLen + 1, chunk := [], decClen := 0 })

/-- How `DECODE` ends: the progress it made, and the error it raises after it, if any (43_unpack_decode R173). -/
abbrev Progress := State × Option Raised

/-- The payload bit position where the chunk starts (60_exceptions R202). -/
def State.chunkStart (s : State) : Nat := s.decPos - s.decClen

/-- `TruncatedOrCorruptStream` subcode 5: a chunk of `CODE_LEN_MAX` bits that no later bit can make match
(60_exceptions R202, 43_unpack_decode R173). -/
def State.chunkTooLong (s : State) : Raised := ⟨.truncatedOrCorruptStream, 5, s.chunkStart, s.decClen⟩

/-- The loop of `DECODE` over the `n` payload bits left, and what follows it (43_unpack_decode R173). A chunk that a raise
left with `CODE_LEN_MAX` bits has no room for another (10_state R65), so a resumed `DECODE` with bits left raises subcode 5
before it takes one. Log 6. -/
def decodeBits : Nat → State → Cmd Progress
  | 0, s =>
    if 0 < s.decClen then .ok (s, some ⟨.truncatedOrCorruptStream, 4, s.chunkStart, s.decClen⟩)
    else .ok ({ s with upState := .done }, none)
  | n + 1, s =>
    if Config.codeLenMax ≤ s.decClen then .ok (s, some s.chunkTooLong)
    else (payloadBit s.decPos s).bind (fun b =>
      let t := takeBit b s
      match matchCode t.ct t.chunk with
      | some sym =>
        if t.symoutLen = t.cfg.symoutCap then .ok (t, some ⟨.bufferOverflow, 3, t.chunkStart, sym⟩)
        else (emitSymbol sym t).bind (decodeBits n)
      | none =>
        if t.decClen = Config.codeLenMax then .ok (t, some t.chunkTooLong)
        else decodeBits n t)

/-- `DECODE` (43_unpack_decode R173). -/
def decodeBody (s : State) : Cmd Progress :=
  if s.upState ≠ .ready ∨ s.ctState = .empty then sequenceError s
  else decodeBits (s.decBits - s.decPos) s

/-- How `DECODE` ends: an error after the phase check is recorded in the progress made (43_unpack_decode R173). -/
def finishDecode (s : State) : Cmd Progress → Host.Outcome State Fault Refusal
  | .ok (t, none) => .next t
  | .ok (t, some e) => .next (raiseError (encode .decode) e t)
  | .error h => finish .decode s (.error h)

/-- `DECODE` (43_unpack_decode R173). -/
def execDecode (s : State) : Host.Outcome State Fault Refusal := finishDecode s (decodeBody s)

end Sys2Proof.Machine
end

