-- ==== Sys2Proof/Machine/Dispatch.lean ====
section
/-! DEFINITION. The dispatch: "perform the rule of OPC" (44_control R190), one arm per command. -/

namespace Sys2Proof.Machine

def exec (i : Instr) (s : State) : Host.Outcome State Fault Refusal :=
  match i with
  | .nop => Sys2Proof.Machine.execNop s
  | .clear mask => Sys2Proof.Machine.execClear mask s
  | .count sym => Sys2Proof.Machine.execCount sym s
  | .tbinit => Sys2Proof.Machine.execTbinit s
  | .merge => Sys2Proof.Machine.execMerge s
  | .build => Sys2Proof.Machine.execBuild s
  | .assign => Sys2Proof.Machine.execAssign s
  | .loadcode len sym => Sys2Proof.Machine.execLoadcode len sym s
  | .enc sym => Sys2Proof.Machine.execEnc sym s
  | .putbits n val => Sys2Proof.Machine.execPutbits n val s
  | .flush => Sys2Proof.Machine.execFlush s
  | .xfer => Sys2Proof.Machine.execXfer s
  | .unpack => Sys2Proof.Machine.execUnpack s
  | .decode => Sys2Proof.Machine.execDecode s

end Sys2Proof.Machine
end

