-- ==== Sys2Proof/Machine/Command.lean ====
section
/-! DEFINITION. A command word's execution (44_control R190): the error gate (60_exceptions R206), the legality check
(30_encoding R99), then the command's rule. -/

namespace Sys2Proof.Machine

/-- A well-formed `CLEAR`: `w[31:24] = 0x01` and `w[23:5] = 0` (60_exceptions R206). -/
def isClear (w : Word) : Bool := opcField w == 0x01#8 && w.extractLsb' 5 19 == 0#19

/-- `ErrorGate(w) = ignore` (60_exceptions R206). -/
def gated (w : Word) (s : State) : Bool := s.errored && !isClear w

/-- `raise IllegalCommand(sub, w, 0)` (30_encoding R99). -/
def raiseIllegal (w : Word) (e : Illegal) (s : State) : State :=
  raiseError w { code := .illegalCommand, sub := e.subcode, info0 := w.toNat, info1 := 0 } s

/-- `Execute(w)` (44_control R190). -/
def execute (w : Word) (s : State) : Host.Outcome State Fault Refusal :=
  if gated w s then .next s
  else match decode s.cfg w with
    | .error e => .next (raiseIllegal w e s)
    | .ok i => exec i s

end Sys2Proof.Machine
end

