-- ==== Sys2Proof/Machine/Bus.lean ====
section
/-! DEFINITION. The host bus: the register map (10_state R23), what every register and window reads (10_state R25 to R59,
20_memory R75 to R77), what a write does (20_memory R72 to R76), and the host's actions (20_memory R87). -/

namespace Sys2Proof.Machine

/-- What an offset names (10_state R23). -/
inductive Port where
  | id | param | ctrl | status | cmd | err | errInfo0 | errInfo1 | errCmd
  | total | leaves | nodeCount | wlLen | root | ctCount
  | outLen | bitcnt | pkAcc | inLen | decBits | decPos | decClen | symoutLen
  | symSel | freqVal | ctLen | nodeSel | nodeInfo | nodeCnt | nodeKids | wlSel | wlNode
  | ctBits (j : Nat)
  | lcBits (j : Nat)
  | outCap | inCap | symoutCap
  | outbufWord (q : Nat)
  | inbufWord (q : Nat)
  | symoutWord (j : Nat)
  | reserved
deriving DecidableEq, Repr

/-- The registers at 0x000 to 0x07C, one a word, in order (10_state R23). -/
def firstPorts : List Port :=
  [.id, .param, .ctrl, .status, .cmd, .err, .errInfo0, .errInfo1, .errCmd,
   .total, .leaves, .nodeCount, .wlLen, .root, .ctCount, .outLen,
   .bitcnt, .pkAcc, .inLen, .decBits, .decPos, .decClen, .symoutLen, .symSel,
   .freqVal, .ctLen, .nodeSel, .nodeInfo, .nodeCnt, .nodeKids, .wlSel, .wlNode]

/-- The register map, by word number (offset / 4) (10_state R23). -/
def portOfWord (n : Nat) : Port :=
  if n < 32 then firstPorts.getD n .reserved
  else if n < 40 then .ctBits (n - 32)
  else if n < 48 then .lcBits (n - 40)
  else if n = 48 then .outCap
  else if n = 49 then .inCap
  else if n = 50 then .symoutCap
  else if n < 0x4000 then .reserved
  else if n < 0x8000 then .outbufWord (n - 0x4000)
  else if n < 0xC000 then .inbufWord (n - 0x8000)
  else if n < 0x10000 then .reserved
  else .symoutWord (n - 0x10000)

/-- What an offset names (10_state R23). -/
def portOf (off : Offset) : Port := portOfWord (off.toNat / 4)

/-- A counter as a register field of `w` bits shows it, the other bits 0 (10_state R24). -/
def field (w n : Nat) : Word := BitVec.ofNat 32 (n % 2 ^ w)

/-- `SYM_SEL` as it reads: bits above `SYM_BITS-1` read 0 (10_state R48). -/
def State.selectedSymbol (s : State) : Nat := s.symSel.toNat % 2 ^ s.cfg.symBits

/-- The node `NODE_SEL` selects, if any (10_state R52). -/
def State.selectedNode (s : State) : Option Node := s.nodeAt s.nodeSel.toNat

/-- `PARAM` (10_state R26). -/
def readParam (s : State) : Word :=
  BitVec.ofNat 32 (s.cfg.symBits % 2 ^ 4 + 2 ^ 4 * (s.cfg.countBits % 2 ^ 6) + 2 ^ 10 * Config.codeLenMax)

/-- `ROOT` (10_state R38). -/
def readRoot (s : State) : Word :=
  if s.tbState = .done then BitVec.ofNat 32 (2 ^ 31 + s.wl.headD 0 % 2 ^ 9) else 0#32

/-- `PK_ACC` (10_state R42). -/
def readPkAcc (s : State) : Word := BitVec.ofNat 32 (2 ^ 8 * (s.accN % 2 ^ 3) + s.acc % 2 ^ 7)

/-- `CT_BITSj`: bits `32j+31:32j` of `V = val(CT[SYM_SEL].code)` (10_state R51). -/
def readCtBits (j : Nat) (s : State) : Word :=
  BitVec.ofNat 32 (val (s.codeOf s.selectedSymbol) / 2 ^ (32 * j))

/-- `NODE_INFO` (10_state R53). -/
def readNodeInfo (s : State) : Word :=
  match s.selectedNode with
  | none => 0#32
  | some (.leaf _ sym) => BitVec.ofNat 32 (1 + 2 ^ 8 * (sym % 2 ^ 8))
  | some (.internal _ _ _) => 3#32

/-- `NODE_CNT` (10_state R54). -/
def readNodeCnt (s : State) : Word :=
  match s.selectedNode with
  | none => 0#32
  | some n => field s.cfg.countBits n.count

/-- `NODE_KIDS` (10_state R55). -/
def readNodeKids (s : State) : Word :=
  match s.selectedNode with
  | some (.internal _ l r) => BitVec.ofNat 32 (l % 2 ^ 9 + 2 ^ 16 * (r % 2 ^ 9))
  | some (.leaf _ _) => 0#32
  | none => 0#32

/-- `WL_NODE` (10_state R57). -/
def readWlNode (s : State) : Word :=
  if s.wlSel.toNat < s.wlLen then BitVec.ofNat 32 (2 ^ 31 + s.wl.getD s.wlSel.toNat 0 % 2 ^ 9) else 0#32

/-- A byte of the `OUTBUF` window: 0 at or beyond `OUT_LEN`, and at or beyond `OUT_CAP` (20_memory R75). -/
def outbufLane (s : State) (i : Nat) : Byte :=
  if i < s.outLen ∧ i < s.cfg.outCap then s.stored .outbuf i else 0#8

/-- A byte of the `INBUF` window: the stored byte below `IN_CAP`, else 0 (20_memory R76). -/
def inbufLane (s : State) (i : Nat) : Byte := if i < s.cfg.inCap then s.stored .inbuf i else 0#8

/-- Bytes `4q .. 4q+3`, byte `4q + r` in bits `8r+7 : 8r` (20_memory R75). -/
def lanes (byteAt : Nat → Byte) (q : Nat) : Word :=
  (byteAt (4 * q + 3) ++ byteAt (4 * q + 2) ++ byteAt (4 * q + 1) ++ byteAt (4 * q) : BitVec (8 + 8 + 8 + 8))

/-- A word of the `SYMOUT` window (20_memory R77); a word beyond the buffer's capacity reads 0 (20_memory R73). -/
def readSymout (s : State) (j : Nat) : Word :=
  if j < s.symoutLen ∧ j < s.cfg.symoutCap then (s.stored .symout j).setWidth 32 else 0#32

/-- What a bus read returns at each place of the register map (10_state R25 to R59, 20_memory R73 to R77). -/
def readPort (s : State) : Port → Word
  | .id => 0x48434501#32
  | .param => readParam s
  | .ctrl => (BitVec.ofBool s.errIe).setWidth 32
  | .status => s.status
  | .cmd => 0#32
  | .err => s.err.toWord
  | .errInfo0 => s.err.info0
  | .errInfo1 => s.err.info1
  | .errCmd => s.err.cmd
  | .total => field s.cfg.countBits s.total
  | .leaves => field 9 s.leaves
  | .nodeCount => field 9 s.nodeCount
  | .wlLen => field 9 s.wlLen
  | .root => readRoot s
  | .ctCount => field 9 s.ctCount
  | .outLen => field 17 s.outLen
  | .bitcnt => field 20 s.bitcnt
  | .pkAcc => readPkAcc s
  | .inLen => field 17 s.inLen
  | .decBits => field 20 s.decBits
  | .decPos => field 20 s.decPos
  | .decClen => field 8 s.decClen
  | .symoutLen => field 17 s.symoutLen
  | .symSel => BitVec.ofNat 32 s.selectedSymbol
  | .freqVal => field s.cfg.countBits (s.freqOf s.selectedSymbol)
  | .ctLen => BitVec.ofNat 32 (s.codeOf s.selectedSymbol).length
  | .nodeSel => s.nodeSel.setWidth 32
  | .nodeInfo => readNodeInfo s
  | .nodeCnt => readNodeCnt s
  | .nodeKids => readNodeKids s
  | .wlSel => s.wlSel.setWidth 32
  | .wlNode => readWlNode s
  | .ctBits j => readCtBits j s
  | .lcBits j => s.lcBits.toList.getD j 0#32
  | .outCap => field 17 s.cfg.outCap
  | .inCap => field 17 s.cfg.inCap
  | .symoutCap => field 17 s.cfg.symoutCap
  | .outbufWord q => lanes (outbufLane s) q
  | .inbufWord q => lanes (inbufLane s) q
  | .symoutWord j => readSymout s j
  | .reserved => 0#32

/-- The value of a bus read at an offset (20_memory R87). -/
def busRead (s : State) (off : Offset) : Word := readPort s (portOf off)

/-- `INBUF[4q + r] <- v[8r+7:8r]` for the lane `r`, where that byte exists (20_memory R76). -/
def writeLane (q : Nat) (v : Word) (r : Nat) (s : State) : State :=
  if 4 * q + r < s.cfg.inCap then
    { s with inbuf := Cells.set s.inbuf (4 * q + r) (v.extractLsb' (8 * r) 8) }
  else s

/-- A host write of `v` at word `q` of the `INBUF` window (20_memory R76). -/
def writeInbuf (q : Nat) (v : Word) (s : State) : State :=
  writeLane q v 3 (writeLane q v 2 (writeLane q v 1 (writeLane q v 0 s)))

/-- `LC_BITSj <- v` (10_state R58). -/
def writeLcBits (j : Nat) (v : Word) (s : State) : State := { s with lcBits := s.lcBits.setIfInBounds j v }

/-- What a bus write does at each place of the register map but `CMD` (20_memory R72 to R74): it stores at an RW
register or in the `INBUF` window, and is ignored anywhere else. -/
def writePort (v : Word) (s : State) : Port → State
  | .ctrl => { s with errIe := v.getLsbD 0 }
  | .inLen => if v.toNat ≤ s.cfg.inCap then { s with inLen := v.toNat } else s
  | .symSel => { s with symSel := BitVec.ofNat 8 (v.toNat % 2 ^ s.cfg.symBits) }
  | .nodeSel => { s with nodeSel := v.setWidth 9 }
  | .wlSel => { s with wlSel := v.setWidth 9 }
  | .lcBits j => writeLcBits j v s
  | .inbufWord q => writeInbuf q v s
  | .id => s
  | .param => s
  | .status => s
  | .cmd => s
  | .err => s
  | .errInfo0 => s
  | .errInfo1 => s
  | .errCmd => s
  | .total => s
  | .leaves => s
  | .nodeCount => s
  | .wlLen => s
  | .root => s
  | .ctCount => s
  | .outLen => s
  | .bitcnt => s
  | .pkAcc => s
  | .decBits => s
  | .decPos => s
  | .decClen => s
  | .symoutLen => s
  | .freqVal => s
  | .ctLen => s
  | .nodeInfo => s
  | .nodeCnt => s
  | .nodeKids => s
  | .wlNode => s
  | .ctBits _ => s
  | .outCap => s
  | .inCap => s
  | .symoutCap => s
  | .outbufWord _ => s
  | .symoutWord _ => s
  | .reserved => s

/-- A bus write of `v` at an offset (20_memory R87): at `CMD` it executes the command `v` in the same transition
(10_state R29). -/
def busWrite (off : Offset) (v : Word) (s : State) : Host.Outcome State Fault Refusal :=
  if portOf off = .cmd then execute v s else .next (writePort v s (portOf off))

/-- A bus access inside the interface: 32 bits, at a multiple of 4 (20_memory R71). -/
def insideInterface (w : Width) (off : Offset) : Bool := w == .word && off.toNat % 4 == 0

/-- One action of the host (20_memory R87). `reply` is what the action returns. -/
def perform (a : HostAction) (s : State) : Host.Outcome State Fault Refusal :=
  match a with
  | .read w off =>
    if insideInterface w off then .next { s with reply := .word (busRead s off) } else .refused .outsideInterface
  | .write w off v =>
    if insideInterface w off then busWrite off v { s with reply := .silent } else .refused .outsideInterface
  | .reset => .next (resetBlock s)
  | .readIrq => .next { s with reply := .level s.errIrq }

/-- The offset of `CMD` (10_state R23). -/
def cmdOffset : Offset := 0x010#19

/-- The host's next action is to write a command word to `CMD`. -/
def issueCommand (w : Word) (s : State) : State := { s with host := .write .word cmdOffset w :: s.host }

/-- The host agent's next move (00_scope R7): its next action, or, when it has none, the block waits (20_memory R89). -/
def hostStep (s : State) : Host.Outcome State Fault Refusal :=
  match s.host with
  | [] => .next s
  | a :: rest => perform a { s with host := rest }

end Sys2Proof.Machine
end

