-- ==== Sys2Proof/Machine/Step.lean ====
section
/-! DEFINITION. One step of the machine: the host's next action, with the whole execution of the command it may deliver
(00_scope R6, R7). -/

namespace Sys2Proof.Machine

/-- One step. -/
def step (s : State) : Host.Outcome State Fault Refusal := hostStep s

/-- `s` with the command word `w` as the host's next `CMD` write, so that the next step executes it. A command is one
32-bit word (30_encoding R90). Log 2. -/
def State.withFetchWord (s : State) (nbits w : Nat) : State := issueCommand (BitVec.ofNat 32 (w % 2 ^ nbits)) s

end Sys2Proof.Machine
end

