-- ==== Sys2Proof/Safety.lean ====
section
/-! DEFINITION. What holds in every state between host actions that a run from reset reaches (10_state R67), part by
part, and what a safe step is. -/

namespace Sys2Proof.Machine

/-- No key of a memory is at or beyond a bound. -/
abbrev Cells.Below {α : Type} (m : Cells α) (n : Nat) : Prop := ∀ p ∈ m, p.1 < n

/-- Keyed data are in canonical form and inside their memories: the memories of 10_state R60, R61, R63, R64. -/
abbrev State.Canonical (s : State) : Prop :=
  (Cells.Rising s.freq ∧ Cells.Below s.freq s.cfg.nsym ∧ ∀ p ∈ s.freq, 1 ≤ p.2) ∧
  (Cells.Rising s.nodes ∧ Cells.Below s.nodes s.nodeCount) ∧
  (Cells.Rising s.ct ∧ Cells.Below s.ct s.cfg.nsym ∧ ∀ p ∈ s.ct, 1 ≤ p.2.length ∧ p.2.length ≤ Config.codeLenMax) ∧
  (Memory.wf s.outbuf ∧ Cells.Below s.outbuf s.cfg.outCap) ∧
  (Memory.wf s.inbuf ∧ Cells.Below s.inbuf s.cfg.inCap) ∧
  (Memory.wf s.symout ∧ Cells.Below s.symout s.cfg.symoutCap)

/-- The three byte memories are in canonical form and inside their buffers. -/
abbrev State.BuffersCanonical (s : State) : Prop :=
  (Memory.wf s.outbuf ∧ Cells.Below s.outbuf s.cfg.outCap) ∧
  (Memory.wf s.inbuf ∧ Cells.Below s.inbuf s.cfg.inCap) ∧
  (Memory.wf s.symout ∧ Cells.Below s.symout s.cfg.symoutCap)

/-- 10_state R67(a): `TOTAL` is the sum of the counts and at most `COUNT_MAX`; `LEAVES` is the number of symbols counted.
In a canonical table the listed symbols are exactly those with a count of at least 1. -/
abbrev State.CountsAdd (s : State) : Prop :=
  s.total = (s.freq.map Prod.snd).sum ∧ s.total ≤ s.cfg.countMax ∧ s.leaves = s.freq.length

/-- `key(i) < key(j)` (00_scope R14). -/
abbrev State.keyBefore (s : State) (i j : Nat) : Prop :=
  s.countAt i < s.countAt j ∨ (s.countAt i = s.countAt j ∧ i < j)

/-- A node is present, its children come before it, and an internal node's count is the sum of its children's
(10_state R61, R67(c)). -/
def State.soundNode (s : State) (i : Nat) : Bool :=
  match s.nodeAt i with
  | none => false
  | some (.leaf _ _) => true
  | some (.internal c l r) => decide (l < i) && decide (r < i) && decide (c = s.countAt l + s.countAt r)

/-- The children of a node: two of an internal node, none of a leaf (00_scope R18). -/
def State.childrenAt (s : State) (i : Nat) : List Nat :=
  match s.nodeAt i with
  | some (.internal _ l r) => [l, r]
  | some (.leaf _ _) => []
  | none => []

/-- Every child in the node store, parent by parent. -/
def State.childList (s : State) : List Nat := (List.range s.nodeCount).flatMap s.childrenAt

/-- The symbols of the leaves below a node, left to right. -/
def State.leafSymbols (s : State) (i : Nat) : List Nat :=
  ((walk s s.nodeCount i []).getD []).map Prod.fst

/-- 10_state R67(b), (c), (d), R61 and R62: the node store and the working list. Every node is on the working list or
the child of exactly one internal node, never both ("no shared subtrees", 00_scope R18); and, the one fact more that
makes all of it inductive, the leaves below the working list are the counted symbols, each once. -/
abbrev State.TreeSound (s : State) : Prop :=
  s.wlLen = s.wl.length ∧
  (s.tbState = .idle ↔ s.nodeCount = 0) ∧
  (s.nodeCount = 0 → s.wl = []) ∧
  (s.tbState = .done ↔ s.tbState ≠ .idle ∧ s.wlLen = 1) ∧
  (∀ i < s.nodeCount, s.soundNode i = true) ∧
  (s.childList ++ s.wl).Perm (List.range s.nodeCount) ∧
  s.wl.Pairwise s.keyBefore ∧
  (s.tbState ≠ .idle →
    1 ≤ s.wlLen ∧ s.nodeCount + s.wlLen = 2 * s.leaves ∧ (s.wl.map s.countAt).sum = s.total ∧
    (s.wl.flatMap s.leafSymbols).Perm (s.freq.map Prod.fst))

/-- No listed code is a prefix of another (41_code_table R135). -/
abbrev State.PrefixFree (s : State) : Prop :=
  s.ct.Pairwise (fun p q => ¬ p.2 <+: q.2 ∧ ¬ q.2 <+: p.2)

/-- 10_state R67(e): `CT_COUNT` is the number of symbols with a code, and the codes are prefix-free. -/
abbrev State.TableSound (s : State) : Prop :=
  s.ctCount = s.ct.length ∧ s.PrefixFree ∧ (s.ctState = .empty ↔ s.ct = [])

/-- 10_state R67(f): the packer, by phase; and there is room for the final byte (42_encode_pack R151). -/
abbrev State.PackerSound (s : State) : Prop :=
  1 + (s.bitcnt + 7) / 8 ≤ s.cfg.outCap ∧
  (s.pkState = .opened → s.accN = s.bitcnt % 8 ∧ s.acc < 2 ^ s.accN ∧ s.outLen = 1 + s.bitcnt / 8) ∧
  (s.pkState = .flushed → s.accN = 0 ∧ s.acc = 0 ∧ s.outLen = 1 + (s.bitcnt + 7) / 8 ∧
    (s.stored .outbuf 0).toNat = padding s.bitcnt)

/-- 10_state R67(g) and R65, with what keeps the decoder inside `INBUF` (20_memory R78, 43_unpack_decode R171). -/
abbrev State.DecoderSound (s : State) : Prop :=
  s.chunk.length = s.decClen ∧ s.decClen ≤ Config.codeLenMax ∧ s.decClen ≤ s.decPos ∧ s.decPos ≤ s.decBits ∧
  s.symoutLen ≤ s.cfg.symoutCap ∧ s.inLen ≤ s.cfg.inCap ∧ s.decBits ≤ 8 * (s.cfg.inCap - 1)

/-- 10_state R67, every part; (h) is how `STATUS` computes `ERRF`. -/
structure State.Sound (s : State) : Prop where
  legal : s.cfg.Legal
  canonical : s.Canonical
  counts : s.CountsAdd
  tree : s.TreeSound
  table : s.TableSound
  packer : s.PackerSound
  decoder : s.DecoderSound

/-- A step is safe when it does not stop with a fault. -/
def SafeStep (s : State) : Prop := ∀ f, step s ≠ .fault f

end Sys2Proof.Machine
end

