-- ==== Sys2Proof/Certificates/Slice0/Obligations.lean ====
section
/-! DEFINITION. The statements for the provers, from the numbered rules of spec/, and the few words they are said in. -/

open Sys2Proof Sys2Proof.Machine

/-! Words the statements use. -/

namespace Sys2Proof.Claims

/-- `t` is `s` with an error recorded by the command `i` and nothing else changed (60_exceptions R205, R207). -/
def Records (i : Instr) (stage : Stage) (code : ErrCode) (sub info0 info1 : Nat) (s t : State) : Prop :=
  t = { s with err :=
    { code := code, sub := BitVec.ofNat 4 sub, stage := stage, opc := i.opcode.toBits
      info0 := BitVec.ofNat 32 info0, info1 := BitVec.ofNat 32 info1, cmd := encode i } }

/-- Nothing but the frequency counter differs. -/
def OnlyCounts (s t : State) : Prop := t = { s with freq := t.freq, total := t.total, leaves := t.leaves }

/-- Nothing but the node store, the working list and `TB_STATE` differs. -/
def OnlyTree (s t : State) : Prop :=
  t = { s with nodes := t.nodes, nodeCount := t.nodeCount, wl := t.wl, wlLen := t.wlLen, tbState := t.tbState }

/-- Nothing but the code table and `CT_STATE` differs. -/
def OnlyTable (s t : State) : Prop := t = { s with ct := t.ct, ctCount := t.ctCount, ctState := t.ctState }

/-- Nothing but the packer differs, `PK_STATE` included. -/
def OnlyPacker (s t : State) : Prop :=
  t = { s with outbuf := t.outbuf, outLen := t.outLen, bitcnt := t.bitcnt, acc := t.acc, accN := t.accN
               pkState := t.pkState }

/-- Nothing but `SYMOUT`, the decoder's progress and `UP_STATE` differs. -/
def OnlyDecoder (s t : State) : Prop :=
  t = { s with decPos := t.decPos, decClen := t.decClen, chunk := t.chunk, symout := t.symout
               symoutLen := t.symoutLen, upState := t.upState }

/-- The match and mask table of 30_encoding R98, with the operand conditions on the word's number. -/
def table : List (Word × Word × (Config → Nat → Bool)) :=
  let free : Config → Nat → Bool := fun _ _ => true
  let symbol : Config → Nat → Bool := fun c n => decide (n % 2 ^ 16 < c.nsym)
  let raw : Config → Nat → Bool :=
    fun _ n => decide (n / 2 ^ 16 % 2 ^ 5 ≤ 16) && decide (n % 2 ^ 16 < 2 ^ (n / 2 ^ 16 % 2 ^ 5))
  [(0x00000000#32, 0xFFFFFFFF#32, free), (0x01000000#32, 0xFFFFFFE0#32, free), (0x10000000#32, 0xFFFF0000#32, symbol),
   (0x20000000#32, 0xFFFFFFFF#32, free), (0x21000000#32, 0xFFFFFFFF#32, free), (0x22000000#32, 0xFFFFFFFF#32, free),
   (0x30000000#32, 0xFFFFFFFF#32, free), (0x31000000#32, 0xFF000000#32, symbol), (0x40000000#32, 0xFFFF0000#32, symbol),
   (0x41000000#32, 0xFFE00000#32, raw), (0x42000000#32, 0xFFFFFFFF#32, free), (0x43000000#32, 0xFFFFFFFF#32, free),
   (0x50000000#32, 0xFFFFFFFF#32, free), (0x51000000#32, 0xFFFFFFFF#32, free)]

/-- The reserved part of a word's number, by its opcode's format (30_encoding R92 to R96). -/
def reservedPart (opc n : Nat) : Nat :=
  if opc = 0x01 then n / 2 ^ 5 % 2 ^ 19
  else if opc = 0x10 ∨ opc = 0x40 then n / 2 ^ 16 % 2 ^ 8
  else if opc = 0x31 then 0
  else if opc = 0x41 then n / 2 ^ 21 % 2 ^ 3
  else n % 2 ^ 24

/-- `Legal(w)` (30_encoding R99) on the word's number: the first failing subcode, or 0 for `ok`. -/
def legality (c : Config) (n : Nat) : Nat :=
  let opc := n / 2 ^ 24
  if opc ∉ [0x00, 0x01, 0x10, 0x20, 0x21, 0x22, 0x30, 0x31, 0x40, 0x41, 0x42, 0x43, 0x50, 0x51] then 1
  else if reservedPart opc n ≠ 0 then 2
  else if opc ∈ [0x10, 0x31, 0x40] ∧ c.nsym ≤ n % 2 ^ 16 then 3
  else if opc = 0x41 ∧ 16 < n / 2 ^ 16 % 2 ^ 5 then 4
  else if opc = 0x41 ∧ 2 ^ (n / 2 ^ 16 % 2 ^ 5) ≤ n % 2 ^ 16 then 5
  else 0

/-- The bits of a stream byte, most significant first (20_memory R79). -/
def byteBits (b : Byte) : Bits := (List.range 8).map (fun t => b.getLsbD (7 - t))

/-- The bits of the `n` payload bytes of `OUTBUF`, first to last (20_memory R79, R80). -/
def streamBits (s : State) (n : Nat) : Bits := (List.range n).flatMap (fun i => byteBits (s.stored .outbuf (1 + i)))

/-- The bits packed so far: the completed payload bytes, then the pending ones (10_state R40, R42). -/
def packed (s : State) : Bits :=
  streamBits s (s.outLen - 1) ++ (List.range s.accN).map (fun t => s.acc.testBit (s.accN - 1 - t))

/-- Payload bit `p` of `INBUF` (20_memory R80). -/
def payload (s : State) (p : Nat) : Bool := (s.stored .inbuf (1 + p / 8)).getLsbD (7 - p % 8)

/-- The payload bits `DECODE` has yet to consume, `DEC_POS` to `DEC_BITS - 1`, are `bits` (20_memory R80). -/
abbrev Ahead (s : State) (bits : Bits) : Prop :=
  bits.length = s.decBits - s.decPos ∧ ∀ p, p < bits.length → some (payload s (s.decPos + p)) = bits[p]?

/-- The chunk in progress and the payload ahead are the codes of `syms`, then `tail`; the chunk ends inside the first code,
or, with no such code, inside `tail`. With an empty chunk it is a fresh `DECODE`, else one resumed after a raise. -/
def Parses (s : State) (bits : Bits) (syms : List Nat) (tail : Bits) : Prop :=
  Ahead s bits ∧ s.chunk ++ bits = syms.flatMap s.codeOf ++ tail ∧ (∀ x ∈ syms, s.codeOf x ≠ []) ∧
  ∀ x, syms.head? = some x → s.decClen < (s.codeOf x).length

/-- No bit of `tail` that `DECODE` has yet to take completes a code: a code that begins `tail` ends inside the chunk a raise
left, where it was matched already. -/
def NoMatchIn (s : State) (syms : List Nat) (tail : Bits) : Prop :=
  ∀ x, s.codeOf x ≠ [] → s.codeOf x <+: tail → syms = [] ∧ (s.codeOf x).length ≤ s.decClen

/-- `u` has emitted `syms` after what `s` had emitted: nothing else of `SYMOUT` differs (43_unpack_decode R173). -/
def Emits (s u : State) (syms : List Nat) : Prop :=
  u.symoutLen = s.symoutLen + syms.length ∧
  (∀ j x, syms[j]? = some x → u.stored .symout (s.symoutLen + j) = BitVec.ofNat 8 x) ∧
  (∀ j, j < s.symoutLen ∨ s.symoutLen + syms.length ≤ j → u.stored .symout j = s.stored .symout j)

/-- Going down the tree from a node: bit 1 to the left child, bit 0 to the right (41_code_table R130). -/
def descend (s : State) : Nat → Bits → Option Node
  | i, [] => s.nodeAt i
  | i, b :: x =>
    match s.nodeAt i with
    | some (.internal _ l r) => descend s (if b then l else r) x
    | some (.leaf _ _) => none
    | none => none

/-- A sequence of commands, each executed in turn. -/
def run : List Instr → State → Host.Outcome State Fault Refusal
  | [], s => .next s
  | i :: is, s =>
    match exec i s with
    | .next t => run is t
    | .fault f => .fault f
    | .refused r => .refused r

end Sys2Proof.Claims

open Sys2Proof.Claims

/-! Encoding. -/

/-- 30_encoding R98, R101: the assembler's words, and 95_test_vectors L2.1's illegal ones. -/
def Obligations.WordsOfTheSpecDecode : Prop :=
  decode Config.default 0x00000000#32 = .ok .nop ∧
  decode Config.default 0x0100001F#32 = .ok (.clear 0x1F#5) ∧
  decode Config.default 0x10000061#32 = .ok (.count 0x61#16) ∧
  decode Config.default 0x20000000#32 = .ok .tbinit ∧
  decode Config.default 0x31020063#32 = .ok (.loadcode 2#8 0x63#16) ∧
  decode Config.default 0x4000007A#32 = .ok (.enc 0x7A#16) ∧
  decode Config.default 0x410901C1#32 = .ok (.putbits 9#5 0x1C1#16) ∧
  decode Config.default 0x51000000#32 = .ok .decode ∧
  decode Config.default 0xFF000000#32 = .error .reservedOpcode ∧
  decode Config.default 0x01000020#32 = .error .reservedBits ∧
  decode Config.default 0x10000100#32 = .error .symbolRange ∧
  decode Config.default 0x41110000#32 = .error .bitCount ∧
  decode Config.default 0x41020004#32 = .error .strayBits

/-- 30_encoding R97, R98: no bit of an operand is dropped. -/
def Obligations.EncodeThenDecodeIsIdentity : Prop :=
  ∀ (c : Config) (i : Instr), WellFormed c i → decode c (encode i) = .ok i

/-- 30_encoding R100: a legal word is exactly one command's. -/
def Obligations.DecodeThenEncodeIsIdentity : Prop :=
  ∀ (c : Config) (w : Word) (i : Instr), decode c w = .ok i → encode i = w ∧ WellFormed c i

/-- 30_encoding R98: a word is a command iff it meets a row's match, mask and operand conditions. -/
def Obligations.LegalWordsAreTheTableRows : Prop :=
  ∀ (c : Config) (w : Word),
    (∃ i, decode c w = .ok i) ↔ ∃ row ∈ table, w &&& row.2.1 = row.1 ∧ row.2.2 c w.toNat = true

/-- 30_encoding R99: the first failing check decides the subcode. -/
def Obligations.FirstFailingCheckDecidesSubcode : Prop :=
  ∀ (c : Config) (w : Word),
    (∃ i, decode c w = .ok i ∧ legality c w.toNat = 0) ∨
    (∃ e, decode c w = .error e ∧ e.subcode = legality c w.toNat)

/-! The step. -/

/-- 44_control R190: a `CMD` write executes the command, with the host's action taken and answered by nothing. -/
def Obligations.StepExecutesDecodedCommand : Prop :=
  ∀ (s : State) (rest : List HostAction) (w : Word) (i : Instr),
    s.host = .write .word cmdOffset w :: rest → decode s.cfg w = .ok i →
    (s.err.code = .none ∨ ∃ m, i = .clear m) →
    step s = exec i { s with host := rest, reply := .silent }

/-- 60_exceptions R206: an ignored command changes no state of the block at all. -/
def Obligations.IgnoredCommandChangesNothing : Prop :=
  ∀ (s : State) (rest : List HostAction) (w : Word),
    s.host = .write .word cmdOffset w :: rest → s.err.code ≠ .none → (∀ m, decode s.cfg w ≠ .ok (.clear m)) →
    step s = .next { s with host := rest, reply := .silent }

/-- 30_encoding R99, 60_exceptions R204: an illegal word raises `IllegalCommand` and changes no other state. -/
def Obligations.IllegalWordRaisesIllegalCommand : Prop :=
  ∀ (s : State) (rest : List HostAction) (w : Word),
    s.host = .write .word cmdOffset w :: rest → s.err.code = .none → legality s.cfg w.toNat ≠ 0 →
    step s = .next { s with
      host := rest, reply := .silent
      err := { code := .illegalCommand, sub := BitVec.ofNat 4 (legality s.cfg w.toNat), stage := .interface
               opc := BitVec.ofNat 8 (w.toNat / 2 ^ 24), info0 := w, info1 := 0#32, cmd := w } }

/-- 60_exceptions R212, R213 (R213 is the spec's own inference, 'derived: from rules R192, R206'): a recorded error stays
until reset or a `CLEAR` with mask bit 4, and no second is recorded. -/
def Obligations.ErrorsNeverNest : Prop :=
  ∀ s t : State, s.err.code ≠ .none → step s = .next t →
    t.err = s.err ∨
    (t.err = ErrRecord.clear ∧
      ((∃ rest, s.host = .reset :: rest) ∨
       ∃ rest w m, s.host = .write .word cmdOffset w :: rest ∧ decode s.cfg w = .ok (.clear m) ∧ m.getLsbD 4 = true))

/-- 60_exceptions R207: when a command but `DECODE` raises, nothing but the error registers changes. -/
def Obligations.CommandsButDecodeArePrecise : Prop :=
  ∀ (i : Instr) (s t : State), i ≠ .decode → s.err.code = .none → exec i s = .next t → t.err.code ≠ .none →
    t = { s with err := t.err } ∧ t.err.cmd = encode i ∧ t.err.opc = i.opcode.toBits

/-- 60_exceptions R203, R204: the stage recorded is the stage of the command's opcode; `NOP` and `CLEAR` raise nothing. -/
def Obligations.RaisedStageIsTheOpcodesStage : Prop :=
  ∀ (i : Instr) (s t : State), s.err.code = .none → exec i s = .next t → t.err.code ≠ .none →
    match i with
    | .count _ => t.err.stage.toBits = 1#3
    | .tbinit => t.err.stage.toBits = 2#3
    | .merge => t.err.stage.toBits = 2#3
    | .build => t.err.stage.toBits = 2#3
    | .assign => t.err.stage.toBits = 3#3
    | .loadcode _ _ => t.err.stage.toBits = 3#3
    | .enc _ => t.err.stage.toBits = 4#3
    | .decode => t.err.stage.toBits = 5#3
    | .putbits _ _ => t.err.stage.toBits = 6#3
    | .flush => t.err.stage.toBits = 6#3
    | .xfer => t.err.stage.toBits = 6#3
    | .unpack => t.err.stage.toBits = 6#3
    | .nop => False
    | .clear _ => False

/-- 10_state R21, R48, R58: no command touches `CTRL`, the select registers, `LC_BITS0..7` or the parameters. -/
def Obligations.CommandsKeepHostRegisters : Prop :=
  ∀ (i : Instr) (s t : State), exec i s = .next t →
    t.cfg = s.cfg ∧ t.errIe = s.errIe ∧ t.symSel = s.symSel ∧ t.nodeSel = s.nodeSel ∧ t.wlSel = s.wlSel ∧
    t.lcBits = s.lcBits ∧ t.host = s.host ∧ t.reply = s.reply ∧ t.draws = s.draws

/-- 10_state R66: every transition of the phase variables by a command that raises nothing, and no other. -/
def Obligations.PhasesFollowTheTransitionTable : Prop :=
  ∀ (i : Instr) (s t : State), s.err.code = .none → exec i s = .next t → t.err.code = .none →
    (t.tbState = match i with
      | .tbinit => if s.leaves = 1 then .done else .loaded
      | .merge => if s.wlLen = 2 then .done else .loaded
      | .build => .done
      | .clear m => if m.getLsbD 0 then .idle else s.tbState
      | _ => s.tbState) ∧
    (t.ctState = match i with
      | .assign => .tree
      | .loadcode _ _ => .loaded
      | .clear m => if m.getLsbD 1 then .empty else s.ctState
      | _ => s.ctState) ∧
    (t.pkState = match i with
      | .flush => .flushed
      | .clear m => if m.getLsbD 2 then .opened else s.pkState
      | _ => s.pkState) ∧
    (t.upState = match i with
      | .unpack => .ready
      | .decode => .done
      | .xfer => .idle
      | .clear m => if m.getLsbD 3 then .idle else s.upState
      | _ => s.upState)

/-- 10_state R66, 60_exceptions R202: a command in a phase its rule does not allow raises `SequenceError`, with `STATUS`
as it was before the command. -/
def Obligations.WrongPhaseRaisesSequenceError : Prop :=
  ∀ (i : Instr) (s : State),
    (match i with
      | .count _ => s.tbState ≠ .idle
      | .tbinit => s.tbState ≠ .idle
      | .merge => s.tbState ≠ .loaded
      | .build => s.tbState = .done
      | .assign => s.tbState ≠ .done ∨ s.ctState ≠ .empty
      | .loadcode _ _ => s.ctState = .tree
      | .enc _ => s.ctState = .empty ∨ s.pkState = .flushed
      | .putbits _ _ => s.pkState = .flushed
      | .flush => s.pkState = .flushed
      | .xfer => s.pkState = .opened
      | .decode => s.upState ≠ .ready ∨ s.ctState = .empty
      | .nop => False
      | .clear _ => False
      | .unpack => False) →
    ∃ t, exec i s = .next t ∧ Records i (stageOf i.opcode) .sequenceError 0 (busRead s 0x00C#19).toNat 0 s t

/-! The host's actions. -/

/-- 20_memory R89: the block never halts; with no action to serve it waits, unchanged. That a wait is a step is the
model's choice (log 2). -/
def Obligations.BlockWaitsForTheHost : Prop := ∀ s : State, s.host = [] → step s = .next s

/-- 20_memory R72, R87, 10_state R24, 60_exceptions R210: a bus read, and a read of `err_irq`, have no side effect on any
state of the block; the level read is `CTRL.ERR_IE AND ERR.CODE != 0`. -/
def Obligations.ReadsHaveNoSideEffect : Prop :=
  ∀ (s : State) (rest : List HostAction),
    (∀ off : Offset, s.host = .read .word off :: rest → off.toNat % 4 = 0 →
      step s = .next { s with host := rest, reply := .word (busRead s off) }) ∧
    (s.host = .readIrq :: rest →
      step s = .next { s with host := rest, reply := .level (s.errIe && decide (s.err.code ≠ .none)) })

/-- 20_memory R71: an access that is not 32 bits wide, or not at a multiple of 4, is refused. -/
def Obligations.AccessOutsideInterfaceIsRefused : Prop :=
  ∀ (s : State) (rest : List HostAction) (width : Width) (off : Offset),
    (width ≠ .word ∨ off.toNat % 4 ≠ 0) →
    (s.host = .read width off :: rest ∨ ∃ v, s.host = .write width off v :: rest) →
    step s = .refused .outsideInterface

/-- 20_memory R74, R72: a write anywhere but an RW register, `CMD` or the `INBUF` window is ignored; `CMD` reads 0. -/
def Obligations.WritesElsewhereAreIgnored : Prop :=
  ∀ s : State, busRead s 0x010#19 = 0#32 ∧ ∀ (rest : List HostAction) (off : Offset) (v : Word),
    s.host = .write .word off v :: rest → off.toNat % 4 = 0 →
    off.toNat ∉ [0x008, 0x010, 0x048, 0x05C, 0x068, 0x078] →
    ¬ (0x0A0 ≤ off.toNat ∧ off.toNat < 0x0C0) →
    ¬ (0x20000 ≤ off.toNat ∧ off.toNat < 0x20000 + s.cfg.inCap ∧ off.toNat < 0x30000) →
    step s = .next { s with host := rest, reply := .silent }

/-- 20_memory R73: reserved offsets, and offsets in a window beyond its buffer's capacity, read 0 and ignore writes. -/
def Obligations.ReservedOffsetsReadZeroAndIgnoreWrites : Prop :=
  ∀ (s : State) (off : Offset), off.toNat % 4 = 0 →
    ((0x0CC ≤ off.toNat ∧ off.toNat < 0x10000) ∨ (0x30000 ≤ off.toNat ∧ off.toNat < 0x40000) ∨
      (0x10000 + s.cfg.outCap ≤ off.toNat ∧ off.toNat < 0x20000) ∨
      (0x20000 + s.cfg.inCap ≤ off.toNat ∧ off.toNat < 0x30000) ∨
      0x40000 + 4 * s.cfg.symoutCap ≤ off.toNat) →
    busRead s off = 0#32 ∧
    ∀ rest v, s.host = .write .word off v :: rest → step s = .next { s with host := rest, reply := .silent }

/-- 10_state R24, R27, R43, R48, R52, R56: what a write to each RW register stores, that it changes nothing else, and what
the register then reads; and what each of the five reads in any state, `SYM_SEL`'s bits above `SYM_BITS-1` as 0. -/
def Obligations.RegisterWritesStoreTheirFields : Prop :=
  ∀ s : State, s.cfg.Legal →
    (busRead s 0x008#19).toNat = (if s.errIe then 1 else 0) ∧
    (s.inLen ≤ s.cfg.inCap → (busRead s 0x048#19).toNat = s.inLen) ∧
    (busRead s 0x05C#19).toNat = s.symSel.toNat % s.cfg.nsym ∧
    (busRead s 0x068#19).toNat = s.nodeSel.toNat ∧ (busRead s 0x078#19).toNat = s.wlSel.toNat ∧
    ∀ (rest : List HostAction) (v : Word),
      (s.host = .write .word 0x008#19 v :: rest →
        ∃ t, step s = .next t ∧ t = { s with host := rest, reply := .silent, errIe := v.toNat % 2 = 1 } ∧
          (busRead t 0x008#19).toNat = v.toNat % 2) ∧
      (s.host = .write .word 0x048#19 v :: rest →
        ∃ t, step s = .next t ∧
          t = { s with host := rest, reply := .silent, inLen := if v.toNat ≤ s.cfg.inCap then v.toNat else s.inLen } ∧
          (busRead t 0x048#19).toNat = if v.toNat ≤ s.cfg.inCap then v.toNat else (busRead s 0x048#19).toNat) ∧
      (s.host = .write .word 0x05C#19 v :: rest →
        ∃ t, step s = .next t ∧
          t = { s with host := rest, reply := .silent, symSel := BitVec.ofNat 8 (v.toNat % s.cfg.nsym) } ∧
          (busRead t 0x05C#19).toNat = v.toNat % s.cfg.nsym) ∧
      (s.host = .write .word 0x068#19 v :: rest →
        ∃ t, step s = .next t ∧ t = { s with host := rest, reply := .silent, nodeSel := BitVec.ofNat 9 v.toNat } ∧
          (busRead t 0x068#19).toNat = v.toNat % 2 ^ 9) ∧
      (s.host = .write .word 0x078#19 v :: rest →
        ∃ t, step s = .next t ∧ t = { s with host := rest, reply := .silent, wlSel := BitVec.ofNat 9 v.toNat } ∧
          (busRead t 0x078#19).toNat = v.toNat % 2 ^ 9)

/-- 10_state R58: a write to `LC_BITSj` is read back, leaves the other seven and every other state as they were, and
`W` is the sum of the eight weighted by `2^(32j)`. -/
def Obligations.StagingRegistersFormTheStagedValue : Prop :=
  ∀ (s : State) (rest : List HostAction) (j : Fin 8) (v : Word),
    s.host = .write .word (BitVec.ofNat 19 (0x0A0 + 4 * j.val)) v :: rest →
    ∃ t, step s = .next t ∧ t = { s with host := rest, reply := .silent, lcBits := t.lcBits } ∧
      (∀ k : Fin 8, busRead t (BitVec.ofNat 19 (0x0A0 + 4 * k.val)) =
        if k = j then v else busRead s (BitVec.ofNat 19 (0x0A0 + 4 * k.val))) ∧
      t.staged = ((List.range 8).map
        (fun k => (busRead t (BitVec.ofNat 19 (0x0A0 + 4 * k))).toNat * 2 ^ (32 * k))).sum

/-- 20_memory R76: a host write in the `INBUF` window sets the lanes below `IN_CAP`, little-endian, and no other byte. -/
def Obligations.InbufWriteSetsItsLanes : Prop :=
  ∀ (s : State) (rest : List HostAction) (q : Nat) (v : Word),
    q < 0x4000 → s.host = .write .word (BitVec.ofNat 19 (0x20000 + 4 * q)) v :: rest →
    ∃ t, step s = .next t ∧ t = { s with host := rest, reply := .silent, inbuf := t.inbuf } ∧
      ∀ i, t.stored .inbuf i =
        if 4 * q ≤ i ∧ i < 4 * q + 4 ∧ i < s.cfg.inCap then BitVec.ofNat 8 (v.toNat / 2 ^ (8 * (i - 4 * q)))
        else s.stored .inbuf i

/-- 20_memory R75, R76: a window word holds bytes `4q .. 4q+3`, byte `4q + r` in bits `8r+7 : 8r`; an `OUTBUF` byte at
or beyond `OUT_LEN`, and any byte beyond its buffer, reads 0. -/
def Obligations.WindowsAreLittleEndianLanes : Prop :=
  ∀ (s : State) (q r : Nat), q < 0x4000 → r < 4 →
    (busRead s (BitVec.ofNat 19 (0x10000 + 4 * q))).extractLsb' (8 * r) 8 =
      (if 4 * q + r < s.outLen ∧ 4 * q + r < s.cfg.outCap then s.stored .outbuf (4 * q + r) else 0#8) ∧
    (busRead s (BitVec.ofNat 19 (0x20000 + 4 * q))).extractLsb' (8 * r) 8 =
      (if 4 * q + r < s.cfg.inCap then s.stored .inbuf (4 * q + r) else 0#8)

/-- 20_memory R77: the `SYMOUT` window shows one symbol a word, 0 at or beyond `SYMOUT_LEN`. -/
def Obligations.SymoutWindowShowsOneSymbolAWord : Prop :=
  ∀ (s : State) (j : Nat), s.symoutLen ≤ s.cfg.symoutCap → j < 0x10000 →
    (busRead s (BitVec.ofNat 19 (0x40000 + 4 * j))).toNat =
      if j < s.symoutLen then (s.stored .symout j).toNat else 0

/-- 93_implementation_defined U13, 20_memory R75, R77: what `OUTBUF` holds at or beyond `OUT_LEN`, and `SYMOUT` at or beyond `SYMOUT_LEN`, is
never observable on the bus. -/
def Obligations.StaleBufferBytesAreInvisible : Prop :=
  ∀ (s : State) (out sym : Memory) (off : Offset),
    (∀ i, i < s.outLen → Cells.get out i = Cells.get s.outbuf i) →
    (∀ j, j < s.symoutLen → Cells.get sym j = Cells.get s.symout j) →
    busRead { s with outbuf := out, symout := sym } off = busRead s off

/-- 10_state R25, R26, R59: the constant registers, under every legal configuration. -/
def Obligations.ConstantRegistersShowTheConfiguration : Prop :=
  ∀ s : State, s.cfg.Legal →
    busRead s 0x000#19 = 0x48434501#32 ∧
    (busRead s 0x004#19).toNat = s.cfg.symBits + 2 ^ 4 * s.cfg.countBits + 2 ^ 10 * 255 ∧
    (busRead s 0x0C0#19).toNat = s.cfg.outCap ∧ (busRead s 0x0C4#19).toNat = s.cfg.inCap ∧
    (busRead s 0x0C8#19).toNat = s.cfg.symoutCap

/-- 10_state R28: the fields of `STATUS`, with the numbers of the phases (3 is none of them); `BUSY` is never seen set; its
reset value. -/
def Obligations.StatusShowsPhasesAndError : Prop :=
  busRead State.reset 0x00C#19 = 0#32 ∧ ∀ s : State,
    (busRead s 0x00C#19).extractLsb' 0 2 = (match s.tbState with | .idle => 0#2 | .loaded => 1#2 | .done => 2#2) ∧
    (busRead s 0x00C#19).extractLsb' 2 2 = (match s.ctState with | .empty => 0#2 | .tree => 1#2 | .loaded => 2#2) ∧
    (busRead s 0x00C#19).extractLsb' 4 1 = (match s.pkState with | .opened => 0#1 | .flushed => 1#1) ∧
    (busRead s 0x00C#19).extractLsb' 5 2 = (match s.upState with | .idle => 0#2 | .ready => 1#2 | .done => 2#2) ∧
    (busRead s 0x00C#19).getLsbD 7 = decide (s.err.code ≠ .none) ∧
    (busRead s 0x00C#19).getLsbD 8 = (s.errIe && decide (s.err.code ≠ .none)) ∧
    (busRead s 0x00C#19).extractLsb' 9 23 = 0#23

/-- 10_state R30 to R33: the fields of the error registers, with the numbers of the codes (60_exceptions R201) and of the
stages (60_exceptions R203). -/
def Obligations.ErrorRegistersShowTheRecord : Prop :=
  ∀ s : State,
    (busRead s 0x014#19).extractLsb' 0 4 = (match s.err.code with
      | .none => 0#4
      | .emptyAlphabet => 1#4
      | .unknownSymbol => 2#4
      | .truncatedOrCorruptStream => 3#4
      | .malformedCodeTable => 4#4
      | .illegalCommand => 5#4
      | .sequenceError => 6#4
      | .countOverflow => 7#4
      | .bufferOverflow => 8#4) ∧
    (busRead s 0x014#19).extractLsb' 4 4 = s.err.sub ∧
    (busRead s 0x014#19).extractLsb' 8 3 = (match s.err.stage with
      | .none => 0#3
      | .counting => 1#3
      | .building => 2#3
      | .assigning => 3#3
      | .encoding => 4#3
      | .decoding => 5#3
      | .packing => 6#3
      | .interface => 7#3) ∧
    (busRead s 0x014#19).extractLsb' 11 5 = 0#5 ∧
    (busRead s 0x014#19).extractLsb' 16 8 = s.err.opc ∧
    (busRead s 0x014#19).extractLsb' 24 8 = 0#8 ∧
    busRead s 0x018#19 = s.err.info0 ∧ busRead s 0x01C#19 = s.err.info1 ∧ busRead s 0x020#19 = s.err.cmd

/-- 10_state R49, R50, R51: the windows of the selected symbol, `SYM_SEL[SYM_BITS-1:0]` (R48): its count, and the
host's symbol-to-code lookup port. -/
def Obligations.LookupPortShowsCountLengthAndBits : Prop :=
  ∀ (s : State) (x : Nat), s.Sound → x = s.symSel.toNat % s.cfg.nsym →
    (busRead s 0x060#19).toNat = s.freqOf x ∧ (busRead s 0x064#19).toNat = (s.codeOf x).length ∧
    ((List.range 8).map (fun j => (busRead s (BitVec.ofNat 19 (0x080 + 4 * j))).toNat * 2 ^ (32 * j))).sum =
      val (s.codeOf x)

/-- 10_state R53 to R55, R57: the node windows and the working-list window, in a sound state. -/
def Obligations.InspectionWindowsShowTheTree : Prop :=
  ∀ s : State, s.Sound →
    (s.nodeCount ≤ s.nodeSel.toNat →
      busRead s 0x06C#19 = 0#32 ∧ busRead s 0x070#19 = 0#32 ∧ busRead s 0x074#19 = 0#32) ∧
    (∀ c sym, s.nodeAt s.nodeSel.toNat = some (.leaf c sym) →
      (busRead s 0x06C#19).toNat = 1 + 2 ^ 8 * sym ∧ (busRead s 0x070#19).toNat = c ∧ busRead s 0x074#19 = 0#32) ∧
    (∀ c l r, s.nodeAt s.nodeSel.toNat = some (.internal c l r) →
      (busRead s 0x06C#19).toNat = 3 ∧ (busRead s 0x070#19).toNat = c ∧
      (busRead s 0x074#19).toNat = l + 2 ^ 16 * r) ∧
    (s.nodeSel.toNat < s.nodeCount → s.nodeAt s.nodeSel.toNat ≠ none) ∧
    (∀ n, s.wl[s.wlSel.toNat]? = some n → (busRead s 0x07C#19).toNat = 2 ^ 31 + n) ∧
    (s.wlLen ≤ s.wlSel.toNat → busRead s 0x07C#19 = 0#32)

/-- 10_state R34 to R47: in a sound state every counter register shows its number whole, its other bits 0. -/
def Obligations.CountersAreShownWhole : Prop :=
  ∀ s : State, s.Sound →
    (busRead s 0x024#19).toNat = s.total ∧ (busRead s 0x028#19).toNat = s.leaves ∧
    (busRead s 0x02C#19).toNat = s.nodeCount ∧ (busRead s 0x030#19).toNat = s.wl.length ∧
    (busRead s 0x038#19).toNat = s.ctCount ∧ (busRead s 0x03C#19).toNat = s.outLen ∧
    (busRead s 0x040#19).toNat = s.bitcnt ∧ (busRead s 0x044#19).toNat = 2 ^ 8 * s.accN + s.acc ∧
    (busRead s 0x048#19).toNat = s.inLen ∧ (busRead s 0x04C#19).toNat = s.decBits ∧
    (busRead s 0x050#19).toNat = s.decPos ∧ (busRead s 0x058#19).toNat = s.symoutLen ∧
    (busRead s 0x054#19).toNat = s.decClen ∧ s.decClen ≤ 255 ∧
    (s.tbState = .done → ∃ r, s.wl = [r] ∧ (busRead s 0x034#19).toNat = 2 ^ 31 + r) ∧
    (s.tbState ≠ .done → busRead s 0x034#19 = 0#32)

/-! Reset. -/

/-- 70_reset_and_hazards R230, 10_state R68: reset, in any state, gives every piece of state its reset value; the bytes of
`INBUF` become free values (log 4). -/
def Obligations.ResetGivesEveryResetValue : Prop :=
  ∀ (s : State) (rest : List HostAction), s.host = .reset :: rest →
    ∃ t, step s = .next t ∧ t.cfg = s.cfg ∧ t.host = rest ∧
      t.errIe = false ∧ busRead t 0x00C#19 = 0#32 ∧ t.err = ErrRecord.clear ∧
      t.total = 0 ∧ t.leaves = 0 ∧ t.nodeCount = 0 ∧ t.wlLen = 0 ∧ t.ctCount = 0 ∧ t.wl = [] ∧
      t.outLen = 1 ∧ t.bitcnt = 0 ∧ t.acc = 0 ∧ t.accN = 0 ∧
      t.inLen = 0 ∧ t.decBits = 0 ∧ t.decPos = 0 ∧ t.decClen = 0 ∧ t.symoutLen = 0 ∧ t.chunk = [] ∧
      t.symSel = 0#8 ∧ t.nodeSel = 0#9 ∧ t.wlSel = 0#9 ∧ (∀ j, j < 8 → t.lcBits[j]? = some 0#32) ∧
      t.tbState = .idle ∧ t.ctState = .empty ∧ t.pkState = .opened ∧ t.upState = .idle ∧
      (∀ x, t.freqOf x = 0) ∧ (∀ i, t.nodeAt i = none) ∧ (∀ x, t.codeOf x = []) ∧ t.stored .outbuf 0 = 0#8 ∧
      t.errIrq = false ∧ busRead t 0x034#19 = 0#32 ∧
      ∀ i, t.stored .inbuf i = Config.freeByte .inbuf t.draws i

/-! The control commands. -/

/-- 44_control R191: `NOP` changes nothing, in any state, the error state included; its only word is `0x00000000`. -/
def Obligations.NopLeavesTheStateUnchanged : Prop :=
  ∀ s : State, exec .nop s = .next s ∧ (∀ w, decode s.cfg w = .ok .nop ↔ w = 0x00000000#32) ∧
    ∀ rest, s.host = .write .word cmdOffset 0x00000000#32 :: rest →
      step s = .next { s with host := rest, reply := .silent }

/-- 44_control R192: what each mask bit clears, and that everything it does not select stays; `CLEAR` executes in any
state, the error state included. -/
def Obligations.ClearResetsTheSelectedUnits : Prop :=
  ∀ (m : BitVec 5) (s : State),
    (∀ rest, s.host = .write .word cmdOffset (0x01000000#32 ||| m.setWidth 32) :: rest →
      step s = exec (.clear m) { s with host := rest, reply := .silent }) ∧
    ∃ t, exec (.clear m) s = .next t ∧
    (t.cfg = s.cfg ∧ t.errIe = s.errIe ∧ t.inLen = s.inLen ∧ t.inbuf = s.inbuf ∧ t.symSel = s.symSel ∧
      t.nodeSel = s.nodeSel ∧ t.wlSel = s.wlSel ∧ t.lcBits = s.lcBits ∧ t.symout = s.symout ∧ t.draws = s.draws ∧
      t.host = s.host ∧ t.reply = s.reply) ∧
    (if m.getLsbD 0 then
      (∀ x, t.freqOf x = 0) ∧ t.total = 0 ∧ t.leaves = 0 ∧ t.nodeCount = 0 ∧ t.wl = [] ∧ t.wlLen = 0 ∧ t.tbState = .idle
    else t.freq = s.freq ∧ t.total = s.total ∧ t.leaves = s.leaves ∧ t.nodes = s.nodes ∧ t.nodeCount = s.nodeCount ∧
      t.wl = s.wl ∧ t.wlLen = s.wlLen ∧ t.tbState = s.tbState) ∧
    (if m.getLsbD 1 then (∀ x, t.codeOf x = []) ∧ t.ctCount = 0 ∧ t.ctState = .empty
    else t.ct = s.ct ∧ t.ctCount = s.ctCount ∧ t.ctState = s.ctState) ∧
    (if m.getLsbD 2 then
      t.stored .outbuf 0 = 0#8 ∧ (∀ i, i ≠ 0 → t.stored .outbuf i = s.stored .outbuf i) ∧ t.outLen = 1 ∧
      t.bitcnt = 0 ∧ t.acc = 0 ∧ t.accN = 0 ∧ t.pkState = .opened
    else t.outbuf = s.outbuf ∧ t.outLen = s.outLen ∧ t.bitcnt = s.bitcnt ∧ t.acc = s.acc ∧ t.accN = s.accN ∧
      t.pkState = s.pkState) ∧
    (if m.getLsbD 3 then
      t.decBits = 0 ∧ t.decPos = 0 ∧ t.decClen = 0 ∧ t.chunk = [] ∧ t.symoutLen = 0 ∧ t.upState = .idle
    else t.decBits = s.decBits ∧ t.decPos = s.decPos ∧ t.decClen = s.decClen ∧ t.chunk = s.chunk ∧
      t.symoutLen = s.symoutLen ∧ t.upState = s.upState) ∧
    (if m.getLsbD 4 then t.err = ErrRecord.clear else t.err = s.err)

/-! The frequency counter and the tree builder. -/

/-- 40_tree_builder R111: `COUNT` counts one occurrence. -/
def Obligations.CountCountsOneOccurrence : Prop :=
  ∀ (s : State) (sym : BitVec 16), WellFormed s.cfg (.count sym) → s.tbState = .idle → s.total ≠ s.cfg.countMax →
    ∃ t, exec (.count sym) s = .next t ∧ OnlyCounts s t ∧
      (∀ x, t.freqOf x = if x = sym.toNat then s.freqOf x + 1 else s.freqOf x) ∧
      t.total = s.total + 1 ∧ t.leaves = (if s.freqOf sym.toNat = 0 then s.leaves + 1 else s.leaves)

/-- 40_tree_builder R111, R112, R114: `COUNT` at `COUNT_MAX` raises `CountOverflow`; with no leaf, `TBINIT` and `BUILD`
raise `EmptyAlphabet`. -/
def Obligations.FullCounterAndEmptyAlphabetRaise : Prop :=
  ∀ s : State, s.tbState = .idle →
    (∀ sym : BitVec 16, s.total = s.cfg.countMax →
      ∃ t, exec (.count sym) s = .next t ∧
        Records (.count sym) .counting .countOverflow 0 sym.toNat (s.freqOf sym.toNat) s t) ∧
    (s.leaves = 0 → ∀ i ∈ [Instr.tbinit, Instr.build],
      ∃ t, exec i s = .next t ∧ Records i .building .emptyAlphabet 0 0 0 s t)

/-- 40_tree_builder R112: `TBINIT` loads one leaf for each counted symbol, ascending by (count, symbol). -/
def Obligations.TbinitLoadsSortedLeaves : Prop :=
  ∀ s : State, s.Canonical → s.CountsAdd → s.tbState = .idle → s.leaves ≠ 0 →
    ∃ (t : State) (syms : List Nat), exec .tbinit s = .next t ∧ OnlyTree s t ∧
      syms.length = s.leaves ∧ (∀ x, x ∈ syms ↔ 1 ≤ s.freqOf x) ∧
      syms.Pairwise (fun x y => s.freqOf x < s.freqOf y ∨ (s.freqOf x = s.freqOf y ∧ x < y)) ∧
      (∀ i x, syms[i]? = some x → t.nodeAt i = some (.leaf (s.freqOf x) x)) ∧
      t.nodeCount = s.leaves ∧ t.wl = List.range s.leaves ∧ t.wlLen = s.leaves ∧
      t.tbState = (if s.leaves = 1 then .done else .loaded)

/-- 40_tree_builder R113: `MERGE` joins the two nodes of smallest key and inserts the new one after every equal count. -/
def Obligations.MergeJoinsTheTwoSmallest : Prop :=
  ∀ s : State, s.TreeSound → s.tbState = .loaded →
    ∃ (t : State) (a b : Nat) (lo hi : List Nat), exec .merge s = .next t ∧ OnlyTree s t ∧
      s.wl = a :: b :: (lo ++ hi) ∧
      (∀ x ∈ s.wl, x ≠ a → s.keyBefore a x) ∧ (∀ x ∈ s.wl, x ≠ a → x ≠ b → s.keyBefore b x) ∧
      t.nodeAt s.nodeCount = some (.internal (s.countAt a + s.countAt b) a b) ∧
      (∀ i, i < s.nodeCount → t.nodeAt i = s.nodeAt i) ∧ t.nodeCount = s.nodeCount + 1 ∧
      t.wl = lo ++ s.nodeCount :: hi ∧
      (∀ x ∈ lo, s.countAt x ≤ s.countAt a + s.countAt b) ∧ (∀ x ∈ hi, s.countAt a + s.countAt b < s.countAt x) ∧
      t.wlLen = s.wlLen - 1 ∧ t.tbState = (if s.wlLen = 2 then .done else .loaded)

/-- 40_tree_builder R114: `BUILD` is `TBINIT`, if none was made, and then a `MERGE` for as long as `TB_STATE` is
`LOADED`. -/
def Obligations.BuildIsTbinitThenMerges : Prop :=
  (∀ s t : State, s.tbState = .idle → s.leaves ≠ 0 → exec .tbinit s = .next t →
    exec .build s = if t.tbState = .loaded then exec .build t else .next t) ∧
  (∀ s t : State, s.tbState = .loaded → exec .merge s = .next t →
    exec .build s = if t.tbState = .loaded then exec .build t else .next t)

/-- 40_tree_builder R114, R115 (R115 is the spec's own inference, 'derived: from rules R112, R113, R114'): `BUILD` ends with
one node, the root, whose count is the total input length. -/
def Obligations.BuildMakesTheWholeTree : Prop :=
  ∀ s : State, s.Sound → s.tbState ≠ .done → s.leaves ≠ 0 →
    ∃ t, exec .build s = .next t ∧ OnlyTree s t ∧ t.tbState = .done ∧
      t.nodeCount = 2 * s.leaves - 1 ∧ t.wl = [2 * s.leaves - 2] ∧ t.wlLen = 1 ∧
      t.countAt (2 * s.leaves - 2) = s.total ∧
      (∀ i, i < s.nodeCount → t.nodeAt i = s.nodeAt i) ∧
      (∀ i c l r, t.nodeAt i = some (.internal c l r) → c = t.countAt l + t.countAt r) ∧
      (∀ i, i + 1 < t.nodeCount → ((List.range t.nodeCount).flatMap t.childrenAt).count i = 1)

/-! The code table. -/

/-- 41_code_table R133: `ASSIGN` gives each counted symbol the path to its leaf, and no other symbol a code. That no path is
longer than `LEAVES - 1` is the spec's own inference (40_tree_builder R115(d), 'derived: from rules R112, R113, R114'). -/
def Obligations.AssignRecordsThePathsOfTheTree : Prop :=
  ∀ s : State, s.Sound → s.tbState = .done → s.ctState = .empty →
    ∃ (t : State) (root : Nat), exec .assign s = .next t ∧ OnlyTable s t ∧ s.wl = [root] ∧
      t.ctState = .tree ∧ t.ctCount = s.leaves ∧
      (∀ x, t.codeOf x ≠ [] ↔ 1 ≤ s.freqOf x) ∧
      (s.leaves = 1 → ∀ x, 1 ≤ s.freqOf x → t.codeOf x = [true]) ∧
      (2 ≤ s.leaves → ∀ x, 1 ≤ s.freqOf x → (∃ c, descend s root (t.codeOf x) = some (.leaf c x)) ∧
        (t.codeOf x).length ≤ s.leaves - 1)

/-- 41_code_table R135 (the spec's own inference, 'derived: from rules R133, R134'): in a sound state no code is a prefix
of the code of a different symbol. -/
def Obligations.CodesArePrefixFree : Prop :=
  ∀ s : State, s.Sound → ∀ x y, x ≠ y → s.codeOf x ≠ [] → s.codeOf y ≠ [] → ¬ s.codeOf x <+: s.codeOf y

/-- 41_code_table R136 (the spec's own inference, 'derived: from rules R133'): a table made by `ASSIGN` with two leaves or
more is complete. -/
def Obligations.AssignedTableIsComplete : Prop :=
  ∀ s t : State, s.Sound → 2 ≤ s.leaves → s.ctState = .empty → exec .assign s = .next t → t.ctState = .tree →
    (((List.range s.cfg.nsym).filter (fun x => decide (t.codeOf x ≠ []))).map
      (fun x => (1 / 2 : ℚ) ^ (t.codeOf x).length)).sum = 1

/-- 41_code_table R134: `LOADCODE` enters the pair. -/
def Obligations.LoadcodeEntersThePair : Prop :=
  ∀ (s : State) (len : BitVec 8) (sym : BitVec 16), WellFormed s.cfg (.loadcode len sym) → Cells.Rising s.ct →
    s.ctState ≠ .tree → len ≠ 0#8 → s.staged < 2 ^ len.toNat → s.codeOf sym.toNat = [] →
    (∀ y, s.codeOf y ≠ [] →
      ¬ s.codeOf y <+: bstr s.staged len.toNat ∧ ¬ bstr s.staged len.toNat <+: s.codeOf y) →
    ∃ t, exec (.loadcode len sym) s = .next t ∧ OnlyTable s t ∧
      (t.codeOf sym.toNat).length = len.toNat ∧ val (t.codeOf sym.toNat) = s.staged ∧
      (∀ x, x ≠ sym.toNat → t.codeOf x = s.codeOf x) ∧ t.ctCount = s.ctCount + 1 ∧ t.ctState = .loaded

/-- 41_code_table R134: `MalformedCodeTable`, subcodes 1 to 4, in that order. -/
def Obligations.LoadcodeRejectsMalformedPairs : Prop :=
  ∀ (s : State) (len : BitVec 8) (sym : BitVec 16), Cells.Rising s.ct → s.ctState ≠ .tree →
    (len = 0#8 → ∃ t, exec (.loadcode len sym) s = .next t ∧
      Records (.loadcode len sym) .assigning .malformedCodeTable 1 sym.toNat 0 s t) ∧
    (len ≠ 0#8 → 2 ^ len.toNat ≤ s.staged → ∃ t, exec (.loadcode len sym) s = .next t ∧
      Records (.loadcode len sym) .assigning .malformedCodeTable 2 sym.toNat len.toNat s t) ∧
    (len ≠ 0#8 → s.staged < 2 ^ len.toNat → s.codeOf sym.toNat ≠ [] → ∃ t, exec (.loadcode len sym) s = .next t ∧
      Records (.loadcode len sym) .assigning .malformedCodeTable 3 sym.toNat sym.toNat s t) ∧
    (∀ y, len ≠ 0#8 → s.staged < 2 ^ len.toNat → s.codeOf sym.toNat = [] → s.codeOf y ≠ [] →
      (s.codeOf y <+: bstr s.staged len.toNat ∨ bstr s.staged len.toNat <+: s.codeOf y) →
      (∀ z, z < y → s.codeOf z ≠ [] →
        ¬ s.codeOf z <+: bstr s.staged len.toNat ∧ ¬ bstr s.staged len.toNat <+: s.codeOf z) →
      ∃ t, exec (.loadcode len sym) s = .next t ∧
        Records (.loadcode len sym) .assigning .malformedCodeTable 4 sym.toNat y s t)

/-! The encoder and the packer. -/

/-- 42_encode_pack R150, R152, R153: `ENC` appends the symbol's code and `PUTBITS` its raw bits, first bit first. -/
def Obligations.EncAndPutbitsAppendTheirBits : Prop :=
  ∀ (i : Instr) (x : Bits) (s : State), s.PackerSound → s.pkState = .opened →
    (match i with
      | .enc sym => s.ctState ≠ .empty ∧ s.codeOf sym.toNat ≠ [] ∧ x = s.codeOf sym.toNat
      | .putbits n v => x = (List.range n.toNat).map (fun t => v.getLsbD (n.toNat - 1 - t))
      | _ => False) →
    1 + (s.bitcnt + x.length + 7) / 8 ≤ s.cfg.outCap →
    ∃ t, exec i s = .next t ∧ OnlyPacker s t ∧ packed t = packed s ++ x ∧
      t.bitcnt = s.bitcnt + x.length ∧ t.outLen = 1 + t.bitcnt / 8 ∧ t.accN = t.bitcnt % 8 ∧ t.pkState = .opened ∧
      (∀ j, ¬ (s.outLen ≤ j ∧ j < t.outLen) → t.stored .outbuf j = s.stored .outbuf j)

/-- 42_encode_pack R151, R152, R153, R156: a symbol with no code raises `UnknownSymbol`; bits that would not fit
`OUT_CAP` raise `BufferOverflow` subcode 1; a stream longer than `INBUF` raises `BufferOverflow` subcode 2. -/
def Obligations.PackerRejectsWhatDoesNotFit : Prop :=
  ∀ s : State,
    (∀ sym : BitVec 16, s.pkState = .opened → s.ctState ≠ .empty → s.codeOf sym.toNat = [] →
      ∃ t, exec (.enc sym) s = .next t ∧ Records (.enc sym) .encoding .unknownSymbol 0 sym.toNat 0 s t) ∧
    (∀ sym : BitVec 16, s.pkState = .opened → s.ctState ≠ .empty → s.codeOf sym.toNat ≠ [] →
      s.cfg.outCap < 1 + (s.bitcnt + (s.codeOf sym.toNat).length + 7) / 8 →
      ∃ t, exec (.enc sym) s = .next t ∧
        Records (.enc sym) .encoding .bufferOverflow 1 s.bitcnt (s.codeOf sym.toNat).length s t) ∧
    (∀ (n : BitVec 5) (v : BitVec 16), s.pkState = .opened → s.cfg.outCap < 1 + (s.bitcnt + n.toNat + 7) / 8 →
      ∃ t, exec (.putbits n v) s = .next t ∧
        Records (.putbits n v) .packing .bufferOverflow 1 s.bitcnt n.toNat s t) ∧
    (s.pkState = .flushed → s.cfg.inCap < s.outLen →
      ∃ t, exec .xfer s = .next t ∧ Records .xfer .packing .bufferOverflow 2 s.outLen s.cfg.inCap s t)

/-- 42_encode_pack R155, R157 (R157 is the spec's own inference, 'derived: from rules R150, R151, R154, R155'): `FLUSH` makes
the whole stream: the header, the bits, then padding zeros. -/
def Obligations.FlushPadsAndWritesTheHeader : Prop :=
  ∀ s : State, s.PackerSound → s.pkState = .opened →
    ∃ t, exec .flush s = .next t ∧ OnlyPacker s t ∧ t.pkState = .flushed ∧ t.bitcnt = s.bitcnt ∧
      t.acc = 0 ∧ t.accN = 0 ∧ t.outLen = 1 + (s.bitcnt + 7) / 8 ∧
      (t.stored .outbuf 0).toNat = (8 - s.bitcnt % 8) % 8 ∧
      8 * (t.outLen - 1) - (t.stored .outbuf 0).toNat = s.bitcnt ∧
      streamBits t (t.outLen - 1) = packed s ++ List.replicate ((8 - s.bitcnt % 8) % 8) false ∧
      (∀ j, j ≠ 0 → ¬ (s.outLen ≤ j ∧ j < t.outLen) → t.stored .outbuf j = s.stored .outbuf j)

/-- 42_encode_pack R156: `XFER` copies the stream into `INBUF` and leaves the bytes above it. -/
def Obligations.XferCopiesTheStream : Prop :=
  ∀ s : State, s.pkState = .flushed → s.outLen ≤ s.cfg.outCap → s.outLen ≤ s.cfg.inCap →
    ∃ t, exec .xfer s = .next t ∧ t = { s with inbuf := t.inbuf, inLen := t.inLen, upState := t.upState } ∧
      (∀ i, t.stored .inbuf i = if i < s.outLen then s.stored .outbuf i else s.stored .inbuf i) ∧
      t.inLen = s.outLen ∧ t.upState = .idle

/-! The unpacker and the decoder. -/

/-- 43_unpack_decode R172: `UNPACK` reads the header and prepares the decoder. -/
def Obligations.UnpackReadsTheHeader : Prop :=
  ∀ s : State, 1 ≤ s.inLen → s.inLen ≤ s.cfg.inCap → (s.stored .inbuf 0).toNat ≤ 7 →
    (s.stored .inbuf 0).toNat ≤ 8 * (s.inLen - 1) →
    exec .unpack s = .next { s with
      decBits := 8 * (s.inLen - 1) - (s.stored .inbuf 0).toNat
      decPos := 0, decClen := 0, chunk := [], symoutLen := 0, upState := .ready }

/-- 43_unpack_decode R172: `TruncatedOrCorruptStream`, subcodes 1, 2, 3, in that order. -/
def Obligations.UnpackRejectsBadHeaders : Prop :=
  ∀ s : State, s.inLen ≤ s.cfg.inCap →
    (s.inLen = 0 → ∃ t, exec .unpack s = .next t ∧
      Records .unpack .packing .truncatedOrCorruptStream 1 0 0 s t) ∧
    (s.inLen ≠ 0 → 7 < (s.stored .inbuf 0).toNat → ∃ t, exec .unpack s = .next t ∧
      Records .unpack .packing .truncatedOrCorruptStream 2 (s.stored .inbuf 0).toNat 0 s t) ∧
    (s.inLen ≠ 0 → (s.stored .inbuf 0).toNat ≤ 7 → 8 * (s.inLen - 1) < (s.stored .inbuf 0).toNat →
      ∃ t, exec .unpack s = .next t ∧
        Records .unpack .packing .truncatedOrCorruptStream 3 (s.stored .inbuf 0).toNat s.inLen s t)

/-- 43_unpack_decode R173: a payload that is a concatenation of codes decodes to exactly their symbols; so does the rest of
one whose first code a raise left in the chunk (a `DECODE` resumed after `CLEAR 0x10`). -/
def Obligations.DecodeRecoversTheSymbols : Prop :=
  ∀ (s : State) (bits : Bits) (syms : List Nat), s.Sound → s.upState = .ready → s.ctState ≠ .empty →
    Parses s bits syms [] → s.symoutLen + syms.length ≤ s.cfg.symoutCap →
    ∃ t, exec .decode s = .next t ∧ OnlyDecoder s t ∧ Emits s t syms ∧
      t.decPos = s.decBits ∧ t.decClen = 0 ∧ t.chunk = [] ∧ t.upState = .done

/-- 43_unpack_decode R173: a payload that ends inside a code raises subcode 4; one whose next code finds `SYMOUT` full
raises `BufferOverflow` subcode 3. The symbols decoded before it stay. A chunk may be in progress at the start. -/
def Obligations.DecodeKeepsItsProgressWhenItRaises : Prop :=
  ∀ (s : State) (bits : Bits) (syms : List Nat) (tail : Bits), s.Sound → s.upState = .ready → s.ctState ≠ .empty →
    Parses s bits syms tail → s.symoutLen + syms.length ≤ s.cfg.symoutCap →
    (tail ≠ [] → (tail.length < 255 ∨ bits = []) → NoMatchIn s syms tail →
      ∃ t u, exec .decode s = .next t ∧ OnlyDecoder s u ∧ Emits s u syms ∧
        Records .decode .decoding .truncatedOrCorruptStream 4
          (s.decPos - s.decClen + (syms.flatMap s.codeOf).length) tail.length u t ∧
        u.decPos = s.decBits ∧ u.decClen = tail.length ∧ u.chunk = tail ∧ u.upState = .ready) ∧
    (∀ x rest, s.codeOf x ≠ [] → tail = s.codeOf x ++ rest → (syms = [] → s.decClen < (s.codeOf x).length) →
      s.symoutLen + syms.length = s.cfg.symoutCap →
      ∃ t u, exec .decode s = .next t ∧ OnlyDecoder s u ∧ Emits s u syms ∧
        Records .decode .decoding .bufferOverflow 3
          (s.decPos - s.decClen + (syms.flatMap s.codeOf).length) x u t ∧
        u.decPos = s.decPos - s.decClen + (syms.flatMap s.codeOf ++ s.codeOf x).length ∧
        u.decClen = (s.codeOf x).length ∧ u.chunk = s.codeOf x ∧ u.upState = .ready)

/-- 43_unpack_decode R173: after any decoded symbols, a chunk that reaches 255 bits and matches nothing raises subcode 5 at
once, whatever follows. Where the chunk a raise left has 255 bits already and bits are left, raising before a bit is taken
is the model's choice (log 6). -/
def Obligations.DecodeStopsAtTheLongestChunk : Prop :=
  ∀ (s : State) (bits : Bits) (syms : List Nat) (tail : Bits), s.Sound → s.upState = .ready → s.ctState ≠ .empty →
    Parses s bits syms tail → s.symoutLen + syms.length ≤ s.cfg.symoutCap →
    bits ≠ [] → 255 ≤ tail.length → NoMatchIn s syms tail →
    ∃ t u, exec .decode s = .next t ∧ OnlyDecoder s u ∧ Emits s u syms ∧
      Records .decode .decoding .truncatedOrCorruptStream 5
        (s.decPos - s.decClen + (syms.flatMap s.codeOf).length) 255 u t ∧
      u.decPos = s.decPos - s.decClen + (syms.flatMap s.codeOf).length + 255 ∧
      u.decClen = 255 ∧ u.chunk = tail.take 255 ∧ u.upState = .ready

/-! Whole-machine results. -/

/-- 10_state R67 (the spec's own inference): every step from a sound state leads to a sound state. `Sound` holds R67 and
the facts more that make it inductive. -/
def Obligations.EveryStepKeepsSoundness : Prop := ∀ s t : State, s.Sound → step s = .next t → t.Sound

/-- 10_state R67 (the spec's own inference), R68: the state after reset is sound, under the default and under every legal
configuration. -/
def Obligations.ResetIsSound : Prop :=
  State.reset.Sound ∧ ∀ (c : Config) (draw : Nat), c.Legal → (State.afterReset c draw).Sound

/-- 20_memory R78: from a sound state no step faults; it goes on, or the access was outside the interface. What makes it so,
R67 and 70_reset_and_hazards R240, are the spec's own inferences ('derived: from rules R111 to R114 ...', 'derived: from
40_tree_builder.md rule R114 ...'), and the three faults are the model's own deduction (log 8). -/
def Obligations.SoundStatesNeverFault : Prop :=
  ∀ s : State, s.Sound → (∃ t, step s = .next t) ∨ step s = .refused .outsideInterface

/-- The model's own form of the buffers of 10_state R64 (log 5): every step, from any state with legal parameters, keeps the
byte memories in canonical form and inside their buffers. -/
def Obligations.EveryStepKeepsBuffersCanonical : Prop :=
  ∀ s t : State, s.cfg.Legal → s.BuffersCanonical → step s = .next t → t.BuffersCanonical ∧ t.cfg = s.cfg

/-- 42_encode_pack R157 (the spec's own inference), 43_unpack_decode R172: what was packed comes back through `FLUSH`,
`XFER`, `UNPACK`. -/
def Obligations.LoopBackReturnsThePackedBits : Prop :=
  ∀ s : State, s.PackerSound → s.pkState = .opened → 1 + (s.bitcnt + 7) / 8 ≤ s.cfg.inCap →
    ∃ t, run [.flush, .xfer, .unpack] s = .next t ∧ t.err = s.err ∧ t.upState = .ready ∧
      t.decBits = s.bitcnt ∧ (packed s).length = s.bitcnt ∧
      ∀ p, p < s.bitcnt → some (payload t p) = (packed s)[p]?

/-- 43_unpack_decode R174 (the spec's own inference, 'derived: from rules R172, R173'): the round trip of a text, from any
sound state. -/
def Obligations.TextsRoundTrip : Prop :=
  ∀ (s : State) (text : List (BitVec 16)), s.Sound → text ≠ [] → (∀ x ∈ text, x.toNat < s.cfg.nsym) →
    text.length ≤ s.cfg.countMax → text.length ≤ s.cfg.symoutCap →
    ∃ a, run (.clear 0x1F#5 :: (text.map .count ++ [.build, .assign])) s = .next a ∧ a.err = ErrRecord.clear ∧
      (1 + ((text.flatMap (fun x => a.codeOf x.toNat)).length + 7) / 8 ≤ s.cfg.outCap →
       1 + ((text.flatMap (fun x => a.codeOf x.toNat)).length + 7) / 8 ≤ s.cfg.inCap →
        ∃ t, run (text.map .enc ++ [.flush, .xfer, .unpack, .decode]) a = .next t ∧ t.err = ErrRecord.clear ∧
          t.symoutLen = text.length ∧ ∀ j x, text[j]? = some x → (t.stored .symout j).toNat = x.toNat)
end

