-- ==== Sys2Proof/Laws/Cells.lean ====
section
/-! SUPPORT. Keyed data: a read after a write, and that a write keeps the canonical form. -/

namespace Sys2Proof.Machine

variable {α : Type}

@[simp] theorem Cells.get_nil (a : Nat) : Cells.get ([] : Cells α) a = none := rfl

/-- A read after a write: the value written at its key, and what was there before at every other. -/
@[simp] theorem Cells.get_set (m : Cells α) (a x : Nat) (v : α) :
    Cells.get (Cells.set m a v) x = if x = a then some v else Cells.get m x := by
  induction m with
  | nil => simp [Cells.set, Cells.get]
  | cons p r ih =>
    obtain ⟨k, w⟩ := p
    by_cases h1 : a < k
    · simp [Cells.set, Cells.get, h1]
    · by_cases h2 : a = k
      · subst h2; by_cases hx : x = a <;> simp [Cells.set, Cells.get, hx]
      · by_cases hx : x = k
        · subst hx; simp [Cells.set, Cells.get, h1, h2, Ne.symm h2]
        · simp [Cells.set, Cells.get, h1, h2, hx, ih]

/-- What a list written at a key holds. -/
theorem Cells.mem_set {m : Cells α} {a : Nat} {v : α} {p : Nat × α} (h : p ∈ Cells.set m a v) :
    p = (a, v) ∨ p ∈ m := by
  induction m with
  | nil => simpa [Cells.set] using h
  | cons q r ih =>
    obtain ⟨k, w⟩ := q
    simp only [Cells.set] at h
    split at h
    · simpa using h
    · split at h
      · rcases List.mem_cons.1 h with h | h
        · exact .inl h
        · exact .inr (List.mem_cons_of_mem _ h)
      · rcases List.mem_cons.1 h with h | h
        · exact .inr (h ▸ List.mem_cons_self)
        · exact (ih h).imp id (List.mem_cons_of_mem _)

theorem Cells.rising_nil : Cells.Rising ([] : Cells α) := List.Pairwise.nil

theorem Cells.rising_cons {p : Nat × α} {m : Cells α} :
    Cells.Rising (p :: m) ↔ (∀ q ∈ m, p.1 < q.1) ∧ Cells.Rising m := by
  simp [Cells.Rising]

/-- A write keeps the canonical form. -/
theorem Cells.rising_set {m : Cells α} (a : Nat) (v : α) (h : Cells.Rising m) : Cells.Rising (Cells.set m a v) := by
  induction m with
  | nil => simp [Cells.set, Cells.Rising]
  | cons q r ih =>
    obtain ⟨k, w⟩ := q
    have hk := Cells.rising_cons.1 h
    simp only [Cells.set]
    split
    · rename_i hlt
      refine Cells.rising_cons.2 ⟨fun x hx => ?_, h⟩
      rcases List.mem_cons.1 hx with hx | hx
      · exact hx ▸ hlt
      · exact lt_trans hlt (hk.1 x hx)
    · split
      · rename_i _ heq
        exact Cells.rising_cons.2 ⟨fun x hx => heq ▸ hk.1 x hx, hk.2⟩
      · rename_i h1 h2
        refine Cells.rising_cons.2 ⟨fun x hx => ?_, ih hk.2⟩
        rcases Cells.mem_set hx with hx | hx
        · subst hx; show k < a; omega
        · exact hk.1 x hx

/-- A write at a key below the bound keeps all keys below it. -/
theorem Cells.below_set {m : Cells α} {a n : Nat} (v : α) (h : Cells.Below m n) (ha : a < n) :
    Cells.Below (Cells.set m a v) n := by
  intro p hp
  rcases Cells.mem_set hp with hp | hp
  · exact hp ▸ ha
  · exact h p hp

/-- A memory operation keeps `Memory.wf`. -/
theorem Memory.wf_set {m : Memory} (a : Nat) (v : Byte) (h : Memory.wf m) : Memory.wf (Cells.set m a v) :=
  Cells.rising_set a v h

theorem Cells.get_of_mem {m : Cells α} (h : Cells.Rising m) {p : Nat × α} (hp : p ∈ m) :
    Cells.get m p.1 = some p.2 := by
  induction m with
  | nil => simp at hp
  | cons q r ih =>
    obtain ⟨k, w⟩ := q
    have hk := Cells.rising_cons.1 h
    rcases List.mem_cons.1 hp with hp | hp
    · subst hp; simp [Cells.get]
    · have : k < p.1 := hk.1 p hp
      have hne : p.1 ≠ k := by omega
      simp [Cells.get, hne, ih hk.2 hp]

theorem Cells.mem_of_get {m : Cells α} {a : Nat} {v : α} (h : Cells.get m a = some v) : (a, v) ∈ m := by
  induction m with
  | nil => simp at h
  | cons q r ih =>
    obtain ⟨k, w⟩ := q
    simp only [Cells.get] at h
    split at h
    · rename_i hk
      subst hk
      simp only [Option.some.injEq] at h
      subst h
      exact List.mem_cons_self
    · exact List.mem_cons_of_mem _ (ih h)

theorem Cells.get_eq_none {m : Cells α} {a : Nat} : Cells.get m a = none ↔ a ∉ m.map Prod.fst := by
  induction m with
  | nil => simp
  | cons q r ih =>
    obtain ⟨k, w⟩ := q
    simp only [Cells.get, List.map_cons, List.mem_cons, not_or]
    split
    · rename_i hk; simp [hk]
    · rename_i hk; simp [ih, hk]

/-- A write at a fresh key lists one more; at a listed key, as many. -/
theorem Cells.length_set {m : Cells α} (h : Cells.Rising m) (a : Nat) (v : α) :
    (Cells.set m a v).length = if Cells.get m a = none then m.length + 1 else m.length := by
  induction m with
  | nil => simp [Cells.set]
  | cons q r ih =>
    obtain ⟨k, w⟩ := q
    have hk := Cells.rising_cons.1 h
    simp only [Cells.set, Cells.get]
    by_cases h1 : a < k
    · have hne : a ≠ k := by omega
      have : Cells.get r a = none := by
        rw [Cells.get_eq_none]
        intro hm
        obtain ⟨p, hp, rfl⟩ := List.mem_map.1 hm
        have := hk.1 p hp
        dsimp only at this
        omega
      simp [h1, hne, this]
    · by_cases h2 : a = k
      · simp [h2]
      · simp only [h1, h2, if_false, List.length_cons, ih hk.2]
        split <;> rfl

theorem Cells.set_ne_nil (m : Cells α) (a : Nat) (v : α) : Cells.set m a v ≠ [] := by
  cases m with
  | nil => simp [Cells.set]
  | cons q r => obtain ⟨k, w⟩ := q; simp only [Cells.set]; split <;> [simp; split <;> simp]

/-- A canonical list with keys below a bound is no longer than the bound. -/
theorem Cells.length_le {m : Cells α} {n : Nat} (h : Cells.Rising m) (hb : Cells.Below m n) : m.length ≤ n := by
  have hn : (m.map Prod.fst).Nodup := List.Pairwise.imp (fun h => Nat.ne_of_lt h) h
  have hs : (m.map Prod.fst) ⊆ List.range n := by
    intro x hx
    obtain ⟨p, hp, rfl⟩ := List.mem_map.1 hx
    exact List.mem_range.2 (hb p hp)
  simpa using (List.subperm_of_subset hn hs).length_le

end Sys2Proof.Machine
end

