-- ==== Sys2Proof/Laws/State.lean ====
section
/-! SUPPORT. What each named update of the state does to each field: one lemma a field and update. -/

namespace Sys2Proof.Machine

/-! `raiseError`. -/

@[simp] theorem raiseError_cfg (w : Word) (e : Raised) (s : State) : (raiseError w e s).cfg = s.cfg := rfl
@[simp] theorem raiseError_host (w : Word) (e : Raised) (s : State) : (raiseError w e s).host = s.host := rfl
@[simp] theorem raiseError_reply (w : Word) (e : Raised) (s : State) : (raiseError w e s).reply = s.reply := rfl
@[simp] theorem raiseError_draws (w : Word) (e : Raised) (s : State) : (raiseError w e s).draws = s.draws := rfl
@[simp] theorem raiseError_errIe (w : Word) (e : Raised) (s : State) : (raiseError w e s).errIe = s.errIe := rfl
@[simp] theorem raiseError_freq (w : Word) (e : Raised) (s : State) : (raiseError w e s).freq = s.freq := rfl
@[simp] theorem raiseError_total (w : Word) (e : Raised) (s : State) : (raiseError w e s).total = s.total := rfl
@[simp] theorem raiseError_leaves (w : Word) (e : Raised) (s : State) : (raiseError w e s).leaves = s.leaves := rfl
@[simp] theorem raiseError_nodes (w : Word) (e : Raised) (s : State) : (raiseError w e s).nodes = s.nodes := rfl
@[simp] theorem raiseError_nodeCount (w : Word) (e : Raised) (s : State) : (raiseError w e s).nodeCount = s.nodeCount := rfl
@[simp] theorem raiseError_wl (w : Word) (e : Raised) (s : State) : (raiseError w e s).wl = s.wl := rfl
@[simp] theorem raiseError_wlLen (w : Word) (e : Raised) (s : State) : (raiseError w e s).wlLen = s.wlLen := rfl
@[simp] theorem raiseError_tbState (w : Word) (e : Raised) (s : State) : (raiseError w e s).tbState = s.tbState := rfl
@[simp] theorem raiseError_ct (w : Word) (e : Raised) (s : State) : (raiseError w e s).ct = s.ct := rfl
@[simp] theorem raiseError_ctCount (w : Word) (e : Raised) (s : State) : (raiseError w e s).ctCount = s.ctCount := rfl
@[simp] theorem raiseError_ctState (w : Word) (e : Raised) (s : State) : (raiseError w e s).ctState = s.ctState := rfl
@[simp] theorem raiseError_outbuf (w : Word) (e : Raised) (s : State) : (raiseError w e s).outbuf = s.outbuf := rfl
@[simp] theorem raiseError_outLen (w : Word) (e : Raised) (s : State) : (raiseError w e s).outLen = s.outLen := rfl
@[simp] theorem raiseError_bitcnt (w : Word) (e : Raised) (s : State) : (raiseError w e s).bitcnt = s.bitcnt := rfl
@[simp] theorem raiseError_acc (w : Word) (e : Raised) (s : State) : (raiseError w e s).acc = s.acc := rfl
@[simp] theorem raiseError_accN (w : Word) (e : Raised) (s : State) : (raiseError w e s).accN = s.accN := rfl
@[simp] theorem raiseError_pkState (w : Word) (e : Raised) (s : State) : (raiseError w e s).pkState = s.pkState := rfl
@[simp] theorem raiseError_inbuf (w : Word) (e : Raised) (s : State) : (raiseError w e s).inbuf = s.inbuf := rfl
@[simp] theorem raiseError_inLen (w : Word) (e : Raised) (s : State) : (raiseError w e s).inLen = s.inLen := rfl
@[simp] theorem raiseError_decBits (w : Word) (e : Raised) (s : State) : (raiseError w e s).decBits = s.decBits := rfl
@[simp] theorem raiseError_decPos (w : Word) (e : Raised) (s : State) : (raiseError w e s).decPos = s.decPos := rfl
@[simp] theorem raiseError_decClen (w : Word) (e : Raised) (s : State) : (raiseError w e s).decClen = s.decClen := rfl
@[simp] theorem raiseError_chunk (w : Word) (e : Raised) (s : State) : (raiseError w e s).chunk = s.chunk := rfl
@[simp] theorem raiseError_symout (w : Word) (e : Raised) (s : State) : (raiseError w e s).symout = s.symout := rfl
@[simp] theorem raiseError_symoutLen (w : Word) (e : Raised) (s : State) : (raiseError w e s).symoutLen = s.symoutLen := rfl
@[simp] theorem raiseError_upState (w : Word) (e : Raised) (s : State) : (raiseError w e s).upState = s.upState := rfl
@[simp] theorem raiseError_symSel (w : Word) (e : Raised) (s : State) : (raiseError w e s).symSel = s.symSel := rfl
@[simp] theorem raiseError_nodeSel (w : Word) (e : Raised) (s : State) : (raiseError w e s).nodeSel = s.nodeSel := rfl
@[simp] theorem raiseError_wlSel (w : Word) (e : Raised) (s : State) : (raiseError w e s).wlSel = s.wlSel := rfl
@[simp] theorem raiseError_lcBits (w : Word) (e : Raised) (s : State) : (raiseError w e s).lcBits = s.lcBits := rfl

/-! `clearError`. -/

@[simp] theorem clearError_cfg (s : State) : (clearError s).cfg = s.cfg := rfl
@[simp] theorem clearError_host (s : State) : (clearError s).host = s.host := rfl
@[simp] theorem clearError_reply (s : State) : (clearError s).reply = s.reply := rfl
@[simp] theorem clearError_draws (s : State) : (clearError s).draws = s.draws := rfl
@[simp] theorem clearError_errIe (s : State) : (clearError s).errIe = s.errIe := rfl
@[simp] theorem clearError_err (s : State) : (clearError s).err = ErrRecord.clear := rfl
@[simp] theorem clearError_freq (s : State) : (clearError s).freq = s.freq := rfl
@[simp] theorem clearError_total (s : State) : (clearError s).total = s.total := rfl
@[simp] theorem clearError_leaves (s : State) : (clearError s).leaves = s.leaves := rfl
@[simp] theorem clearError_nodes (s : State) : (clearError s).nodes = s.nodes := rfl
@[simp] theorem clearError_nodeCount (s : State) : (clearError s).nodeCount = s.nodeCount := rfl
@[simp] theorem clearError_wl (s : State) : (clearError s).wl = s.wl := rfl
@[simp] theorem clearError_wlLen (s : State) : (clearError s).wlLen = s.wlLen := rfl
@[simp] theorem clearError_tbState (s : State) : (clearError s).tbState = s.tbState := rfl
@[simp] theorem clearError_ct (s : State) : (clearError s).ct = s.ct := rfl
@[simp] theorem clearError_ctCount (s : State) : (clearError s).ctCount = s.ctCount := rfl
@[simp] theorem clearError_ctState (s : State) : (clearError s).ctState = s.ctState := rfl
@[simp] theorem clearError_outbuf (s : State) : (clearError s).outbuf = s.outbuf := rfl
@[simp] theorem clearError_outLen (s : State) : (clearError s).outLen = s.outLen := rfl
@[simp] theorem clearError_bitcnt (s : State) : (clearError s).bitcnt = s.bitcnt := rfl
@[simp] theorem clearError_acc (s : State) : (clearError s).acc = s.acc := rfl
@[simp] theorem clearError_accN (s : State) : (clearError s).accN = s.accN := rfl
@[simp] theorem clearError_pkState (s : State) : (clearError s).pkState = s.pkState := rfl
@[simp] theorem clearError_inbuf (s : State) : (clearError s).inbuf = s.inbuf := rfl
@[simp] theorem clearError_inLen (s : State) : (clearError s).inLen = s.inLen := rfl
@[simp] theorem clearError_decBits (s : State) : (clearError s).decBits = s.decBits := rfl
@[simp] theorem clearError_decPos (s : State) : (clearError s).decPos = s.decPos := rfl
@[simp] theorem clearError_decClen (s : State) : (clearError s).decClen = s.decClen := rfl
@[simp] theorem clearError_chunk (s : State) : (clearError s).chunk = s.chunk := rfl
@[simp] theorem clearError_symout (s : State) : (clearError s).symout = s.symout := rfl
@[simp] theorem clearError_symoutLen (s : State) : (clearError s).symoutLen = s.symoutLen := rfl
@[simp] theorem clearError_upState (s : State) : (clearError s).upState = s.upState := rfl
@[simp] theorem clearError_symSel (s : State) : (clearError s).symSel = s.symSel := rfl
@[simp] theorem clearError_nodeSel (s : State) : (clearError s).nodeSel = s.nodeSel := rfl
@[simp] theorem clearError_wlSel (s : State) : (clearError s).wlSel = s.wlSel := rfl
@[simp] theorem clearError_lcBits (s : State) : (clearError s).lcBits = s.lcBits := rfl

/-! `clearTree`. -/

@[simp] theorem clearTree_cfg (s : State) : (clearTree s).cfg = s.cfg := rfl
@[simp] theorem clearTree_host (s : State) : (clearTree s).host = s.host := rfl
@[simp] theorem clearTree_reply (s : State) : (clearTree s).reply = s.reply := rfl
@[simp] theorem clearTree_draws (s : State) : (clearTree s).draws = s.draws := rfl
@[simp] theorem clearTree_errIe (s : State) : (clearTree s).errIe = s.errIe := rfl
@[simp] theorem clearTree_err (s : State) : (clearTree s).err = s.err := rfl
@[simp] theorem clearTree_freq (s : State) : (clearTree s).freq = [] := rfl
@[simp] theorem clearTree_total (s : State) : (clearTree s).total = 0 := rfl
@[simp] theorem clearTree_leaves (s : State) : (clearTree s).leaves = 0 := rfl
@[simp] theorem clearTree_nodes (s : State) : (clearTree s).nodes = [] := rfl
@[simp] theorem clearTree_nodeCount (s : State) : (clearTree s).nodeCount = 0 := rfl
@[simp] theorem clearTree_wl (s : State) : (clearTree s).wl = [] := rfl
@[simp] theorem clearTree_wlLen (s : State) : (clearTree s).wlLen = 0 := rfl
@[simp] theorem clearTree_tbState (s : State) : (clearTree s).tbState = .idle := rfl
@[simp] theorem clearTree_ct (s : State) : (clearTree s).ct = s.ct := rfl
@[simp] theorem clearTree_ctCount (s : State) : (clearTree s).ctCount = s.ctCount := rfl
@[simp] theorem clearTree_ctState (s : State) : (clearTree s).ctState = s.ctState := rfl
@[simp] theorem clearTree_outbuf (s : State) : (clearTree s).outbuf = s.outbuf := rfl
@[simp] theorem clearTree_outLen (s : State) : (clearTree s).outLen = s.outLen := rfl
@[simp] theorem clearTree_bitcnt (s : State) : (clearTree s).bitcnt = s.bitcnt := rfl
@[simp] theorem clearTree_acc (s : State) : (clearTree s).acc = s.acc := rfl
@[simp] theorem clearTree_accN (s : State) : (clearTree s).accN = s.accN := rfl
@[simp] theorem clearTree_pkState (s : State) : (clearTree s).pkState = s.pkState := rfl
@[simp] theorem clearTree_inbuf (s : State) : (clearTree s).inbuf = s.inbuf := rfl
@[simp] theorem clearTree_inLen (s : State) : (clearTree s).inLen = s.inLen := rfl
@[simp] theorem clearTree_decBits (s : State) : (clearTree s).decBits = s.decBits := rfl
@[simp] theorem clearTree_decPos (s : State) : (clearTree s).decPos = s.decPos := rfl
@[simp] theorem clearTree_decClen (s : State) : (clearTree s).decClen = s.decClen := rfl
@[simp] theorem clearTree_chunk (s : State) : (clearTree s).chunk = s.chunk := rfl
@[simp] theorem clearTree_symout (s : State) : (clearTree s).symout = s.symout := rfl
@[simp] theorem clearTree_symoutLen (s : State) : (clearTree s).symoutLen = s.symoutLen := rfl
@[simp] theorem clearTree_upState (s : State) : (clearTree s).upState = s.upState := rfl
@[simp] theorem clearTree_symSel (s : State) : (clearTree s).symSel = s.symSel := rfl
@[simp] theorem clearTree_nodeSel (s : State) : (clearTree s).nodeSel = s.nodeSel := rfl
@[simp] theorem clearTree_wlSel (s : State) : (clearTree s).wlSel = s.wlSel := rfl
@[simp] theorem clearTree_lcBits (s : State) : (clearTree s).lcBits = s.lcBits := rfl

/-! `clearTable`. -/

@[simp] theorem clearTable_cfg (s : State) : (clearTable s).cfg = s.cfg := rfl
@[simp] theorem clearTable_host (s : State) : (clearTable s).host = s.host := rfl
@[simp] theorem clearTable_reply (s : State) : (clearTable s).reply = s.reply := rfl
@[simp] theorem clearTable_draws (s : State) : (clearTable s).draws = s.draws := rfl
@[simp] theorem clearTable_errIe (s : State) : (clearTable s).errIe = s.errIe := rfl
@[simp] theorem clearTable_err (s : State) : (clearTable s).err = s.err := rfl
@[simp] theorem clearTable_freq (s : State) : (clearTable s).freq = s.freq := rfl
@[simp] theorem clearTable_total (s : State) : (clearTable s).total = s.total := rfl
@[simp] theorem clearTable_leaves (s : State) : (clearTable s).leaves = s.leaves := rfl
@[simp] theorem clearTable_nodes (s : State) : (clearTable s).nodes = s.nodes := rfl
@[simp] theorem clearTable_nodeCount (s : State) : (clearTable s).nodeCount = s.nodeCount := rfl
@[simp] theorem clearTable_wl (s : State) : (clearTable s).wl = s.wl := rfl
@[simp] theorem clearTable_wlLen (s : State) : (clearTable s).wlLen = s.wlLen := rfl
@[simp] theorem clearTable_tbState (s : State) : (clearTable s).tbState = s.tbState := rfl
@[simp] theorem clearTable_ct (s : State) : (clearTable s).ct = [] := rfl
@[simp] theorem clearTable_ctCount (s : State) : (clearTable s).ctCount = 0 := rfl
@[simp] theorem clearTable_ctState (s : State) : (clearTable s).ctState = .empty := rfl
@[simp] theorem clearTable_outbuf (s : State) : (clearTable s).outbuf = s.outbuf := rfl
@[simp] theorem clearTable_outLen (s : State) : (clearTable s).outLen = s.outLen := rfl
@[simp] theorem clearTable_bitcnt (s : State) : (clearTable s).bitcnt = s.bitcnt := rfl
@[simp] theorem clearTable_acc (s : State) : (clearTable s).acc = s.acc := rfl
@[simp] theorem clearTable_accN (s : State) : (clearTable s).accN = s.accN := rfl
@[simp] theorem clearTable_pkState (s : State) : (clearTable s).pkState = s.pkState := rfl
@[simp] theorem clearTable_inbuf (s : State) : (clearTable s).inbuf = s.inbuf := rfl
@[simp] theorem clearTable_inLen (s : State) : (clearTable s).inLen = s.inLen := rfl
@[simp] theorem clearTable_decBits (s : State) : (clearTable s).decBits = s.decBits := rfl
@[simp] theorem clearTable_decPos (s : State) : (clearTable s).decPos = s.decPos := rfl
@[simp] theorem clearTable_decClen (s : State) : (clearTable s).decClen = s.decClen := rfl
@[simp] theorem clearTable_chunk (s : State) : (clearTable s).chunk = s.chunk := rfl
@[simp] theorem clearTable_symout (s : State) : (clearTable s).symout = s.symout := rfl
@[simp] theorem clearTable_symoutLen (s : State) : (clearTable s).symoutLen = s.symoutLen := rfl
@[simp] theorem clearTable_upState (s : State) : (clearTable s).upState = s.upState := rfl
@[simp] theorem clearTable_symSel (s : State) : (clearTable s).symSel = s.symSel := rfl
@[simp] theorem clearTable_nodeSel (s : State) : (clearTable s).nodeSel = s.nodeSel := rfl
@[simp] theorem clearTable_wlSel (s : State) : (clearTable s).wlSel = s.wlSel := rfl
@[simp] theorem clearTable_lcBits (s : State) : (clearTable s).lcBits = s.lcBits := rfl

/-! `clearPacker`. -/

@[simp] theorem clearPacker_cfg (s : State) : (clearPacker s).cfg = s.cfg := rfl
@[simp] theorem clearPacker_host (s : State) : (clearPacker s).host = s.host := rfl
@[simp] theorem clearPacker_reply (s : State) : (clearPacker s).reply = s.reply := rfl
@[simp] theorem clearPacker_draws (s : State) : (clearPacker s).draws = s.draws := rfl
@[simp] theorem clearPacker_errIe (s : State) : (clearPacker s).errIe = s.errIe := rfl
@[simp] theorem clearPacker_err (s : State) : (clearPacker s).err = s.err := rfl
@[simp] theorem clearPacker_freq (s : State) : (clearPacker s).freq = s.freq := rfl
@[simp] theorem clearPacker_total (s : State) : (clearPacker s).total = s.total := rfl
@[simp] theorem clearPacker_leaves (s : State) : (clearPacker s).leaves = s.leaves := rfl
@[simp] theorem clearPacker_nodes (s : State) : (clearPacker s).nodes = s.nodes := rfl
@[simp] theorem clearPacker_nodeCount (s : State) : (clearPacker s).nodeCount = s.nodeCount := rfl
@[simp] theorem clearPacker_wl (s : State) : (clearPacker s).wl = s.wl := rfl
@[simp] theorem clearPacker_wlLen (s : State) : (clearPacker s).wlLen = s.wlLen := rfl
@[simp] theorem clearPacker_tbState (s : State) : (clearPacker s).tbState = s.tbState := rfl
@[simp] theorem clearPacker_ct (s : State) : (clearPacker s).ct = s.ct := rfl
@[simp] theorem clearPacker_ctCount (s : State) : (clearPacker s).ctCount = s.ctCount := rfl
@[simp] theorem clearPacker_ctState (s : State) : (clearPacker s).ctState = s.ctState := rfl
@[simp] theorem clearPacker_outbuf (s : State) : (clearPacker s).outbuf = Cells.set s.outbuf 0 0#8 := rfl
@[simp] theorem clearPacker_outLen (s : State) : (clearPacker s).outLen = 1 := rfl
@[simp] theorem clearPacker_bitcnt (s : State) : (clearPacker s).bitcnt = 0 := rfl
@[simp] theorem clearPacker_acc (s : State) : (clearPacker s).acc = 0 := rfl
@[simp] theorem clearPacker_accN (s : State) : (clearPacker s).accN = 0 := rfl
@[simp] theorem clearPacker_pkState (s : State) : (clearPacker s).pkState = .opened := rfl
@[simp] theorem clearPacker_inbuf (s : State) : (clearPacker s).inbuf = s.inbuf := rfl
@[simp] theorem clearPacker_inLen (s : State) : (clearPacker s).inLen = s.inLen := rfl
@[simp] theorem clearPacker_decBits (s : State) : (clearPacker s).decBits = s.decBits := rfl
@[simp] theorem clearPacker_decPos (s : State) : (clearPacker s).decPos = s.decPos := rfl
@[simp] theorem clearPacker_decClen (s : State) : (clearPacker s).decClen = s.decClen := rfl
@[simp] theorem clearPacker_chunk (s : State) : (clearPacker s).chunk = s.chunk := rfl
@[simp] theorem clearPacker_symout (s : State) : (clearPacker s).symout = s.symout := rfl
@[simp] theorem clearPacker_symoutLen (s : State) : (clearPacker s).symoutLen = s.symoutLen := rfl
@[simp] theorem clearPacker_upState (s : State) : (clearPacker s).upState = s.upState := rfl
@[simp] theorem clearPacker_symSel (s : State) : (clearPacker s).symSel = s.symSel := rfl
@[simp] theorem clearPacker_nodeSel (s : State) : (clearPacker s).nodeSel = s.nodeSel := rfl
@[simp] theorem clearPacker_wlSel (s : State) : (clearPacker s).wlSel = s.wlSel := rfl
@[simp] theorem clearPacker_lcBits (s : State) : (clearPacker s).lcBits = s.lcBits := rfl

/-! `clearUnpacker`. -/

@[simp] theorem clearUnpacker_cfg (s : State) : (clearUnpacker s).cfg = s.cfg := rfl
@[simp] theorem clearUnpacker_host (s : State) : (clearUnpacker s).host = s.host := rfl
@[simp] theorem clearUnpacker_reply (s : State) : (clearUnpacker s).reply = s.reply := rfl
@[simp] theorem clearUnpacker_draws (s : State) : (clearUnpacker s).draws = s.draws := rfl
@[simp] theorem clearUnpacker_errIe (s : State) : (clearUnpacker s).errIe = s.errIe := rfl
@[simp] theorem clearUnpacker_err (s : State) : (clearUnpacker s).err = s.err := rfl
@[simp] theorem clearUnpacker_freq (s : State) : (clearUnpacker s).freq = s.freq := rfl
@[simp] theorem clearUnpacker_total (s : State) : (clearUnpacker s).total = s.total := rfl
@[simp] theorem clearUnpacker_leaves (s : State) : (clearUnpacker s).leaves = s.leaves := rfl
@[simp] theorem clearUnpacker_nodes (s : State) : (clearUnpacker s).nodes = s.nodes := rfl
@[simp] theorem clearUnpacker_nodeCount (s : State) : (clearUnpacker s).nodeCount = s.nodeCount := rfl
@[simp] theorem clearUnpacker_wl (s : State) : (clearUnpacker s).wl = s.wl := rfl
@[simp] theorem clearUnpacker_wlLen (s : State) : (clearUnpacker s).wlLen = s.wlLen := rfl
@[simp] theorem clearUnpacker_tbState (s : State) : (clearUnpacker s).tbState = s.tbState := rfl
@[simp] theorem clearUnpacker_ct (s : State) : (clearUnpacker s).ct = s.ct := rfl
@[simp] theorem clearUnpacker_ctCount (s : State) : (clearUnpacker s).ctCount = s.ctCount := rfl
@[simp] theorem clearUnpacker_ctState (s : State) : (clearUnpacker s).ctState = s.ctState := rfl
@[simp] theorem clearUnpacker_outbuf (s : State) : (clearUnpacker s).outbuf = s.outbuf := rfl
@[simp] theorem clearUnpacker_outLen (s : State) : (clearUnpacker s).outLen = s.outLen := rfl
@[simp] theorem clearUnpacker_bitcnt (s : State) : (clearUnpacker s).bitcnt = s.bitcnt := rfl
@[simp] theorem clearUnpacker_acc (s : State) : (clearUnpacker s).acc = s.acc := rfl
@[simp] theorem clearUnpacker_accN (s : State) : (clearUnpacker s).accN = s.accN := rfl
@[simp] theorem clearUnpacker_pkState (s : State) : (clearUnpacker s).pkState = s.pkState := rfl
@[simp] theorem clearUnpacker_inbuf (s : State) : (clearUnpacker s).inbuf = s.inbuf := rfl
@[simp] theorem clearUnpacker_inLen (s : State) : (clearUnpacker s).inLen = s.inLen := rfl
@[simp] theorem clearUnpacker_decBits (s : State) : (clearUnpacker s).decBits = 0 := rfl
@[simp] theorem clearUnpacker_decPos (s : State) : (clearUnpacker s).decPos = 0 := rfl
@[simp] theorem clearUnpacker_decClen (s : State) : (clearUnpacker s).decClen = 0 := rfl
@[simp] theorem clearUnpacker_chunk (s : State) : (clearUnpacker s).chunk = [] := rfl
@[simp] theorem clearUnpacker_symout (s : State) : (clearUnpacker s).symout = s.symout := rfl
@[simp] theorem clearUnpacker_symoutLen (s : State) : (clearUnpacker s).symoutLen = 0 := rfl
@[simp] theorem clearUnpacker_upState (s : State) : (clearUnpacker s).upState = .idle := rfl
@[simp] theorem clearUnpacker_symSel (s : State) : (clearUnpacker s).symSel = s.symSel := rfl
@[simp] theorem clearUnpacker_nodeSel (s : State) : (clearUnpacker s).nodeSel = s.nodeSel := rfl
@[simp] theorem clearUnpacker_wlSel (s : State) : (clearUnpacker s).wlSel = s.wlSel := rfl
@[simp] theorem clearUnpacker_lcBits (s : State) : (clearUnpacker s).lcBits = s.lcBits := rfl

/-! `takeBit`. -/

@[simp] theorem takeBit_cfg (b : Bool) (s : State) : (takeBit b s).cfg = s.cfg := rfl
@[simp] theorem takeBit_host (b : Bool) (s : State) : (takeBit b s).host = s.host := rfl
@[simp] theorem takeBit_reply (b : Bool) (s : State) : (takeBit b s).reply = s.reply := rfl
@[simp] theorem takeBit_draws (b : Bool) (s : State) : (takeBit b s).draws = s.draws := rfl
@[simp] theorem takeBit_errIe (b : Bool) (s : State) : (takeBit b s).errIe = s.errIe := rfl
@[simp] theorem takeBit_err (b : Bool) (s : State) : (takeBit b s).err = s.err := rfl
@[simp] theorem takeBit_freq (b : Bool) (s : State) : (takeBit b s).freq = s.freq := rfl
@[simp] theorem takeBit_total (b : Bool) (s : State) : (takeBit b s).total = s.total := rfl
@[simp] theorem takeBit_leaves (b : Bool) (s : State) : (takeBit b s).leaves = s.leaves := rfl
@[simp] theorem takeBit_nodes (b : Bool) (s : State) : (takeBit b s).nodes = s.nodes := rfl
@[simp] theorem takeBit_nodeCount (b : Bool) (s : State) : (takeBit b s).nodeCount = s.nodeCount := rfl
@[simp] theorem takeBit_wl (b : Bool) (s : State) : (takeBit b s).wl = s.wl := rfl
@[simp] theorem takeBit_wlLen (b : Bool) (s : State) : (takeBit b s).wlLen = s.wlLen := rfl
@[simp] theorem takeBit_tbState (b : Bool) (s : State) : (takeBit b s).tbState = s.tbState := rfl
@[simp] theorem takeBit_ct (b : Bool) (s : State) : (takeBit b s).ct = s.ct := rfl
@[simp] theorem takeBit_ctCount (b : Bool) (s : State) : (takeBit b s).ctCount = s.ctCount := rfl
@[simp] theorem takeBit_ctState (b : Bool) (s : State) : (takeBit b s).ctState = s.ctState := rfl
@[simp] theorem takeBit_outbuf (b : Bool) (s : State) : (takeBit b s).outbuf = s.outbuf := rfl
@[simp] theorem takeBit_outLen (b : Bool) (s : State) : (takeBit b s).outLen = s.outLen := rfl
@[simp] theorem takeBit_bitcnt (b : Bool) (s : State) : (takeBit b s).bitcnt = s.bitcnt := rfl
@[simp] theorem takeBit_acc (b : Bool) (s : State) : (takeBit b s).acc = s.acc := rfl
@[simp] theorem takeBit_accN (b : Bool) (s : State) : (takeBit b s).accN = s.accN := rfl
@[simp] theorem takeBit_pkState (b : Bool) (s : State) : (takeBit b s).pkState = s.pkState := rfl
@[simp] theorem takeBit_inbuf (b : Bool) (s : State) : (takeBit b s).inbuf = s.inbuf := rfl
@[simp] theorem takeBit_inLen (b : Bool) (s : State) : (takeBit b s).inLen = s.inLen := rfl
@[simp] theorem takeBit_decBits (b : Bool) (s : State) : (takeBit b s).decBits = s.decBits := rfl
@[simp] theorem takeBit_decPos (b : Bool) (s : State) : (takeBit b s).decPos = s.decPos + 1 := rfl
@[simp] theorem takeBit_decClen (b : Bool) (s : State) : (takeBit b s).decClen = s.decClen + 1 := rfl
@[simp] theorem takeBit_chunk (b : Bool) (s : State) : (takeBit b s).chunk = s.chunk ++ [b] := rfl
@[simp] theorem takeBit_symout (b : Bool) (s : State) : (takeBit b s).symout = s.symout := rfl
@[simp] theorem takeBit_symoutLen (b : Bool) (s : State) : (takeBit b s).symoutLen = s.symoutLen := rfl
@[simp] theorem takeBit_upState (b : Bool) (s : State) : (takeBit b s).upState = s.upState := rfl
@[simp] theorem takeBit_symSel (b : Bool) (s : State) : (takeBit b s).symSel = s.symSel := rfl
@[simp] theorem takeBit_nodeSel (b : Bool) (s : State) : (takeBit b s).nodeSel = s.nodeSel := rfl
@[simp] theorem takeBit_wlSel (b : Bool) (s : State) : (takeBit b s).wlSel = s.wlSel := rfl
@[simp] theorem takeBit_lcBits (b : Bool) (s : State) : (takeBit b s).lcBits = s.lcBits := rfl

/-- Raising an error changes the error record alone (60_exceptions R211). -/
theorem raiseError_eq (w : Word) (e : Raised) (s : State) :
    raiseError w e s = { s with err := (raiseError w e s).err } := rfl

@[simp] theorem raiseError_code (w : Word) (e : Raised) (s : State) : (raiseError w e s).err.code = e.code := rfl

/-! `withBuffer`. -/

@[simp] theorem withBuffer_cfg (s : State) (b : Buffer) (m : Memory) : (s.withBuffer b m).cfg = s.cfg := by cases b <;> rfl
@[simp] theorem withBuffer_host (s : State) (b : Buffer) (m : Memory) : (s.withBuffer b m).host = s.host := by cases b <;> rfl
@[simp] theorem withBuffer_reply (s : State) (b : Buffer) (m : Memory) : (s.withBuffer b m).reply = s.reply := by cases b <;> rfl
@[simp] theorem withBuffer_draws (s : State) (b : Buffer) (m : Memory) : (s.withBuffer b m).draws = s.draws := by cases b <;> rfl
@[simp] theorem withBuffer_errIe (s : State) (b : Buffer) (m : Memory) : (s.withBuffer b m).errIe = s.errIe := by cases b <;> rfl
@[simp] theorem withBuffer_err (s : State) (b : Buffer) (m : Memory) : (s.withBuffer b m).err = s.err := by cases b <;> rfl
@[simp] theorem withBuffer_freq (s : State) (b : Buffer) (m : Memory) : (s.withBuffer b m).freq = s.freq := by cases b <;> rfl
@[simp] theorem withBuffer_total (s : State) (b : Buffer) (m : Memory) : (s.withBuffer b m).total = s.total := by cases b <;> rfl
@[simp] theorem withBuffer_leaves (s : State) (b : Buffer) (m : Memory) : (s.withBuffer b m).leaves = s.leaves := by cases b <;> rfl
@[simp] theorem withBuffer_nodes (s : State) (b : Buffer) (m : Memory) : (s.withBuffer b m).nodes = s.nodes := by cases b <;> rfl
@[simp] theorem withBuffer_nodeCount (s : State) (b : Buffer) (m : Memory) : (s.withBuffer b m).nodeCount = s.nodeCount := by cases b <;> rfl
@[simp] theorem withBuffer_wl (s : State) (b : Buffer) (m : Memory) : (s.withBuffer b m).wl = s.wl := by cases b <;> rfl
@[simp] theorem withBuffer_wlLen (s : State) (b : Buffer) (m : Memory) : (s.withBuffer b m).wlLen = s.wlLen := by cases b <;> rfl
@[simp] theorem withBuffer_tbState (s : State) (b : Buffer) (m : Memory) : (s.withBuffer b m).tbState = s.tbState := by cases b <;> rfl
@[simp] theorem withBuffer_ct (s : State) (b : Buffer) (m : Memory) : (s.withBuffer b m).ct = s.ct := by cases b <;> rfl
@[simp] theorem withBuffer_ctCount (s : State) (b : Buffer) (m : Memory) : (s.withBuffer b m).ctCount = s.ctCount := by cases b <;> rfl
@[simp] theorem withBuffer_ctState (s : State) (b : Buffer) (m : Memory) : (s.withBuffer b m).ctState = s.ctState := by cases b <;> rfl
@[simp] theorem withBuffer_outLen (s : State) (b : Buffer) (m : Memory) : (s.withBuffer b m).outLen = s.outLen := by cases b <;> rfl
@[simp] theorem withBuffer_bitcnt (s : State) (b : Buffer) (m : Memory) : (s.withBuffer b m).bitcnt = s.bitcnt := by cases b <;> rfl
@[simp] theorem withBuffer_acc (s : State) (b : Buffer) (m : Memory) : (s.withBuffer b m).acc = s.acc := by cases b <;> rfl
@[simp] theorem withBuffer_accN (s : State) (b : Buffer) (m : Memory) : (s.withBuffer b m).accN = s.accN := by cases b <;> rfl
@[simp] theorem withBuffer_pkState (s : State) (b : Buffer) (m : Memory) : (s.withBuffer b m).pkState = s.pkState := by cases b <;> rfl
@[simp] theorem withBuffer_inLen (s : State) (b : Buffer) (m : Memory) : (s.withBuffer b m).inLen = s.inLen := by cases b <;> rfl
@[simp] theorem withBuffer_decBits (s : State) (b : Buffer) (m : Memory) : (s.withBuffer b m).decBits = s.decBits := by cases b <;> rfl
@[simp] theorem withBuffer_decPos (s : State) (b : Buffer) (m : Memory) : (s.withBuffer b m).decPos = s.decPos := by cases b <;> rfl
@[simp] theorem withBuffer_decClen (s : State) (b : Buffer) (m : Memory) : (s.withBuffer b m).decClen = s.decClen := by cases b <;> rfl
@[simp] theorem withBuffer_chunk (s : State) (b : Buffer) (m : Memory) : (s.withBuffer b m).chunk = s.chunk := by cases b <;> rfl
@[simp] theorem withBuffer_symoutLen (s : State) (b : Buffer) (m : Memory) : (s.withBuffer b m).symoutLen = s.symoutLen := by cases b <;> rfl
@[simp] theorem withBuffer_upState (s : State) (b : Buffer) (m : Memory) : (s.withBuffer b m).upState = s.upState := by cases b <;> rfl
@[simp] theorem withBuffer_symSel (s : State) (b : Buffer) (m : Memory) : (s.withBuffer b m).symSel = s.symSel := by cases b <;> rfl
@[simp] theorem withBuffer_nodeSel (s : State) (b : Buffer) (m : Memory) : (s.withBuffer b m).nodeSel = s.nodeSel := by cases b <;> rfl
@[simp] theorem withBuffer_wlSel (s : State) (b : Buffer) (m : Memory) : (s.withBuffer b m).wlSel = s.wlSel := by cases b <;> rfl
@[simp] theorem withBuffer_lcBits (s : State) (b : Buffer) (m : Memory) : (s.withBuffer b m).lcBits = s.lcBits := by cases b <;> rfl

@[simp] theorem withBuffer_buffer_self (s : State) (b : Buffer) (m : Memory) : (s.withBuffer b m).buffer b = m := by
  cases b <;> rfl

theorem withBuffer_buffer_ne (s : State) {b c : Buffer} (m : Memory) (h : c ≠ b) :
    (s.withBuffer b m).buffer c = s.buffer c := by
  cases b <;> cases c <;> first | rfl | exact absurd rfl h

@[simp] theorem withBuffer_outbuf (s : State) (m : Memory) : s.withBuffer .outbuf m = { s with outbuf := m } := rfl

@[simp] theorem withBuffer_inbuf (s : State) (m : Memory) : s.withBuffer .inbuf m = { s with inbuf := m } := rfl

@[simp] theorem withBuffer_symout (s : State) (m : Memory) : s.withBuffer .symout m = { s with symout := m } := rfl

end Sys2Proof.Machine
end

