-- ==== Sys2Proof/Laws/Ops.lean ====
section
/-! SUPPORT. What each shared operation can do, said once. -/

namespace Sys2Proof.Machine

/-! Encoding. -/

/-- The opcode field of a command's word is its opcode (30_encoding R91). -/
@[simp] theorem opcField_encode (i : Instr) : opcField (encode i) = i.opcode.toBits := by
  unfold opcField encode
  apply BitVec.eq_of_getLsbD_eq
  intro k hk
  simp only [BitVec.getLsbD_extractLsb', BitVec.getLsbD_append]
  simp [hk]

@[simp] theorem Opcode.ofBits_toBits (o : Opcode) : Opcode.ofBits o.toBits = some o := by cases o <;> decide

/-- A byte that names an opcode is that opcode's byte (30_encoding R98). -/
theorem Opcode.toBits_of_ofBits {b : BitVec 8} {o : Opcode} (h : Opcode.ofBits b = some o) : o.toBits = b := by
  have := List.find?_some h
  simpa using this

/-! Bodies and how they end. -/

/-- A command's body gives a next state only as its result, or as an error recorded in the state before it. -/
theorem finish_next {i : Instr} {s t : State} {r : Cmd State} (h : finish i s r = .next t) :
    r = .ok t ∨ ∃ e, r = .error (.error e) ∧ t = raiseError (encode i) e s := by
  match r, h with
  | .ok u, h => exact .inl (by simpa [finish] using h)
  | .error (.error e), h => exact .inr ⟨e, rfl, by simpa [finish] using h.symm⟩
  | .error (.fault f), h => simp [finish] at h

@[simp] theorem finish_ok (i : Instr) (s t : State) : finish i s (.ok t) = .next t := rfl

@[simp] theorem finish_error (i : Instr) (s : State) (e : Raised) :
    finish i s (.error (.error e)) = .next (raiseError (encode i) e s) := rfl

@[simp] theorem finish_fault (i : Instr) (s : State) (f : Fault) : finish i s (.error (.fault f)) = .fault f := rfl

/-- Two bodies in a row give a result only through the first one's. -/
theorem bind_ok {α β : Type} {x : Cmd α} {f : α → Cmd β} {b : β} (h : x.bind f = .ok b) :
    ∃ a, x = .ok a ∧ f a = .ok b := by
  cases x with
  | error e => simp [Except.bind] at h
  | ok a => exact ⟨a, rfl, h⟩

@[simp] theorem ok_bind {α β : Type} (a : α) (f : α → Cmd β) : Except.bind (.ok a : Cmd α) f = f a := rfl

@[simp] theorem error_bind {α β : Type} (e : Halt) (f : α → Cmd β) : Except.bind (.error e : Cmd α) f = .error e := rfl

/-! Buffers. -/

/-- `MemWrite` in range. -/
theorem memWrite_ok {b : Buffer} {i : Nat} {s : State} (v : Byte) (h : i < capacityOf s.cfg b) :
    memWrite b i v s = .ok (s.withBuffer b (Cells.set (s.buffer b) i v)) := by simp [memWrite, h]

/-- What `MemWrite` can do: write its byte in range, or stop outside the buffer. -/
theorem memWrite_cases (b : Buffer) (i : Nat) (v : Byte) (s : State) :
    (i < capacityOf s.cfg b ∧ memWrite b i v s = .ok (s.withBuffer b (Cells.set (s.buffer b) i v))) ∨
    (capacityOf s.cfg b ≤ i ∧ memWrite b i v s = .error (.fault .outsideBuffer)) := by
  unfold memWrite stopping
  split
  · exact .inl ⟨by assumption, rfl⟩
  · exact .inr ⟨by omega, rfl⟩

/-- `MemRead` in range. -/
theorem memRead_ok {b : Buffer} {i : Nat} {s : State} (h : i < capacityOf s.cfg b) :
    memRead b i s = .ok (s.stored b i) := by simp [memRead, h]

/-- What `MemRead` can do. -/
theorem memRead_cases (b : Buffer) (i : Nat) (s : State) :
    (i < capacityOf s.cfg b ∧ memRead b i s = .ok (s.stored b i)) ∨
    (capacityOf s.cfg b ≤ i ∧ memRead b i s = .error (.fault .outsideBuffer)) := by
  unfold memRead stopping
  split
  · exact .inl ⟨by assumption, rfl⟩
  · exact .inr ⟨by omega, rfl⟩

/-- A stored byte after a write to the same buffer. -/
@[simp] theorem stored_withBuffer_set (s : State) (b : Buffer) (i j : Nat) (v : Byte) :
    (s.withBuffer b (Cells.set (s.buffer b) i v)).stored b j = if j = i then v else s.stored b j := by
  simp only [State.stored, withBuffer_buffer_self, Cells.get_set, withBuffer_draws]
  split <;> rfl

theorem stored_withBuffer_ne (s : State) {b c : Buffer} (m : Memory) (j : Nat) (h : c ≠ b) :
    (s.withBuffer b m).stored c j = s.stored c j := by
  simp only [State.stored, withBuffer_buffer_ne s m h, withBuffer_draws]

end Sys2Proof.Machine
end

