-- ==== Sys2Proof/Laws/CodeTable.lean ====
section
/-! SUPPORT. What the bodies of `ASSIGN` and `LOADCODE` can do, and the walk's paths. -/

namespace Sys2Proof.Machine

theorem assignBody_ok {s t : State} (h : assignBody s = .ok t) :
    s.tbState = .done ∧ s.ctState = .empty ∧ ∃ root r codes, s.wl = root :: r ∧ s.treeCodes root = some codes ∧
    t = { s with ct := enterCodes codes s.ct, ctCount := s.leaves, ctState := .tree } := by
  unfold assignBody sequenceError raising stopping at h
  split at h
  · cases h
  · rename_i hp
    rw [not_or, not_not, not_not] at hp
    split at h
    · cases h
    · split at h
      · cases h
      · cases h; exact ⟨hp.1, hp.2, _, _, _, by assumption, by assumption, rfl⟩

theorem loadcodeBody_ok {len sym : Nat} {s t : State} (h : loadcodeBody len sym s = .ok t) :
    s.ctState ≠ .tree ∧ len ≠ 0 ∧ s.staged < 2 ^ len ∧ s.codeOf sym = [] ∧
    firstClash s.ct (bstr s.staged len) = none ∧
    t = { s with ct := Cells.set s.ct sym (bstr s.staged len), ctCount := s.ctCount + 1, ctState := .loaded } := by
  unfold loadcodeBody sequenceError raising at h
  split at h
  · cases h
  split at h
  · cases h
  split at h
  · cases h
  split at h
  · cases h
  dsimp only at h
  rename_i h1 h2 h3 h4
  split at h
  · cases h
  · rename_i h5
    cases h
    exact ⟨h1, h2, by omega, not_not.1 h4, h5, rfl⟩

/-- The bits of `bstr(v, n)` (00_scope R11). -/
@[simp] theorem length_bstr (v n : Nat) : (bstr v n).length = n := by
  induction n with
  | zero => rfl
  | succ n ih => simp [bstr, ih]

theorem valFrom_eq (n : Nat) (x : Bits) : valFrom n x = n * 2 ^ x.length + valFrom 0 x := by
  induction x generalizing n with
  | nil => simp [valFrom]
  | cons b x ih =>
    simp only [valFrom, List.length_cons]
    rw [ih, ih (2 * 0 + b.toNat), pow_succ]
    ring

/-- `val(bstr(v, n)) = v` for `v < 2^n` (00_scope R11). -/
theorem val_bstr {v n : Nat} (h : v < 2 ^ n) : val (bstr v n) = v := by
  unfold val
  induction n generalizing v with
  | zero =>
    have : v = 0 := by simpa using h
    subst this; rfl
  | succ n ih =>
    have hm : ∀ k, bstr (v % 2 ^ n) k = bstr v k ∨ n < k := by
      intro k
      induction k with
      | zero => exact .inl rfl
      | succ k ihk =>
        by_cases hk : n < k + 1
        · exact .inr hk
        · left
          rcases ihk with ihk | ihk
          · simp only [bstr, ihk, Nat.testBit_mod_two_pow]
            have : k < n := by omega
            simp [this]
          · omega
    have hb : bstr v n = bstr (v % 2 ^ n) n := ((hm n).resolve_right (by omega)).symm
    simp only [bstr, valFrom]
    rw [valFrom_eq, length_bstr, hb, ih (Nat.mod_lt _ (Nat.two_pow_pos n))]
    have h2 : (v.testBit n).toNat = v / 2 ^ n := by
      have h4 : v / 2 ^ n < 2 := by rw [Nat.div_lt_iff_lt_mul (Nat.two_pow_pos n)]; rw [pow_succ] at h; omega
      rw [Nat.testBit_eq_decide_div_mod_eq]
      generalize v / 2 ^ n = q at h4 ⊢
      interval_cases q <;> rfl
    rw [h2]
    have h3 := Nat.div_add_mod v (2 ^ n)
    rw [Nat.mul_comm] at h3
    rw [Nat.mul_zero, Nat.zero_add]
    exact h3

/-- Two bitstrings clash exactly when one is a prefix of the other (41_code_table R134). -/
theorem clashes_iff (x y : Bits) : clashes x y = true ↔ x <+: y ∨ y <+: x := by
  unfold clashes
  rcases le_total x.length y.length with h | h
  · simp only [Nat.min_eq_left h, List.take_length, beq_iff_eq]
    constructor
    · intro e; left; rw [e]; exact List.take_prefix _ _
    · rintro (e | e)
      · exact (List.prefix_iff_eq_take.1 e)
      · have := e.eq_of_length (le_antisymm e.length_le h); subst this; simp
  · simp only [Nat.min_eq_right h, List.take_length, beq_iff_eq]
    constructor
    · intro e; right; rw [← e]; exact List.take_prefix _ _
    · rintro (e | e)
      · have := e.eq_of_length (le_antisymm e.length_le h); subst this; simp
      · exact (List.prefix_iff_eq_take.1 e).symm

/-- A walk succeeds in one of two ways: at a leaf, or through both children. -/
theorem walk_cases {s : State} {fuel i : Nat} {path : Bits} {xs : List (Nat × Bits)}
    (h : walk s (fuel + 1) i path = some xs) :
    (∃ c sym, s.nodeAt i = some (.leaf c sym) ∧ xs = [(sym, path)]) ∨
    (∃ c l r ys zs, s.nodeAt i = some (.internal c l r) ∧ walk s fuel l (path ++ [leftBit]) = some ys ∧
      walk s fuel r (path ++ [rightBit]) = some zs ∧ xs = ys ++ zs) := by
  simp only [walk] at h
  split at h
  · cases h
  · rename_i c sym hn; cases h; exact .inl ⟨c, sym, hn, rfl⟩
  · rename_i c l r hn
    split at h
    · rename_i ys zs hy hz; cases h; exact .inr ⟨c, l, r, ys, zs, hn, hy, hz, rfl⟩
    · cases h

/-- Every path of a walk extends the path it began with. -/
theorem walk_extends {s : State} {fuel i : Nat} {path : Bits} {xs : List (Nat × Bits)}
    (h : walk s fuel i path = some xs) : ∀ p ∈ xs, path <+: p.2 := by
  induction fuel generalizing i path xs with
  | zero => simp [walk] at h
  | succ n ih =>
    rcases walk_cases h with ⟨c, sym, -, rfl⟩ | ⟨c, l, r, ys, zs, -, hy, hz, rfl⟩
    · simp
    · intro p hp
      rcases List.mem_append.1 hp with hp | hp
      · exact (List.prefix_append _ _).trans (ih hy p hp)
      · exact (List.prefix_append _ _).trans (ih hz p hp)

/-- Different leaves of a walk have paths of which neither is a prefix of the other (41_code_table R135). -/
theorem walk_prefix_free {s : State} {fuel i : Nat} {path : Bits} {xs : List (Nat × Bits)}
    (h : walk s fuel i path = some xs) : xs.Pairwise (fun p q => ¬ p.2 <+: q.2 ∧ ¬ q.2 <+: p.2) := by
  induction fuel generalizing i path xs with
  | zero => simp [walk] at h
  | succ n ih =>
    rcases walk_cases h with ⟨c, sym, -, rfl⟩ | ⟨c, l, r, ys, zs, -, hy, hz, rfl⟩
    · simp
    · refine List.pairwise_append.2 ⟨ih hy, ih hz, fun p hp q hq => ?_⟩
      have h1 := walk_extends hy p hp
      have h2 := walk_extends hz q hq
      have key : ∀ a b : Bits, path ++ [leftBit] <+: a → path ++ [rightBit] <+: b → ¬ a <+: b ∧ ¬ b <+: a := by
        rintro a b ⟨a', rfl⟩ ⟨b', rfl⟩
        simp [leftBit, rightBit, List.append_assoc]
      exact key _ _ h1 h2

end Sys2Proof.Machine
end

