-- ==== Sys2Proof/Laws/Packer.lean ====
section
/-! SUPPORT. What the bodies of `ENC`, `PUTBITS`, `FLUSH` and `XFER` can do. -/

namespace Sys2Proof.Machine

/-- Only the packer of `t`, its phase aside, may differ from `s`. -/
abbrev SameButPacker (s t : State) : Prop :=
  t = { s with outbuf := t.outbuf, outLen := t.outLen, bitcnt := t.bitcnt, acc := t.acc, accN := t.accN }

theorem SameButPacker.trans {s t u : State} (h1 : SameButPacker s t) (h2 : SameButPacker t u) : SameButPacker s u := by
  unfold SameButPacker at *
  rw [h2, h1]

/-- One appended bit: into the pending bits, or, the eighth, as a byte of `OUTBUF` (42_encode_pack R150). -/
theorem appendBit_cases (b : Bool) (s : State) :
    (s.accN + 1 ≠ 8 ∧
      appendBit b s = .ok { s with bitcnt := s.bitcnt + 1, acc := 2 * s.acc + b.toNat, accN := s.accN + 1 }) ∨
    (s.accN + 1 = 8 ∧ s.outLen < s.cfg.outCap ∧
      appendBit b s = .ok { s with
        outbuf := Cells.set s.outbuf s.outLen (BitVec.ofNat 8 (2 * s.acc + b.toNat))
        outLen := s.outLen + 1, bitcnt := s.bitcnt + 1, acc := 0, accN := 0 }) ∨
    (s.accN + 1 = 8 ∧ s.cfg.outCap ≤ s.outLen ∧ appendBit b s = .error (.fault .outsideBuffer)) := by
  unfold appendBit
  by_cases h8 : s.accN + 1 = 8
  · right
    rcases memWrite_cases .outbuf s.outLen (BitVec.ofNat 8 (2 * s.acc + b.toNat)) s with ⟨h, e⟩ | ⟨h, e⟩
    · left; rw [if_pos h8, e]; exact ⟨h8, h, rfl⟩
    · right; rw [if_pos h8, e]; exact ⟨h8, h, rfl⟩
  · left; rw [if_neg h8]; exact ⟨h8, rfl⟩

theorem appendBits_same {x : Bits} {s t : State} (h : appendBits x s = .ok t) : SameButPacker s t := by
  induction x generalizing s with
  | nil => cases h; rfl
  | cons b x ih =>
    obtain ⟨u, hu, ht⟩ := bind_ok h
    refine SameButPacker.trans ?_ (ih ht)
    rcases appendBit_cases b s with ⟨-, e⟩ | ⟨-, -, e⟩ | ⟨-, -, e⟩ <;> rw [e] at hu <;> cases hu <;> rfl

/-- `AppendBits` raises no error. -/
theorem appendBits_error {x : Bits} {s : State} {e : Halt} (h : appendBits x s = .error e) : ∃ f, e = .fault f := by
  induction x generalizing s with
  | nil => cases h
  | cons b x ih =>
    simp only [appendBits] at h
    rcases appendBit_cases b s with ⟨-, e⟩ | ⟨-, -, e⟩ | ⟨-, -, e⟩ <;> rw [e] at h
    · exact ih h
    · exact ih h
    · cases h; exact ⟨_, rfl⟩

theorem appendChecked_ok {x : Bits} {s t : State} (h : appendChecked x s = .ok t) :
    1 + (s.bitcnt + x.length + 7) / 8 ≤ s.cfg.outCap ∧ appendBits x s = .ok t := by
  unfold appendChecked State.fits raising at h
  split at h
  · rename_i hf; exact ⟨by simpa using hf, h⟩
  · cases h

theorem encBody_ok {sym : Nat} {s t : State} (h : encBody sym s = .ok t) :
    s.ctState ≠ .empty ∧ s.pkState = .opened ∧ s.codeOf sym ≠ [] ∧ appendChecked (s.codeOf sym) s = .ok t := by
  unfold encBody sequenceError State.lookup raising at h
  split at h
  · cases h
  · rename_i hp
    rw [not_or, not_not] at hp
    by_cases hc : s.codeOf sym = []
    · simp [hc] at h
    · simp only [hc, if_false] at h; exact ⟨hp.1, hp.2, hc, h⟩

theorem putbitsBody_ok {x : Bits} {s t : State} (h : putbitsBody x s = .ok t) :
    s.pkState = .opened ∧ appendChecked x s = .ok t := by
  unfold putbitsBody sequenceError raising at h
  split at h
  · cases h
  · exact ⟨not_not.1 (by assumption), h⟩

/-- The last byte of `FLUSH`: none pending, or one written (42_encode_pack R155). -/
theorem flushPending_cases (s : State) :
    (s.accN = 0 ∧ flushPending s = .ok s) ∨
    (0 < s.accN ∧ s.outLen < s.cfg.outCap ∧
      flushPending s = .ok { s with
        outbuf := Cells.set s.outbuf s.outLen (BitVec.ofNat 8 (s.acc * 2 ^ padding s.bitcnt))
        outLen := s.outLen + 1 }) ∨
    (0 < s.accN ∧ s.cfg.outCap ≤ s.outLen ∧ flushPending s = .error (.fault .outsideBuffer)) := by
  unfold flushPending
  by_cases h0 : 0 < s.accN
  · right
    rcases memWrite_cases .outbuf s.outLen (BitVec.ofNat 8 (s.acc * 2 ^ padding s.bitcnt)) s with ⟨h, e⟩ | ⟨h, e⟩
    · left; rw [if_pos h0, e]; exact ⟨h0, h, rfl⟩
    · right; rw [if_pos h0, e]; exact ⟨h0, h, rfl⟩
  · left; rw [if_neg h0]; exact ⟨by omega, rfl⟩

theorem flushBody_ok {s t : State} (h : flushBody s = .ok t) :
    s.pkState = .opened ∧ ∃ u, flushPending s = .ok u ∧ 0 < s.cfg.outCap ∧
    t = { u with
      outbuf := Cells.set u.outbuf 0 (BitVec.ofNat 8 (padding s.bitcnt)), acc := 0, accN := 0, pkState := .flushed } := by
  unfold flushBody sequenceError raising at h
  split at h
  · cases h
  · rename_i hp
    obtain ⟨u, hu, h⟩ := bind_ok h
    have hc : u.cfg = s.cfg := by
      rcases flushPending_cases s with ⟨-, e⟩ | ⟨-, -, e⟩ | ⟨-, -, e⟩ <;> rw [e] at hu <;> cases hu <;> rfl
    rcases memWrite_cases .outbuf 0 (BitVec.ofNat 8 (padding s.bitcnt)) u with ⟨h0, e⟩ | ⟨h0, e⟩ <;> rw [e] at h
    · cases h; exact ⟨not_not.1 hp, u, hu, by rw [← hc]; exact h0, rfl⟩
    · cases h

/-- `FLUSH` raises no error after its phase check. -/
theorem flushBody_error {s : State} {e : Halt} (hp : s.pkState = .opened) (h : flushBody s = .error e) :
    ∃ f, e = .fault f := by
  unfold flushBody at h
  rw [if_neg (by simp [hp])] at h
  rcases flushPending_cases s with ⟨-, e⟩ | ⟨-, -, e⟩ | ⟨-, -, e⟩ <;> rw [e] at h
  · simp only [ok_bind] at h
    rcases memWrite_cases .outbuf 0 (BitVec.ofNat 8 (padding s.bitcnt)) s with ⟨h0, e⟩ | ⟨h0, e⟩ <;>
      rw [e] at h <;> cases h
    exact ⟨_, rfl⟩
  · simp only [ok_bind] at h
    generalize { s with
        outbuf := Cells.set s.outbuf s.outLen (BitVec.ofNat 8 (s.acc * 2 ^ padding s.bitcnt))
        outLen := s.outLen + 1 } = u at h
    rcases memWrite_cases .outbuf 0 (BitVec.ofNat 8 (padding s.bitcnt)) u with ⟨h0, e⟩ | ⟨h0, e⟩ <;>
      rw [e] at h <;> cases h
    exact ⟨_, rfl⟩
  · cases h; exact ⟨_, rfl⟩

/-- The copy of `XFER`: bytes below `n` come from `OUTBUF`, the rest stay, and nothing else changes. -/
theorem copyOut_ok {n : Nat} {s : State} (h1 : n ≤ s.cfg.outCap) (h2 : n ≤ s.cfg.inCap) :
    ∃ t, copyOut n s = .ok t ∧ t = { s with inbuf := t.inbuf } ∧
      ∀ i, t.stored .inbuf i = if i < n then s.stored .outbuf i else s.stored .inbuf i := by
  induction n with
  | zero => exact ⟨s, rfl, rfl, fun i => by simp⟩
  | succ n ih =>
    obtain ⟨t, ht, hs, hb⟩ := ih (by omega) (by omega)
    have hc : t.cfg = s.cfg := by rw [hs]
    have ho : t.stored .outbuf n = s.stored .outbuf n := by rw [hs]; rfl
    refine ⟨t.withBuffer .inbuf (Cells.set (t.buffer .inbuf) n (t.stored .outbuf n)), ?_, ?_, ?_⟩
    · simp only [copyOut, ht, ok_bind]
      rw [memRead_ok (show n < capacityOf t.cfg .outbuf by rw [hc]; exact h1), ok_bind,
        memWrite_ok _ (show n < capacityOf t.cfg .inbuf by rw [hc]; exact h2)]
    · simp only [withBuffer_inbuf]; rw [hs]
    · intro i
      rw [stored_withBuffer_set, hb, ho]
      by_cases hi : i = n
      · subst hi; simp
      · by_cases hlt : i < n
        · simp [hi, hlt, Nat.lt_succ_of_lt hlt]
        · have : ¬ i < n + 1 := by omega
          simp [hi, hlt, this]

/-- Whatever the copy of `XFER` gives differs in `INBUF` alone. -/
theorem copyOut_same {n : Nat} {s t : State} (h : copyOut n s = .ok t) : t = { s with inbuf := t.inbuf } := by
  induction n generalizing t with
  | zero => cases h; rfl
  | succ n ih =>
    obtain ⟨u, hu, h⟩ := bind_ok h
    obtain ⟨v, -, h⟩ := bind_ok h
    rcases memWrite_cases .inbuf n v u with ⟨-, e⟩ | ⟨-, e⟩ <;> rw [e] at h <;> cases h
    simp only [withBuffer_inbuf]
    rw [ih hu]

/-- The copy of `XFER` raises no error. -/
theorem copyOut_error {n : Nat} {s : State} {e : Halt} (h : copyOut n s = .error e) : ∃ f, e = .fault f := by
  induction n generalizing e with
  | zero => cases h
  | succ n ih =>
    simp only [copyOut] at h
    cases hc : copyOut n s with
    | error e' => rw [hc] at h; cases h; exact ih hc
    | ok u =>
      rw [hc, ok_bind] at h
      rcases memRead_cases .outbuf n u with ⟨-, e⟩ | ⟨-, e⟩ <;> rw [e] at h
      · rw [ok_bind] at h
        rcases memWrite_cases .inbuf n (u.stored .outbuf n) u with ⟨-, e⟩ | ⟨-, e⟩ <;> rw [e] at h <;> cases h
        exact ⟨_, rfl⟩
      · cases h; exact ⟨_, rfl⟩

theorem xferBody_ok {s t : State} (h : xferBody s = .ok t) :
    s.pkState = .flushed ∧ s.outLen ≤ s.cfg.inCap ∧ ∃ u, copyOut s.outLen s = .ok u ∧
    t = { u with inLen := s.outLen, upState := .idle } := by
  unfold xferBody sequenceError raising at h
  split at h
  · cases h
  · rename_i hp
    split at h
    · cases h
    · obtain ⟨u, hu, h⟩ := bind_ok h
      cases h
      exact ⟨not_not.1 hp, by omega, u, hu, rfl⟩

end Sys2Proof.Machine
end

