-- ==== Sys2Proof/Laws/Tree.lean ====
section
/-! SUPPORT. What the bodies of `COUNT`, `TBINIT`, `MERGE` and `BUILD` can do. -/

namespace Sys2Proof.Machine

/-- Only the node store, the working list and `TB_STATE` of `t` may differ from `s`. -/
abbrev SameButTree (s t : State) : Prop :=
  t = { s with nodes := t.nodes, nodeCount := t.nodeCount, wl := t.wl, wlLen := t.wlLen, tbState := t.tbState }

theorem SameButTree.trans {s t u : State} (h1 : SameButTree s t) (h2 : SameButTree t u) : SameButTree s u := by
  unfold SameButTree at *
  rw [h2, h1]

theorem countBody_ok {sym : Nat} {s t : State} (h : countBody sym s = .ok t) :
    s.tbState = .idle ∧ s.total ≠ s.cfg.countMax ∧
    t = { s with
      leaves := if s.freqOf sym = 0 then s.leaves + 1 else s.leaves
      freq := Cells.set s.freq sym (s.freqOf sym + 1)
      total := s.total + 1 } := by
  unfold countBody sequenceError raising at h
  split at h
  · cases h
  · split at h
    · cases h
    · cases h; exact ⟨by_contra fun hc => by contradiction, by assumption, rfl⟩

theorem initTree_ok {s t : State} (h : initTree s = .ok t) :
    s.leaves ≠ 0 ∧
    t = { s with
      nodes := leafNodes 0 (s.leafOrder.take s.leaves)
      nodeCount := s.leaves
      wl := List.range s.leaves
      wlLen := s.leaves
      tbState := if s.leaves = 1 then .done else .loaded } := by
  unfold initTree raising at h
  split at h
  · cases h
  · cases h; exact ⟨by assumption, rfl⟩

/-- Where `MERGE` sets the new node in the list `r` of the others: after every count not above the sum. -/
def mergePoint (s : State) (c : Nat) (r : List Nat) : Nat := (r.filter (fun j => decide (s.countAt j ≤ c))).length

theorem mergeOnce_ok {s t : State} (h : mergeOnce s = .ok t) :
    ∃ a b r, s.wl = a :: b :: r ∧ (∀ i ∈ s.wl, (s.nodeAt i).isSome = true) ∧
    t = { s with
      nodes := Cells.set s.nodes s.nodeCount (.internal (s.countAt a + s.countAt b) a b)
      nodeCount := s.nodeCount + 1
      wl := r.take (mergePoint s (s.countAt a + s.countAt b) r) ++ s.nodeCount ::
        r.drop (mergePoint s (s.countAt a + s.countAt b) r)
      wlLen := s.wlLen - 1
      tbState := if s.wlLen - 1 = 1 then .done else s.tbState } := by
  unfold mergeOnce stopping at h
  split at h
  · rename_i a b r hwl
    split at h
    · rename_i hall
      cases h
      exact ⟨a, b, r, hwl, by simpa using hall, rfl⟩
    · cases h
  · cases h

/-- `MERGE` after its phase check raises no error (40_tree_builder R113). -/
theorem mergeOnce_error {s : State} {e : Halt} (h : mergeOnce s = .error e) : ∃ f, e = .fault f := by
  unfold mergeOnce stopping at h
  split at h
  · split at h <;> cases h
    exact ⟨_, rfl⟩
  · cases h; exact ⟨_, rfl⟩

theorem mergeOnce_same {s t : State} (h : mergeOnce s = .ok t) : SameButTree s t := by
  obtain ⟨a, b, r, -, -, rfl⟩ := mergeOnce_ok h
  rfl

theorem mergeAll_ok {n : Nat} {s t : State} (h : mergeAll n s = .ok t) :
    SameButTree s t ∧ t.tbState ≠ .loaded ∧ (s.tbState = .loaded → t.tbState = .done) ∧
    (s.tbState ≠ .loaded → t = s) := by
  induction n generalizing s with
  | zero =>
    unfold mergeAll stopping at h
    split at h
    · cases h
    · cases h; rename_i hl; exact ⟨rfl, hl, fun hc => absurd hc hl, fun _ => rfl⟩
  | succ n ih =>
    unfold mergeAll at h
    split at h
    · rename_i hl
      obtain ⟨u, hu, ht⟩ := bind_ok h
      obtain ⟨h1, h2, h3, h4⟩ := ih ht
      refine ⟨(mergeOnce_same hu).trans h1, h2, fun _ => ?_, fun hc => absurd hl hc⟩
      by_cases hul : u.tbState = .loaded
      · exact h3 hul
      · rw [h4 hul]
        obtain ⟨a, b, r, -, -, hu'⟩ := mergeOnce_ok hu
        have : u.tbState = if s.wlLen - 1 = 1 then .done else s.tbState := by rw [hu']
        rw [this] at hul ⊢
        split at hul
        · rw [if_pos (by assumption)]
        · exact absurd hl hul
    · cases h; rename_i hl; exact ⟨rfl, hl, fun hc => absurd hc hl, fun _ => rfl⟩

/-- The merges of `BUILD` raise no error (40_tree_builder R114). -/
theorem mergeAll_error {n : Nat} {s : State} {e : Halt} (h : mergeAll n s = .error e) : ∃ f, e = .fault f := by
  induction n generalizing s with
  | zero =>
    unfold mergeAll stopping at h
    split at h <;> cases h
    exact ⟨_, rfl⟩
  | succ n ih =>
    unfold mergeAll at h
    split at h
    · cases hm : mergeOnce s with
      | error e' => rw [hm] at h; cases h; exact mergeOnce_error hm
      | ok u => rw [hm] at h; exact ih h
    · cases h

end Sys2Proof.Machine
end

