-- ==== Sys2Proof/Laws/Unpacker.lean ====
section
/-! SUPPORT. What the bodies of `UNPACK` and `DECODE` can do. -/

namespace Sys2Proof.Machine

theorem unpackBody_ok {s t : State} (h : unpackBody s = .ok t) :
    s.inLen ≠ 0 ∧ 0 < s.cfg.inCap ∧ (s.stored .inbuf 0).toNat ≤ 7 ∧ (s.stored .inbuf 0).toNat ≤ 8 * (s.inLen - 1) ∧
    t = { s with
      decBits := 8 * (s.inLen - 1) - (s.stored .inbuf 0).toNat
      decPos := 0, decClen := 0, chunk := [], symoutLen := 0, upState := .ready } := by
  unfold unpackBody raising at h
  split at h
  · cases h
  · rename_i h0
    rcases memRead_cases .inbuf 0 s with ⟨hc, e⟩ | ⟨-, e⟩ <;> rw [e] at h
    · simp only [ok_bind] at h
      split at h
      · cases h
      · split at h
        · cases h
        · cases h; exact ⟨h0, hc, by omega, by omega, rfl⟩
    · cases h

/-- `PayloadBit(p)` inside `INBUF` (20_memory R80). -/
theorem payloadBit_ok {p : Nat} {s : State} (h : 1 + p / 8 < s.cfg.inCap) :
    payloadBit p s = .ok ((s.stored .inbuf (1 + p / 8)).getLsbD (7 - p % 8)) := by
  unfold payloadBit
  rw [memRead_ok (show 1 + p / 8 < capacityOf s.cfg .inbuf from h)]
  rfl

theorem payloadBit_error {p : Nat} {s : State} {e : Halt} (h : payloadBit p s = .error e) : ∃ f, e = .fault f := by
  unfold payloadBit at h
  rcases memRead_cases .inbuf (1 + p / 8) s with ⟨-, e⟩ | ⟨-, e⟩ <;> rw [e] at h <;> cases h
  exact ⟨_, rfl⟩

/-- A symbol into `SYMOUT`: stored in range, or outside the buffer. -/
theorem emitSymbol_cases (sym : Nat) (s : State) :
    (s.symoutLen < s.cfg.symoutCap ∧ emitSymbol sym s = .ok { s with
      symout := Cells.set s.symout s.symoutLen (BitVec.ofNat 8 sym)
      symoutLen := s.symoutLen + 1, chunk := [], decClen := 0 }) ∨
    (s.cfg.symoutCap ≤ s.symoutLen ∧ emitSymbol sym s = .error (.fault .outsideBuffer)) := by
  unfold emitSymbol
  rcases memWrite_cases .symout s.symoutLen (BitVec.ofNat 8 sym) s with ⟨h, e⟩ | ⟨h, e⟩ <;> rw [e]
  · exact .inl ⟨h, rfl⟩
  · exact .inr ⟨h, rfl⟩

/-- Only `SYMOUT`, the decoder's progress and `UP_STATE` of `t` may differ from `s`. -/
abbrev SameButDecoder (s t : State) : Prop :=
  t = { s with decPos := t.decPos, decClen := t.decClen, chunk := t.chunk, symout := t.symout
               symoutLen := t.symoutLen, upState := t.upState }

theorem SameButDecoder.trans {s t u : State} (h1 : SameButDecoder s t) (h2 : SameButDecoder t u) :
    SameButDecoder s u := by
  unfold SameButDecoder at *
  rw [h2, h1]

/-- A chunk of 255 bits takes no further bit (10_state R65, log 6). -/
theorem decodeBits_full (n : Nat) {s : State} (h : Config.codeLenMax ≤ s.decClen) :
    decodeBits (n + 1) s = .ok (s, some s.chunkTooLong) := by simp [decodeBits, h]

/-- What one round of `DECODE` can do with the bit it reads (43_unpack_decode R173). -/
theorem decodeBits_succ (n : Nat) (s : State) {b : Bool} (hc : s.decClen < Config.codeLenMax)
    (h : payloadBit s.decPos s = .ok b) :
    decodeBits (n + 1) s =
      match matchCode s.ct (s.chunk ++ [b]) with
      | some sym =>
        if s.symoutLen = s.cfg.symoutCap then
          .ok (takeBit b s, some ⟨.bufferOverflow, 3, (takeBit b s).chunkStart, sym⟩)
        else (emitSymbol sym (takeBit b s)).bind (decodeBits n)
      | none =>
        if s.decClen + 1 = Config.codeLenMax then
          .ok (takeBit b s, some (takeBit b s).chunkTooLong)
        else decodeBits n (takeBit b s) := by
  simp only [decodeBits, if_neg (Nat.not_le.2 hc), h, ok_bind]
  rfl

theorem decodeBits_same {n : Nat} {s t : State} {e : Option Raised} (h : decodeBits n s = .ok (t, e)) :
    SameButDecoder s t ∧ (e = none → t.upState = .done) ∧
    (∀ r, e = some r → t.upState = s.upState ∧ r.code ≠ .none) := by
  induction n generalizing s with
  | zero =>
    simp only [decodeBits] at h
    split at h <;> cases h
    · exact ⟨rfl, by simp, fun r hr => by cases hr; exact ⟨rfl, by simp⟩⟩
    · exact ⟨rfl, fun _ => rfl, by simp⟩
  | succ n ih =>
    by_cases hc : Config.codeLenMax ≤ s.decClen
    · rw [decodeBits_full n hc] at h
      cases h
      exact ⟨rfl, by simp, fun r hr => by cases hr; exact ⟨rfl, by simp [State.chunkTooLong]⟩⟩
    cases hb : payloadBit s.decPos s with
    | error x => simp [decodeBits, hc, hb] at h
    | ok b =>
      rw [decodeBits_succ n s (Nat.lt_of_not_le hc) hb] at h
      have hu : (takeBit b s).upState = s.upState := rfl
      have ht : SameButDecoder s (takeBit b s) := rfl
      split at h
      · rename_i sym hm
        split at h
        · cases h; exact ⟨rfl, by simp, fun r hr => by cases hr; exact ⟨rfl, by simp⟩⟩
        · rcases emitSymbol_cases sym (takeBit b s) with ⟨-, he⟩ | ⟨-, he⟩ <;> rw [he] at h
          · obtain ⟨h1, h2, h3⟩ := ih h
            exact ⟨SameButDecoder.trans (by rfl) h1, h2, h3⟩
          · cases h
      · split at h
        · cases h; exact ⟨rfl, by simp, fun r hr => by cases hr; exact ⟨rfl, by simp [State.chunkTooLong]⟩⟩
        · obtain ⟨h1, h2, h3⟩ := ih h
          exact ⟨ht.trans h1, h2, h3⟩

/-- The chunk stays within 255 bits, and its length is `DEC_CLEN` (10_state R65). -/
theorem decodeBits_chunk {n : Nat} {s t : State} {e : Option Raised} (h : decodeBits n s = .ok (t, e))
    (h1 : s.chunk.length = s.decClen) (h2 : s.decClen ≤ Config.codeLenMax) :
    t.chunk.length = t.decClen ∧ t.decClen ≤ Config.codeLenMax := by
  induction n generalizing s with
  | zero => simp only [decodeBits] at h; split at h <;> cases h <;> exact ⟨h1, h2⟩
  | succ n ih =>
    by_cases hc : Config.codeLenMax ≤ s.decClen
    · rw [decodeBits_full n hc] at h; cases h; exact ⟨h1, h2⟩
    have k1 : ∀ b, (takeBit b s).chunk.length = (takeBit b s).decClen := fun b => by simp [takeBit, h1]
    have k2 : ∀ b, (takeBit b s).decClen ≤ Config.codeLenMax := fun b => Nat.lt_of_not_le hc
    cases hb : payloadBit s.decPos s with
    | error x => simp [decodeBits, hc, hb] at h
    | ok b =>
      rw [decodeBits_succ n s (Nat.lt_of_not_le hc) hb] at h
      split at h
      · split at h
        · cases h; exact ⟨k1 b, k2 b⟩
        · rcases emitSymbol_cases ‹_› (takeBit b s) with ⟨-, he⟩ | ⟨-, he⟩ <;> rw [he] at h
          · exact ih h rfl (Nat.zero_le _)
          · cases h
      · split at h
        · cases h; exact ⟨k1 b, k2 b⟩
        · exact ih h (k1 b) (k2 b)

/-- The loop of `DECODE` stops early only with a fault; its errors come with their progress. -/
theorem decodeBits_error {n : Nat} {s : State} {e : Halt} (h : decodeBits n s = .error e) : ∃ f, e = .fault f := by
  induction n generalizing s with
  | zero => simp only [decodeBits] at h; split at h <;> cases h
  | succ n ih =>
    by_cases hc : Config.codeLenMax ≤ s.decClen
    · rw [decodeBits_full n hc] at h; cases h
    cases hb : payloadBit s.decPos s with
    | error x => simp only [decodeBits, if_neg hc, hb, error_bind] at h; cases h; exact payloadBit_error hb
    | ok b =>
      rw [decodeBits_succ n s (Nat.lt_of_not_le hc) hb] at h
      split at h
      · rename_i sym hm
        split at h
        · cases h
        · rcases emitSymbol_cases sym (takeBit b s) with ⟨-, he⟩ | ⟨-, he⟩ <;> rw [he] at h
          · exact ih h
          · cases h; exact ⟨_, rfl⟩
      · split at h
        · cases h
        · exact ih h

end Sys2Proof.Machine
end

