-- ==== Sys2Proof/Laws/Command.lean ====
section
/-! SUPPORT. What a command can do, and what a step can do, said once. -/

namespace Sys2Proof.Machine

/-- The state `CLEAR mask` leaves (44_control R192). -/
def clearedState (mask : BitVec 5) (s : State) : State :=
  let s := if mask.getLsbD 0 then clearTree s else s
  let s := if mask.getLsbD 1 then clearTable s else s
  let s := if mask.getLsbD 2 then clearPacker s else s
  let s := if mask.getLsbD 3 then clearUnpacker s else s
  if mask.getLsbD 4 then clearError s else s

/-- The body of every command but `DECODE`. -/
def bodyOf : Instr → State → Cmd State
  | .nop, s => .ok s
  | .clear mask, s => .ok (clearedState mask s)
  | .count sym, s => countBody sym.toNat s
  | .tbinit, s => tbinitBody s
  | .merge, s => mergeBody s
  | .build, s => buildBody s
  | .assign, s => assignBody s
  | .loadcode len sym, s => loadcodeBody len.toNat sym.toNat s
  | .enc sym, s => encBody sym.toNat s
  | .putbits n v, s => putbitsBody (rawBits n v) s
  | .flush, s => flushBody s
  | .xfer, s => xferBody s
  | .unpack, s => unpackBody s
  | .decode, s => .ok s

/-- Every command but `DECODE` ends as its body does. -/
theorem exec_eq_finish {i : Instr} (s : State) (h : i ≠ .decode) : exec i s = finish i s (bodyOf i s) := by
  cases i <;> first | rfl | exact absurd rfl h

/-- What a command but `DECODE` leads to: its body's state, or an error recorded in the state before it. -/
theorem exec_next {i : Instr} {s t : State} (hi : i ≠ .decode) (h : exec i s = .next t) :
    bodyOf i s = .ok t ∨ ∃ e, bodyOf i s = .error (.error e) ∧ t = raiseError (encode i) e s := by
  rw [exec_eq_finish s hi] at h
  exact finish_next h

/-- What `DECODE` leads to: a raise in the state before it, or its progress with the error it ends in, if any. -/
theorem execDecode_next {s t : State} (h : exec .decode s = .next t) :
    ((s.upState ≠ .ready ∨ s.ctState = .empty) ∧
      t = raiseError (encode .decode) ⟨.sequenceError, 0, s.status.toNat, 0⟩ s) ∨
    (s.upState = .ready ∧ s.ctState ≠ .empty ∧ ∃ u e, decodeBits (s.decBits - s.decPos) s = .ok (u, e) ∧
      t = match e with
        | none => u
        | some r => raiseError (encode .decode) r u) := by
  change finishDecode s (decodeBody s) = .next t at h
  unfold decodeBody at h
  split at h
  · rename_i hp
    left
    refine ⟨hp, ?_⟩
    simpa [finishDecode, sequenceError, raising] using h.symm
  · rename_i hp
    rw [not_or, not_not] at hp
    right
    refine ⟨hp.1, hp.2, ?_⟩
    cases hd : decodeBits (s.decBits - s.decPos) s with
    | error x =>
      obtain ⟨f, rfl⟩ := decodeBits_error hd
      rw [hd] at h
      simp [finishDecode] at h
    | ok r =>
      obtain ⟨u, e⟩ := r
      rw [hd] at h
      refine ⟨u, e, rfl, ?_⟩
      cases e <;> simpa [finishDecode] using h.symm

/-- A legal word's command and its checks (30_encoding R98, R99). -/
theorem decode_ok {c : Config} {w : Word} {i : Instr} (h : decode c w = .ok i) :
    ∃ o, o.toBits = opcField w ∧ reservedClear o.format w = true ∧ operandIllegal c o.format w = none ∧
      i = instrOf o w := by
  unfold decode at h
  split at h
  · cases h
  · rename_i o ho
    split at h
    · split at h
      · cases h
      · cases h; exact ⟨o, Opcode.toBits_of_ofBits ho, by assumption, by assumption, rfl⟩
    · cases h

/-- The gate's well-formed `CLEAR` is what decodes to `CLEAR` (60_exceptions R206). -/
theorem isClear_iff (c : Config) (w : Word) : isClear w = true ↔ ∃ m, decode c w = .ok (.clear m) := by
  constructor
  · intro h
    simp only [isClear, Bool.and_eq_true, beq_iff_eq] at h
    have : Opcode.ofBits (opcField w) = some .clear := by rw [h.1]; decide
    exact ⟨maskField w, by simp [decode, this, Opcode.format, reservedClear, h.2, operandIllegal, instrOf]⟩
  · rintro ⟨m, h⟩
    obtain ⟨o, h1, h2, -, h4⟩ := decode_ok h
    cases o <;> simp [instrOf] at h4
    simp only [Opcode.format, reservedClear, beq_iff_eq] at h2
    simp [isClear, ← h1, Opcode.toBits, h2]

/-- `CMD` is at one offset (10_state R23). -/
theorem portOf_eq_cmd {off : Offset} (h4 : off.toNat % 4 = 0) (h : portOf off = .cmd) : off = cmdOffset := by
  unfold portOf portOfWord at h
  generalize hn : off.toNat / 4 = n at h
  split at h
  · rename_i h32
    have : n = 4 := by
      clear h4 hn
      interval_cases n <;> simp [firstPorts] at h
      rfl
    apply BitVec.eq_of_toNat_eq
    simp [cmdOffset]
    omega
  · repeat' split at h
    all_goals cases h

/-- A `CMD` write executes its word (10_state R29). -/
theorem step_of_command {s : State} {rest : List HostAction} {w : Word}
    (h : s.host = .write .word cmdOffset w :: rest) :
    step s = execute w { s with host := rest, reply := .silent } := by
  have h1 : portOf cmdOffset = .cmd := by decide
  have h2 : insideInterface .word cmdOffset = true := by decide
  simp [step, hostStep, h, perform, h2, busWrite, h1]

/-- What one step can do: wait, answer a read, reset, store at a register or in the `INBUF` window, ignore a command,
raise `IllegalCommand`, or execute a command. -/
theorem step_next {s t : State} (h : step s = .next t) :
    (s.host = [] ∧ t = s) ∨
    ∃ a rest, s.host = a :: rest ∧
      ((∃ r, t = { s with host := rest, reply := r }) ∨
       (a = .reset ∧ t = resetBlock { s with host := rest }) ∨
       (∃ off v, a = .write .word off v ∧ t = writePort v { s with host := rest, reply := .silent } (portOf off)) ∨
       (∃ w e, a = .write .word cmdOffset w ∧ s.err.code = .none ∧ decode s.cfg w = .error e ∧
          t = raiseIllegal w e { s with host := rest, reply := .silent }) ∨
       (∃ w i, a = .write .word cmdOffset w ∧ (s.err.code = .none ∨ ∃ m, i = .clear m) ∧ decode s.cfg w = .ok i ∧
          exec i { s with host := rest, reply := .silent } = .next t)) := by
  unfold step hostStep at h
  split at h
  · cases h; exact .inl ⟨by assumption, rfl⟩
  rename_i a rest ha
  refine .inr ⟨a, rest, ha, ?_⟩
  cases a with
  | read w off => simp only [perform] at h; split at h <;> cases h; exact .inl ⟨_, rfl⟩
  | readIrq => simp only [perform] at h; cases h; exact .inl ⟨_, rfl⟩
  | reset => simp only [perform] at h; cases h; exact .inr (.inl ⟨rfl, rfl⟩)
  | write wd off v =>
    simp only [perform] at h
    split at h
    · rename_i hi
      simp only [insideInterface, Bool.and_eq_true, beq_iff_eq] at hi
      obtain ⟨rfl, h4⟩ := hi
      unfold busWrite at h
      split at h
      · rename_i hp
        obtain rfl := portOf_eq_cmd h4 hp
        unfold execute at h
        split at h
        · cases h; exact .inl ⟨_, rfl⟩
        · rename_i hg
          have hg : s.err.code = .none ∨ isClear v = true := by
            cases hc : isClear v
            · left; simpa [gated, State.errored, hc] using hg
            · exact .inr rfl
          split at h
          · rename_i e he
            cases h
            refine .inr (.inr (.inr (.inl ⟨v, e, rfl, hg.resolve_right fun hc => ?_, he, rfl⟩)))
            obtain ⟨m, hm⟩ := (isClear_iff s.cfg v).1 hc
            simp only [hm] at he
            cases he
          · rename_i i hd
            refine .inr (.inr (.inr (.inr ⟨v, i, rfl, hg.imp id fun hc => ?_, hd, h⟩)))
            obtain ⟨m, hm⟩ := (isClear_iff s.cfg v).1 hc
            simp only [hm] at hd
            cases hd
            exact ⟨m, rfl⟩
      · cases h; exact .inr (.inr (.inl ⟨off, v, rfl, rfl⟩))
    · cases h

/-- A bus write but to `CMD` changes `CTRL`, the select and staging registers, `IN_LEN` and `INBUF` at most
(20_memory R72). -/
theorem writePort_same (v : Word) (s : State) (p : Port) :
    writePort v s p = { s with
      errIe := (writePort v s p).errIe, symSel := (writePort v s p).symSel, nodeSel := (writePort v s p).nodeSel
      wlSel := (writePort v s p).wlSel, lcBits := (writePort v s p).lcBits
      inLen := (writePort v s p).inLen, inbuf := (writePort v s p).inbuf } := by
  cases p <;> try rfl
  · simp only [writePort]; split <;> rfl
  · simp only [writePort, writeInbuf, writeLane]; split <;> split <;> split <;> split <;> rfl

end Sys2Proof.Machine
end

