-- ==== Sys2Proof/Laws/PerInstr.lean ====
section
/-! SUPPORT. Facts about every command as a word, one lemma per constructor. -/

namespace Sys2Proof.Laws.OpcodeField

/-- The encoder's word carries the command's opcode byte, which names that opcode and no other. -/
def Statement (i : Instr) : Prop :=
  opcField (encode i) = i.opcode.toBits ∧ Opcode.ofBits (opcField (encode i)) = some i.opcode

/-- Every command's word carries its opcode. -/
theorem holds (i : Instr) : Statement i :=
  ⟨Machine.opcField_encode i, by rw [Machine.opcField_encode, Machine.Opcode.ofBits_toBits]⟩

theorem nop : Statement .nop := holds _
theorem clear (mask : BitVec 5) : Statement (.clear mask) := holds _
theorem count (sym : BitVec 16) : Statement (.count sym) := holds _
theorem tbinit : Statement .tbinit := holds _
theorem merge : Statement .merge := holds _
theorem build : Statement .build := holds _
theorem assign : Statement .assign := holds _
theorem loadcode (len : BitVec 8) (sym : BitVec 16) : Statement (.loadcode len sym) := holds _
theorem enc (sym : BitVec 16) : Statement (.enc sym) := holds _
theorem putbits (n : BitVec 5) (val : BitVec 16) : Statement (.putbits n val) := holds _
theorem flush : Statement .flush := holds _
theorem xfer : Statement .xfer := holds _
theorem unpack : Statement .unpack := holds _
theorem decode : Statement .decode := holds _

end Sys2Proof.Laws.OpcodeField
end

