-- ==== Sys2Proof/Tests/Slice0.lean ====
section
/-! SUPPORT. The model's own tests: the checks of WellFormed, a word of the spec for every command, single steps with the
results 95_test_vectors gives, and a witness of the hypotheses of every statement that has some. -/

namespace Sys2Proof.Tests

open Sys2Proof Sys2Proof.Machine Sys2Proof.Claims

/-! WellFormed refuses an operand beyond each condition (30_encoding R98; 95_test_vectors L2.1). -/

theorem test_wf_count_range : ¬ WellFormed Config.default (.count 0x100#16) := by decide
theorem test_wf_enc_range : ¬ WellFormed Config.default (.enc 0x100#16) := by decide
theorem test_wf_loadcode_range : ¬ WellFormed Config.default (.loadcode 2#8 0x100#16) := by decide
theorem test_wf_putbits_count : ¬ WellFormed Config.default (.putbits 17#5 0#16) := by decide
theorem test_wf_putbits_stray : ¬ WellFormed Config.default (.putbits 2#5 4#16) := by decide
theorem test_wf_putbits_full : WellFormed Config.default (.putbits 16#5 0xFFFF#16) := by decide

/-! Words written out from the encodings of 30_encoding R91 to R98: opcode, then operand bits. -/

theorem test_decode_nop : decodeTableWord 32 0x00000000 = some .nop := by decide
theorem test_decode_clear : decodeTableWord 32 0x0100001F = some (.clear 0x1F#5) := by decide
theorem test_decode_count : decodeTableWord 32 0x10000061 = some (.count 0x61#16) := by decide
theorem test_decode_tbinit : decodeTableWord 32 0x20000000 = some .tbinit := by decide
theorem test_decode_merge : decodeTableWord 32 0x21000000 = some .merge := by decide
theorem test_decode_build : decodeTableWord 32 0x22000000 = some .build := by decide
theorem test_decode_assign : decodeTableWord 32 0x30000000 = some .assign := by decide
theorem test_decode_loadcode : decodeTableWord 32 0x311000FF = some (.loadcode 0x10#8 0xFF#16) := by decide
theorem test_decode_enc : decodeTableWord 32 0x4000007A = some (.enc 0x7A#16) := by decide
theorem test_decode_putbits : decodeTableWord 32 0x410901C1 = some (.putbits 9#5 0x1C1#16) := by decide
theorem test_decode_flush : decodeTableWord 32 0x42000000 = some .flush := by decide
theorem test_decode_xfer : decodeTableWord 32 0x43000000 = some .xfer := by decide
theorem test_decode_unpack : decodeTableWord 32 0x50000000 = some .unpack := by decide
theorem test_decode_decode : decodeTableWord 32 0x51000000 = some .decode := by decide

/-- 95_test_vectors L2.1, the illegal rows, and with `SYM_BITS = 4` the two at the edge. -/
theorem test_decode_rejects :
    decode Config.default 0x00000001#32 = .error .reservedBits ∧
    decode Config.default 0x10FF0061#32 = .error .reservedBits ∧
    decode Config.default 0x41110000#32 = .error .bitCount ∧
    decode Config.default 0x41020004#32 = .error .strayBits ∧
    decode { Config.default with symBits := 4 } 0x10000010#32 = .error .symbolRange ∧
    decode { Config.default with symBits := 4 } 0x1000000F#32 = .ok (.count 0x0F#16) := by decide

/-! The states along 95_test_vectors P1, the text "aaabbc". -/

/-- After the six `COUNT`s. -/
def counted : State := { State.reset with freq := [(0x61, 3), (0x62, 2), (0x63, 1)], total := 6, leaves := 3 }

/-- After `TBINIT`. -/
def loaded : State :=
  { counted with
    nodes := [(0, .leaf 1 0x63), (1, .leaf 2 0x62), (2, .leaf 3 0x61)]
    nodeCount := 3, wl := [0, 1, 2], wlLen := 3, tbState := .loaded }

/-- After the first `MERGE`. -/
def merged : State :=
  { loaded with nodes := loaded.nodes ++ [(3, .internal 3 0 1)], nodeCount := 4, wl := [2, 3], wlLen := 2 }

/-- After the second `MERGE`, or after `BUILD`. -/
def built : State :=
  { merged with
    nodes := merged.nodes ++ [(4, .internal 6 2 3)], nodeCount := 5, wl := [4], wlLen := 1, tbState := .done }

/-- After `ASSIGN`. -/
def assigned : State :=
  { built with ct := [(0x61, [true]), (0x62, [false, false]), (0x63, [false, true])], ctCount := 3, ctState := .tree }

/-- After the six `ENC`s. -/
def packedNine : State := { assigned with outbuf := [(0, 0#8), (1, 0xE0#8)], outLen := 2, bitcnt := 9, acc := 1, accN := 1 }

/-- After `FLUSH`. -/
def flushed : State :=
  { packedNine with outbuf := [(0, 0x07#8), (1, 0xE0#8), (2, 0x80#8)], outLen := 3, acc := 0, accN := 0, pkState := .flushed }

/-- After `XFER`. -/
def moved : State := { flushed with inbuf := [(0, 0x07#8), (1, 0xE0#8), (2, 0x80#8)], inLen := 3 }

/-- After `UNPACK`. -/
def unpacked : State := { moved with decBits := 9, upState := .ready }

/-- After `DECODE`. -/
def decoded : State :=
  { unpacked with
    decPos := 9, symoutLen := 6, upState := .done
    symout := [(0, 0x61#8), (1, 0x61#8), (2, 0x61#8), (3, 0x62#8), (4, 0x62#8), (5, 0x63#8)] }

/-- The outcome is a next state that passes a check. -/
def ends (o : Host.Outcome State Fault Refusal) (p : State → Bool) : Bool :=
  match o with
  | .next t => p t
  | .fault _ => false
  | .refused _ => false

/-- The outcome records an error: `ERR`, `ERR_INFO0`, `ERR_INFO1`. -/
def errs (o : Host.Outcome State Fault Refusal) (err info0 info1 : Word) : Bool :=
  ends o (fun t => t.err.toWord == err && t.err.info0 == info0 && t.err.info1 == info1)

/-- The state after reset with an error recorded by the command word `w`. -/
def raisedBy (w : Word) : State := raiseError w ⟨.sequenceError, 0, 0, 0⟩ State.reset

/-! One command each, from 95_test_vectors P1 and L2. -/

theorem test_nop : exec .nop assigned = .next assigned := rfl
theorem test_clear_tree : ends (exec (.clear 0x01#5) decoded) (fun t => t.status == 0x54#32 && t.ct == assigned.ct) = true := by
  decide
theorem test_clear_error : ends (exec (.clear 0x10#5) (raisedBy 0x21000000#32)) (fun t => t == State.reset) = true := by decide
theorem test_count : ends (exec (.count 0x63#16)
    { State.reset with freq := [(0x61, 3), (0x62, 2)], total := 5, leaves := 2 }) (fun t => t == counted) = true := by decide
theorem test_count_overflow : errs (exec (.count 0x61#16)
    { State.reset with cfg := { Config.default with countBits := 2 }, freq := [(0x61, 2), (0x62, 1)], total := 3, leaves := 2 })
    0x00100107#32 0x61#32 2#32 = true := by decide
theorem test_tbinit : ends (exec .tbinit counted) (fun t => t == loaded) = true := by decide
theorem test_tbinit_empty : errs (exec .tbinit State.reset) 0x00200201#32 0#32 0#32 = true := by decide
theorem test_merge : ends (exec .merge loaded) (fun t => t == merged) = true := by decide
theorem test_merge_sequence : errs (exec .merge State.reset) 0x00210206#32 0#32 0#32 = true := by decide
theorem test_build : ends (exec .build counted) (fun t => t == built) = true := by decide
theorem test_build_twice : errs (exec .build built) 0x00220206#32 2#32 0#32 = true := by decide
theorem test_assign : ends (exec .assign built) (fun t => t == assigned) = true := by decide
theorem test_assign_twice : errs (exec .assign assigned) 0x00300306#32 6#32 0#32 = true := by decide
theorem test_loadcode : ends (exec (.loadcode 0x10#8 0xFF#16) State.reset)
    (fun t => t.ct == [(0xFF, List.replicate 16 false)] && t.status == 8#32) = true := by decide
theorem test_loadcode_extends : errs (exec (.loadcode 3#8 0x64#16)
    { State.reset with ct := [(0x63, [false, true])], ctCount := 1, ctState := .loaded, lcBits := #v[3, 0, 0, 0, 0, 0, 0, 0] })
    0x00310344#32 0x64#32 0x63#32 = true := by decide
theorem test_enc : ends (exec (.enc 0x63#16)
    { assigned with bitcnt := 7, acc := 0x70, accN := 7 }) (fun t => t == packedNine) = true := by decide
theorem test_enc_unknown : errs (exec (.enc 0x7A#16) assigned) 0x00400402#32 0x7A#32 0#32 = true := by decide
theorem test_putbits : ends (exec (.putbits 9#5 0x1C1#16) State.reset)
    (fun t => t.outbuf == packedNine.outbuf && t.bitcnt == 9 && readPkAcc t == 0x101#32) = true := by decide
theorem test_putbits_full : errs (exec (.putbits 1#5 1#16)
    { State.reset with cfg := { Config.default with outCap := 2 }, outbuf := [(0, 0#8), (1, 0xB3#8)], outLen := 2, bitcnt := 8 })
    0x00410618#32 8#32 1#32 = true := by decide
theorem test_flush : ends (exec .flush packedNine) (fun t => t == flushed) = true := by decide
theorem test_flush_twice : errs (exec .flush { State.reset with pkState := .flushed }) 0x00420606#32 0x10#32 0#32 = true := by
  decide
theorem test_xfer : ends (exec .xfer flushed) (fun t => t == moved) = true := by decide
theorem test_xfer_full : errs (exec .xfer { flushed with cfg := { Config.default with inCap := 2 } })
    0x00430628#32 3#32 2#32 = true := by decide
theorem test_unpack : ends (exec .unpack moved) (fun t => t == unpacked) = true := by decide
theorem test_unpack_header : errs (exec .unpack { State.reset with inbuf := [(0, 3#8)], inLen := 1 })
    0x00500633#32 3#32 1#32 = true := by decide
theorem test_decode : ends (exec .decode unpacked) (fun t => t == decoded) = true := by decide
theorem test_decode_full : errs (exec .decode { unpacked with cfg := { Config.default with symoutCap := 2 } })
    0x00510538#32 2#32 0x61#32 = true := by decide

/-! Steps, the bus and reset, from 95_test_vectors L2.6 to L2.8. -/

theorem test_step_runs_command : ends (step (State.reset.withFetchWord 32 0x41030001))
    (fun t => t.bitcnt == 3 && readPkAcc t == 0x301#32 && t.host == []) = true := by decide
theorem test_step_ignores : ends (step ((raisedBy 0x21000000#32).withFetchWord 32 0x10000061))
    (fun t => t.freq == [] && t.err == (raisedBy 0x21000000#32).err) = true := by decide
theorem test_step_illegal : ends (step (State.reset.withFetchWord 32 0xFF000000))
    (fun t => t.err.toWord == 0x00FF0715#32 && t.err.info0 == 0xFF000000#32) = true := by decide
theorem test_step_clears_error : ends (step ((raisedBy 0x21000000#32).withFetchWord 32 0x0100001F))
    (fun t => t.err == ErrRecord.clear) = true := by decide
theorem test_read_id : busRead State.reset 0x000#19 = 0x48434501#32 := by decide
theorem test_read_param : busRead State.reset 0x004#19 = 0x0003FE08#32 := by decide
theorem test_read_outbuf : busRead flushed 0x10000#19 = 0x0080E007#32 := by decide
theorem test_read_root : busRead built 0x034#19 = 0x80000004#32 := by decide
theorem test_read_node : busRead { built with nodeSel := 4#9 } 0x074#19 = 0x00030002#32 := by decide
theorem test_read_symout : busRead decoded 0x4000C#19 = 0x62#32 := by decide
theorem test_write_inbuf : ends (step { State.reset with host := [.write .word 0x20000#19 0x44332211#32] })
    (fun t => t.inbuf == [(0, 0x11#8), (1, 0x22#8), (2, 0x33#8), (3, 0x44#8)]) = true := by decide
theorem test_write_in_len : ends (step { State.reset with
    cfg := { Config.default with inCap := 64 }, host := [.write .word 0x048#19 0x41#32] }) (fun t => t.inLen == 0) = true := by
  decide
theorem test_irq : ends (step { raisedBy 0x21000000#32 with errIe := true, host := [.readIrq] })
    (fun t => t.reply == .level true && t.status == 0x180#32) = true := by decide
theorem test_reset : ends (step { decoded with host := [.reset] })
    (fun t => t.status == 0#32 && t.outLen == 1 && t.ct == [] && t.symoutLen == 0) = true := by decide

/-! Witnesses: for every statement with hypotheses, a state and operands that meet them, clause by clause. -/

/-- After reset, with the host's next actions given. -/
def asking (a : HostAction) : State := { State.reset with host := [a] }

/-- A write of a command word after reset. -/
def commanding (w : Word) : State := asking (.write .word cmdOffset w)

/-- A text of one letter, counted and built. -/
def lone : State :=
  { State.reset with
    freq := [(0x61, 4)], total := 4, leaves := 1, nodes := [(0, .leaf 4 0x61)], nodeCount := 1, wl := [0], wlLen := 1
    tbState := .done }

/-- The code `'1'` of one letter, loaded, with nothing else. -/
def oneCode : State := { State.reset with ct := [(0x61, [true])], ctCount := 1, ctState := .loaded }

/-- `oneCode` with the stream of "aaabbc" unpacked (95_test_vectors L2.5). -/
def oneCodeReady : State := { oneCode with inbuf := moved.inbuf, inLen := 3, decBits := 9, upState := .ready }

/-- `oneCode` with 32 zero payload bytes unpacked (95_test_vectors L2.5). -/
def zerosReady : State :=
  { oneCode with inbuf := (List.range 33).map (fun i => (i, 0#8)), inLen := 33, decBits := 256, upState := .ready }

/-- The only code of `oneCode` and of the states made from it. -/
theorem code_of_oneCode {s : State} (h : s.ct = [(0x61, [true])]) {x : Nat} (hx : s.codeOf x ≠ []) :
    x = 0x61 ∧ s.codeOf x = [true] := by
  simp only [State.codeOf, Cells.get, h] at hx ⊢
  split at hx
  · simp_all
  · simp at hx

theorem witness_EncodeThenDecodeIsIdentity :
    WellFormed Config.default .nop ∧ WellFormed Config.default (.clear 0x1F#5) ∧
    WellFormed Config.default (.count 0xFF#16) ∧ WellFormed Config.default (.loadcode 0xFF#8 0xFF#16) ∧
    WellFormed Config.default (.enc 0xFF#16) ∧ WellFormed Config.default (.putbits 16#5 0xFFFF#16) ∧
    WellFormed { Config.default with symBits := 1 } (.count 1#16) := by decide

theorem witness_DecodeThenEncodeIsIdentity : decode Config.default 0x410901C1#32 = .ok (.putbits 9#5 0x1C1#16) := by decide

theorem witness_FirstFailingCheck :
    legality Config.default 0xFF000000 = 1 ∧ legality Config.default 0x01000020 = 2 ∧
    legality Config.default 0x10000100 = 3 ∧ legality Config.default 0x41110000 = 4 ∧
    legality Config.default 0x41020004 = 5 ∧ legality Config.default 0x4110FFFF = 0 := by decide

theorem witness_StepExecutesDecodedCommand :
    (commanding 0x10000061#32).host = .write .word cmdOffset 0x10000061#32 :: [] ∧
    decode State.reset.cfg 0x10000061#32 = .ok (.count 0x61#16) ∧ (commanding 0x10000061#32).err.code = .none ∧
    decode State.reset.cfg 0x01000010#32 = .ok (.clear 0x10#5) := by decide

theorem witness_IgnoredCommandChangesNothing :
    (raisedBy 0x21000000#32).err.code ≠ .none ∧ ∀ m, decode State.reset.cfg 0x10000061#32 ≠ .ok (.clear m) := by
  refine ⟨by decide, fun m h => ?_⟩
  have : decode State.reset.cfg 0x10000061#32 = .ok (.count 0x61#16) := by decide
  rw [this] at h
  cases h

theorem witness_IllegalWordRaisesIllegalCommand :
    (commanding 0xFF000000#32).host = .write .word cmdOffset 0xFF000000#32 :: [] ∧ State.reset.err.code = .none ∧
    legality State.reset.cfg 0xFF000000 ≠ 0 := by decide

theorem witness_ErrorsNeverNest : ∃ t, (raisedBy 0x21000000#32).err.code ≠ .none ∧
    step ((raisedBy 0x21000000#32).withFetchWord 32 0x01000010) = .next t := ⟨_, by decide, rfl⟩

/-- A `merge` after reset raises: the hypotheses of the statements about a command that raises. -/
theorem witness_CommandsButDecodeArePrecise : ∃ t, Instr.merge ≠ .decode ∧ State.reset.err.code = .none ∧
    exec .merge State.reset = .next t ∧ t.err.code ≠ .none := ⟨_, by decide, rfl, rfl, by decide⟩

/-- Each command that can raise does so from one of these states, with the stage of its opcode. -/
theorem witness_RaisedStageIsTheOpcodesStage :
    ([(.count 0x61#16, built, .counting), (.tbinit, built, .building), (.merge, built, .building),
      (.build, built, .building), (.assign, assigned, .assigning), (.loadcode 1#8 0x61#16, assigned, .assigning),
      (.enc 0x61#16, flushed, .encoding), (.decode, decoded, .decoding), (.putbits 0#5 0#16, flushed, .packing),
      (.flush, flushed, .packing), (.xfer, assigned, .packing), (.unpack, State.reset, .packing)] :
        List (Instr × State × Stage)).all
      (fun p => ends (exec p.1 p.2.1) (fun t => t.err.code != .none && t.err.stage == p.2.2)) = true := by decide

theorem witness_CommandsKeepHostRegisters : ∃ t, exec .tbinit counted = .next t := ⟨_, rfl⟩

/-- A command of each unit that raises nothing: every transition of 10_state R66. -/
theorem witness_PhasesFollowTheTransitionTable :
    ([(.tbinit, counted), (.merge, loaded), (.merge, merged), (.build, counted), (.assign, built),
      (.loadcode 0x10#8 0xFF#16, State.reset), (.flush, packedNine), (.xfer, flushed), (.unpack, moved),
      (.decode, unpacked), (.clear 0x1F#5, decoded), (.clear 0#5, decoded), (.nop, decoded)] : List (Instr × State)).all
      (fun p => ends (exec p.1 p.2) (fun t => t.err.code == .none)) = true := by decide

theorem witness_WrongPhaseRaisesSequenceError :
    loaded.tbState ≠ .idle ∧ State.reset.tbState ≠ .loaded ∧ built.tbState ≠ .loaded ∧ built.tbState = .done ∧
    State.reset.tbState ≠ .done ∧ assigned.ctState ≠ .empty ∧ assigned.ctState = .tree ∧ State.reset.ctState = .empty ∧
    flushed.pkState = .flushed ∧ State.reset.pkState = .opened ∧ decoded.upState ≠ .ready ∧
    unpacked.upState = .ready := by decide

theorem witness_BlockWaitsForTheHost : State.reset.host = [] := rfl

theorem witness_ReadsHaveNoSideEffect :
    (asking (.read .word 0x7FFFC#19)).host = .read .word 0x7FFFC#19 :: [] ∧ (0x7FFFC#19).toNat % 4 = 0 ∧
    (asking .readIrq).host = .readIrq :: [] := by decide

theorem witness_AccessOutsideInterfaceIsRefused :
    (Width.half ≠ .word ∨ (0x000#19).toNat % 4 ≠ 0) ∧ (Width.word ≠ .word ∨ (0x011#19).toNat % 4 ≠ 0) ∧
    (asking (.read .half 0x000#19)).host = .read .half 0x000#19 :: [] ∧
    ∃ v, (asking (.write .word 0x011#19 5#32)).host = .write .word 0x011#19 v :: [] :=
  ⟨by decide, by decide, rfl, 5#32, rfl⟩

theorem witness_WritesElsewhereAreIgnored :
    ([0x000, 0x00C, 0x07C, 0x09C, 0x0C0, 0x10000, 0x21000, 0x2FFFC, 0x30000, 0x7FFFC] : List Nat).all (fun n =>
      n % 4 == 0 && !decide (n ∈ [0x008, 0x010, 0x048, 0x05C, 0x068, 0x078]) && !decide (0x0A0 ≤ n ∧ n < 0x0C0) &&
      !decide (0x20000 ≤ n ∧ n < 0x20000 + State.reset.cfg.inCap ∧ n < 0x30000)) = true := by decide

theorem witness_ReservedOffsetsReadZeroAndIgnoreWrites :
    (asking (.write .word 0x0CC#19 5#32)).host = .write .word 0x0CC#19 5#32 :: [] ∧ (0x0CC#19).toNat % 4 = 0 ∧
    (0x0CC ≤ 0xFFFC ∧ 0xFFFC < 0x10000) ∧ (0x30000 ≤ 0x3FFFC ∧ 0x3FFFC < 0x40000) ∧
    (0x10000 + State.reset.cfg.outCap ≤ 0x11000 ∧ 0x11000 < 0x20000) ∧
    (0x20000 + State.reset.cfg.inCap ≤ 0x2FFFC ∧ 0x2FFFC < 0x30000) ∧
    0x40000 + 4 * State.reset.cfg.symoutCap ≤ 0x60000 := by decide

theorem witness_RegisterWritesStoreTheirFields : State.reset.cfg.Legal ∧ State.reset.inLen ≤ State.reset.cfg.inCap ∧
    ([0x008#19, 0x048#19, 0x05C#19, 0x068#19, 0x078#19] : List Offset).all (fun off =>
      (asking (.write .word off 0xFFFFFFFF#32)).host == [.write .word off 0xFFFFFFFF#32]) = true := by decide

theorem witness_StagingRegistersFormTheStagedValue :
    (asking (.write .word 0x0BC#19 1#32)).host =
      .write .word (BitVec.ofNat 19 (0x0A0 + 4 * (7 : Fin 8).val)) 1#32 :: [] := by decide

theorem witness_InbufWriteSetsItsLanes : 0x3FFF < 0x4000 ∧
    (asking (.write .word 0x2FFFC#19 1#32)).host =
      .write .word (BitVec.ofNat 19 (0x20000 + 4 * 0x3FFF)) 1#32 :: [] := by decide

theorem witness_WindowsAreLittleEndianLanes : 0x3FFF < 0x4000 ∧ 3 < 4 := by decide

theorem witness_SymoutWindowShowsOneSymbolAWord :
    decoded.symoutLen ≤ decoded.cfg.symoutCap ∧ 5 < 0x10000 ∧ 0xFFFF < 0x10000 := by decide

/-- Streams that differ only at and beyond `OUT_LEN`. -/
theorem witness_StaleBufferBytesAreInvisible :
    (∀ i, i < packedNine.outLen → Cells.get [(0, 0#8), (1, 0xE0#8), (2, 0xFF#8)] i = Cells.get packedNine.outbuf i) ∧
    (∀ j, j < packedNine.symoutLen → Cells.get [(0, 7#8)] j = Cells.get packedNine.symout j) := by decide

theorem witness_ConstantRegistersShowTheConfiguration :
    Config.default.Legal ∧ Config.Legal ⟨1, 1, 2, 1, 1⟩ ∧ Config.Legal ⟨8, 32, 65536, 65536, 65536⟩ := by decide

/-! Sound states, by their parts. -/

theorem reset_sound : State.reset.Sound := by constructor <;> decide
theorem counted_sound : counted.Sound := by constructor <;> decide
theorem merged_sound : merged.Sound := by constructor <;> decide
theorem built_sound : built.Sound := by constructor <;> decide
theorem lone_sound : lone.Sound := by constructor <;> decide
theorem assigned_sound : assigned.Sound := by constructor <;> decide
theorem packedNine_sound : packedNine.Sound := by constructor <;> decide
theorem unpacked_sound : unpacked.Sound := by constructor <;> decide
theorem oneCodeReady_sound : oneCodeReady.Sound := by constructor <;> decide
theorem zerosReady_sound : zerosReady.Sound := by constructor <;> decide

theorem witness_LookupPortShowsCountLengthAndBits :
    { assigned with symSel := 0x61#8 }.Sound ∧ 0x61 = { assigned with symSel := 0x61#8 }.symSel.toNat % assigned.cfg.nsym :=
  ⟨by constructor <;> decide, by decide⟩

/-- A leaf, the root, the first index with no node; the only position of the working list, and the first beyond it. -/
theorem witness_InspectionWindowsShowTheTree :
    (built.Sound ∧ built.nodeAt built.nodeSel.toNat = some (.leaf 1 0x63) ∧ built.wl[built.wlSel.toNat]? = some 4) ∧
    ({ built with nodeSel := 4#9, wlSel := 1#9 }.Sound ∧ built.nodeAt (4#9).toNat = some (.internal 6 2 3) ∧
      (4#9).toNat < built.nodeCount ∧ built.wlLen ≤ (1#9).toNat) ∧
    ({ built with nodeSel := 5#9 }.Sound ∧ built.nodeCount ≤ (5#9).toNat) :=
  ⟨⟨built_sound, by decide⟩, ⟨by constructor <;> decide, by decide⟩, by constructor <;> decide, by decide⟩

theorem witness_CountersAreShownWhole : merged.Sound ∧ merged.tbState ≠ .done ∧ built.Sound ∧
    built.tbState = .done := ⟨merged_sound, by decide, built_sound, by decide⟩

theorem witness_NopLeavesTheStateUnchanged :
    { raisedBy 0x21000000#32 with host := [.write .word cmdOffset 0x00000000#32] }.host =
      .write .word cmdOffset 0x00000000#32 :: [] := rfl

theorem witness_ClearResetsTheSelectedUnits :
    { raisedBy 0x21000000#32 with host := [.write .word cmdOffset 0x0100001F#32] }.host =
      .write .word cmdOffset (0x01000000#32 ||| (0x1F#5).setWidth 32) :: [] := by decide

theorem witness_ResetGivesEveryResetValue : { decoded with host := [.reset] }.host = .reset :: [] := rfl

theorem witness_CountCountsOneOccurrence : WellFormed counted.cfg (.count 0xFF#16) ∧ counted.tbState = .idle ∧
    counted.total ≠ counted.cfg.countMax := by decide

theorem witness_FullCounterAndEmptyAlphabetRaise : State.reset.tbState = .idle ∧ State.reset.leaves = 0 ∧
    { counted with total := 0xFFFFFFFF }.total = counted.cfg.countMax ∧ Instr.tbinit ∈ [Instr.tbinit, Instr.build] ∧
    Instr.build ∈ [Instr.tbinit, Instr.build] := by decide

theorem witness_TbinitLoadsSortedLeaves :
    counted.Canonical ∧ counted.CountsAdd ∧ counted.tbState = .idle ∧ counted.leaves ≠ 0 := by decide

theorem witness_MergeJoinsTheTwoSmallest :
    loaded.TreeSound ∧ loaded.tbState = .loaded ∧ merged.TreeSound ∧ merged.tbState = .loaded ∧ merged.wlLen = 2 := by decide

theorem witness_BuildIsTbinitThenMerges :
    (counted.tbState = .idle ∧ counted.leaves ≠ 0 ∧ ∃ t, exec .tbinit counted = .next t) ∧
    loaded.tbState = .loaded ∧ ∃ t, exec .merge loaded = .next t := ⟨⟨rfl, by decide, _, rfl⟩, rfl, _, rfl⟩

theorem witness_BuildMakesTheWholeTree :
    counted.Sound ∧ counted.tbState ≠ .done ∧ counted.leaves ≠ 0 ∧ merged.Sound ∧ merged.tbState ≠ .done :=
  ⟨counted_sound, by decide, by decide, merged_sound, by decide⟩

theorem witness_AssignRecordsThePathsOfTheTree :
    built.Sound ∧ built.tbState = .done ∧ built.ctState = .empty ∧ 2 ≤ built.leaves ∧ 1 ≤ built.freqOf 0x61 ∧
    lone.Sound ∧ lone.tbState = .done ∧ lone.leaves = 1 ∧ 1 ≤ lone.freqOf 0x61 :=
  ⟨built_sound, rfl, rfl, by decide, by decide, lone_sound, rfl, rfl, by decide⟩

theorem witness_CodesArePrefixFree : assigned.Sound ∧ 0x61 ≠ 0x62 ∧ assigned.codeOf 0x61 ≠ [] ∧ assigned.codeOf 0x62 ≠ [] :=
  ⟨assigned_sound, by decide⟩

theorem witness_AssignedTableIsComplete : ∃ t, built.Sound ∧ 2 ≤ built.leaves ∧ built.ctState = .empty ∧
    exec .assign built = .next t ∧ t.ctState = .tree := ⟨_, built_sound, by decide, rfl, rfl, rfl⟩

theorem witness_LoadcodeEntersThePair :
    WellFormed oneCode.cfg (.loadcode 0xFF#8 0xFF#16) ∧ Cells.Rising oneCode.ct ∧ oneCode.ctState ≠ .tree ∧ 0xFF#8 ≠ 0#8 ∧
    oneCode.staged < 2 ^ (0xFF#8).toNat ∧ oneCode.codeOf (0xFF#16).toNat = [] ∧
    ∀ y, oneCode.codeOf y ≠ [] → ¬ oneCode.codeOf y <+: bstr oneCode.staged (0xFF#8).toNat ∧
      ¬ bstr oneCode.staged (0xFF#8).toNat <+: oneCode.codeOf y := by
  refine ⟨by decide, by decide, by decide, by decide, by decide, by decide, fun y hy => ?_⟩
  obtain ⟨-, h⟩ := code_of_oneCode rfl hy
  rw [h]
  decide

/-- A length of 0; a value too large for its length; a symbol with a code; a code that extends another symbol's. -/
theorem witness_LoadcodeRejectsMalformedPairs :
    (Cells.Rising oneCode.ct ∧ oneCode.ctState ≠ .tree) ∧
    (2 ^ (1#8).toNat ≤ { oneCode with lcBits := #v[2, 0, 0, 0, 0, 0, 0, 0] }.staged) ∧
    (oneCode.staged < 2 ^ (1#8).toNat ∧ oneCode.codeOf (0x61#16).toNat ≠ []) ∧
    ({ oneCode with lcBits := #v[3, 0, 0, 0, 0, 0, 0, 0] }.staged < 2 ^ (2#8).toNat ∧ oneCode.codeOf (0x62#16).toNat = [] ∧
      oneCode.codeOf 0x61 ≠ [] ∧ oneCode.codeOf 0x61 <+: bstr 3 (2#8).toNat ∧
      ∀ z, z < 0x61 → oneCode.codeOf z = []) := by
  refine ⟨by decide, by decide, by decide, by decide, by decide, by decide, by decide, fun z hz => ?_⟩
  by_contra h
  have := (code_of_oneCode rfl h).1
  omega

theorem witness_EncAndPutbitsAppendTheirBits :
    (assigned.PackerSound ∧ assigned.pkState = .opened ∧ assigned.ctState ≠ .empty ∧ assigned.codeOf (0x63#16).toNat ≠ [] ∧
      1 + (assigned.bitcnt + (assigned.codeOf 0x63).length + 7) / 8 ≤ assigned.cfg.outCap) ∧
    (packedNine.PackerSound ∧ packedNine.pkState = .opened ∧ 1 + (packedNine.bitcnt + 16 + 7) / 8 ≤ packedNine.cfg.outCap) := by
  decide

/-- Two bytes of output, of which one holds eight bits already. -/
def nearlyFull : State := { assigned with cfg := { Config.default with outCap := 2 }, bitcnt := 8, outLen := 2 }

theorem witness_PackerRejectsWhatDoesNotFit :
    (assigned.pkState = .opened ∧ assigned.ctState ≠ .empty ∧ assigned.codeOf (0x7A#16).toNat = []) ∧
    (nearlyFull.pkState = .opened ∧ nearlyFull.ctState ≠ .empty ∧ nearlyFull.codeOf (0x61#16).toNat ≠ [] ∧
      nearlyFull.cfg.outCap < 1 + (nearlyFull.bitcnt + (nearlyFull.codeOf 0x61).length + 7) / 8 ∧
      nearlyFull.cfg.outCap < 1 + (nearlyFull.bitcnt + (1#5).toNat + 7) / 8) ∧
    (flushed.pkState = .flushed ∧ { flushed with cfg := { Config.default with inCap := 2 } }.cfg.inCap < flushed.outLen) := by
  decide

theorem witness_FlushPadsAndWritesTheHeader : State.reset.PackerSound ∧ State.reset.pkState = .opened ∧
    packedNine.PackerSound ∧ packedNine.pkState = .opened := by decide

theorem witness_XferCopiesTheStream : flushed.pkState = .flushed ∧ flushed.outLen ≤ flushed.cfg.outCap ∧
    flushed.outLen ≤ flushed.cfg.inCap := by decide

theorem witness_UnpackReadsTheHeader : 1 ≤ moved.inLen ∧ moved.inLen ≤ moved.cfg.inCap ∧
    (moved.stored .inbuf 0).toNat ≤ 7 ∧ (moved.stored .inbuf 0).toNat ≤ 8 * (moved.inLen - 1) := by decide

/-- An input stream of `n` bytes that starts with the header `h`. -/
def headed (n : Nat) (h : Byte) : State := { State.reset with inbuf := [(0, h)], inLen := n }

/-- An empty stream; a header of 8; a header of 1 with no payload. -/
theorem witness_UnpackRejectsBadHeaders :
    (State.reset.inLen ≤ State.reset.cfg.inCap ∧ State.reset.inLen = 0) ∧
    ((headed 2 8#8).inLen ≤ (headed 2 8#8).cfg.inCap ∧ (headed 2 8#8).inLen ≠ 0 ∧
      7 < ((headed 2 8#8).stored .inbuf 0).toNat) ∧
    ((headed 1 1#8).inLen ≤ (headed 1 1#8).cfg.inCap ∧ (headed 1 1#8).inLen ≠ 0 ∧
      ((headed 1 1#8).stored .inbuf 0).toNat ≤ 7 ∧
      8 * ((headed 1 1#8).inLen - 1) < ((headed 1 1#8).stored .inbuf 0).toNat) := by decide

/-- A `DECODE` resumed: the bit 0 is in the chunk, and five bits are ahead. -/
def midway : State := { unpacked with decPos := 4, decClen := 1, chunk := [false] }

theorem witness_DecodeRecoversTheSymbols :
    (unpacked.Sound ∧ unpacked.upState = .ready ∧ unpacked.ctState ≠ .empty ∧
      Parses unpacked [true, true, true, false, false, false, false, false, true] [0x61, 0x61, 0x61, 0x62, 0x62, 0x63] [] ∧
      unpacked.symoutLen + [0x61, 0x61, 0x61, 0x62, 0x62, 0x63].length ≤ unpacked.cfg.symoutCap) ∧
    (midway.Sound ∧ midway.upState = .ready ∧ midway.ctState ≠ .empty ∧
      Parses midway [false, false, false, false, true] [0x62, 0x62, 0x63] [] ∧
      midway.symoutLen + [0x62, 0x62, 0x63].length ≤ midway.cfg.symoutCap) :=
  ⟨⟨unpacked_sound, rfl, by decide, ⟨by decide, by decide, by decide, fun _ h => by cases h; decide⟩, by decide⟩,
    by constructor <;> decide, rfl, by decide, ⟨by decide, by decide, by decide, fun _ h => by cases h; decide⟩, by decide⟩

/-- The bits '000001', which the code '1' does not begin. -/
def stray : Bits := [false, false, false, false, false, true]

/-- "aaa" and then six bits that match nothing (95_test_vectors L2.5). -/
theorem witness_DecodeKeepsItsProgressWhenItRaises_stray :
    oneCodeReady.Sound ∧ oneCodeReady.upState = .ready ∧ oneCodeReady.ctState ≠ .empty ∧
    Parses oneCodeReady ([true, true, true] ++ stray) [0x61, 0x61, 0x61] stray ∧
    oneCodeReady.symoutLen + 3 ≤ oneCodeReady.cfg.symoutCap ∧ stray ≠ [] ∧ stray.length < 255 ∧
    NoMatchIn oneCodeReady [0x61, 0x61, 0x61] stray := by
  refine ⟨oneCodeReady_sound, rfl, by decide, ⟨by decide, by decide, by decide, fun _ h => by cases h; decide⟩,
    by decide, by decide, by decide, fun x hx h => ?_⟩
  rw [(code_of_oneCode rfl hx).2] at h
  exact absurd h (by decide)

/-- `oneCodeReady` with room for two symbols. -/
def narrow : State := { oneCodeReady with cfg := { Config.default with symoutCap := 2 } }

/-- "aa" fills `SYMOUT`, and another code follows (95_test_vectors L2.5). -/
theorem witness_DecodeKeepsItsProgressWhenItRaises_full :
    narrow.Sound ∧ narrow.upState = .ready ∧ narrow.ctState ≠ .empty ∧
    Parses narrow ([true, true, true] ++ stray) [0x61, 0x61] (narrow.codeOf 0x61 ++ stray) ∧
    narrow.codeOf 0x61 ≠ [] ∧ narrow.symoutLen + [0x61, 0x61].length = narrow.cfg.symoutCap :=
  ⟨by constructor <;> decide, rfl, by decide, ⟨by decide, by decide, by decide, fun _ h => by cases h; decide⟩,
    by decide, by decide⟩

/-- `narrow` after it raised `BufferOverflow` and `CLEAR 0x10`: the matched code is still in the chunk. -/
def overflowed : State :=
  { narrow with decPos := 3, decClen := 1, chunk := [true], symout := [(0, 0x61#8), (1, 0x61#8)], symoutLen := 2 }

/-- Resumed, the chunk grows past the code it was, and nothing ahead matches. -/
theorem witness_DecodeKeepsItsProgressWhenItRaises_resumed :
    overflowed.Sound ∧ overflowed.upState = .ready ∧ overflowed.ctState ≠ .empty ∧
    Parses overflowed stray [] (true :: stray) ∧ overflowed.symoutLen + 0 ≤ overflowed.cfg.symoutCap ∧
    (true :: stray).length < 255 ∧ NoMatchIn overflowed [] (true :: stray) := by
  refine ⟨by constructor <;> decide, rfl, by decide, ⟨by decide, by decide, by decide, fun _ h => by cases h⟩,
    by decide, by decide, fun x hx _ => ⟨rfl, ?_⟩⟩
  rw [(code_of_oneCode rfl hx).2]
  decide

/-- A code that begins with a 0 is not the code of `oneCode`. -/
theorem noMatchIn_zeros {s : State} (h : s.ct = [(0x61, [true])]) (syms : List Nat) (n : Nat) :
    NoMatchIn s syms (List.replicate n false) := by
  intro x hx hp
  rw [(code_of_oneCode h hx).2] at hp
  have := List.eq_of_mem_replicate (hp.subset (List.mem_singleton.2 rfl))
  cases this

/-- `zerosReady` with a first payload bit 1: "a", and then 255 zero bits. -/
def oneThenZeros : State := { zerosReady with inbuf := (0, 0#8) :: (1, 0x80#8) :: (List.range 31).map (fun i => (i + 2, 0#8)) }

/-- `zerosReady` after it raised subcode 5 and `CLEAR 0x10`: the chunk is full, and one bit is left. -/
def fullChunk : State := { zerosReady with decPos := 255, decClen := 255, chunk := List.replicate 255 false }

theorem witness_DecodeStopsAtTheLongestChunk :
    (zerosReady.Sound ∧ zerosReady.upState = .ready ∧ zerosReady.ctState ≠ .empty ∧
      Parses zerosReady (List.replicate 256 false) [] (List.replicate 256 false) ∧
      NoMatchIn zerosReady [] (List.replicate 256 false)) ∧
    (oneThenZeros.Sound ∧ oneThenZeros.upState = .ready ∧ oneThenZeros.ctState ≠ .empty ∧
      Parses oneThenZeros (true :: List.replicate 255 false) [0x61] (List.replicate 255 false) ∧
      NoMatchIn oneThenZeros [0x61] (List.replicate 255 false)) ∧
    (fullChunk.Sound ∧ fullChunk.upState = .ready ∧ fullChunk.ctState ≠ .empty ∧
      Parses fullChunk [false] [] (List.replicate 256 false) ∧ NoMatchIn fullChunk [] (List.replicate 256 false)) ∧
    255 ≤ (List.replicate 255 false).length :=
  ⟨⟨zerosReady_sound, rfl, by decide, ⟨by decide +kernel, by decide +kernel, by decide, fun _ h => by cases h⟩,
      noMatchIn_zeros rfl _ _⟩,
    ⟨by constructor <;> decide +kernel, rfl, by decide,
      ⟨by decide +kernel, by decide +kernel, by decide, fun _ h => by cases h; decide⟩, noMatchIn_zeros rfl _ _⟩,
    ⟨by constructor <;> decide +kernel, rfl, by decide,
      ⟨by decide +kernel, by decide +kernel, by decide, fun _ h => by cases h⟩, noMatchIn_zeros rfl _ _⟩, List.length_replicate.ge⟩

theorem witness_EveryStepKeepsSoundness :
    ∃ t, State.reset.Sound ∧ step State.reset = .next t ∧ step (commanding 0x10000061#32) = .next { t with
      freq := [(0x61, 1)], total := 1, leaves := 1 } := ⟨_, reset_sound, rfl, rfl⟩

theorem witness_ResetIsSound : Config.Legal ⟨1, 1, 2, 1, 1⟩ := by decide

theorem witness_EveryStepKeepsBuffersCanonical : ∃ t, flushed.cfg.Legal ∧ flushed.BuffersCanonical ∧
    step flushed = .next t := ⟨_, by decide, by decide, rfl⟩

theorem witness_LoopBackReturnsThePackedBits : packedNine.PackerSound ∧ packedNine.pkState = .opened ∧
    1 + (packedNine.bitcnt + 7) / 8 ≤ packedNine.cfg.inCap := by decide

/-- The text "a", whose one code bit has room. -/
theorem witness_TextsRoundTrip :
    (State.reset.Sound ∧ ([0x61#16] : List (BitVec 16)) ≠ [] ∧ (∀ x ∈ [0x61#16], x.toNat < State.reset.cfg.nsym) ∧
      [0x61#16].length ≤ State.reset.cfg.countMax ∧ [0x61#16].length ≤ State.reset.cfg.symoutCap) ∧
    ends (run (.clear 0x1F#5 :: ([0x61#16].map .count ++ [.build, .assign])) State.reset) (fun a =>
      let n := ([0x61#16].flatMap (fun x => a.codeOf x.toNat)).length
      decide (1 + (n + 7) / 8 ≤ State.reset.cfg.outCap ∧ 1 + (n + 7) / 8 ≤ State.reset.cfg.inCap)) = true :=
  ⟨⟨reset_sound, by decide, by simp [State.reset, State.afterReset, Config.default, Config.nsym],
    show 1 ≤ State.reset.cfg.countMax by decide, by decide⟩, by decide⟩

end Sys2Proof.Tests
end

section
/-! What each command may change, said once; the host's registers and the phases follow. -/

namespace Sys2Proof.Machine

open Sys2Proof.Claims

/-- The parameters, `CTRL`, the select and staging registers, and the model's own fields (logs 2, 3, 4) are the same. -/
def SameHostRegisters (s t : State) : Prop :=
  t.cfg = s.cfg ∧ t.errIe = s.errIe ∧ t.symSel = s.symSel ∧ t.nodeSel = s.nodeSel ∧ t.wlSel = s.wlSel ∧
  t.lcBits = s.lcBits ∧ t.host = s.host ∧ t.reply = s.reply ∧ t.draws = s.draws

/-- The part of the state a command that raises nothing may change, by its unit. -/
def FrameOf : Instr → State → State → Prop
  | .nop, s, t => t = s
  | .clear mask, s, t => t = clearedState mask s
  | .count _, s, t => OnlyCounts s t
  | .tbinit, s, t => OnlyTree s t
  | .merge, s, t => OnlyTree s t
  | .build, s, t => OnlyTree s t
  | .assign, s, t => OnlyTable s t
  | .loadcode _ _, s, t => OnlyTable s t
  | .enc _, s, t => SameButPacker s t
  | .putbits _ _, s, t => SameButPacker s t
  | .flush, s, t => OnlyPacker s t
  | .xfer, s, t => t = { s with inbuf := t.inbuf, inLen := t.inLen, upState := .idle }
  | .unpack, s, t => t = { s with decBits := t.decBits, decPos := 0, decClen := 0, chunk := [], symoutLen := 0
                                  upState := .ready }
  | .decode, s, t => OnlyDecoder s t

/-! The bodies of which Laws/ gives no inversion. -/

theorem tbinitBody_ok {s t : State} (h : tbinitBody s = .ok t) : s.tbState = .idle ∧ initTree s = .ok t := by
  unfold tbinitBody sequenceError raising at h
  split at h
  · cases h
  · exact ⟨not_not.1 (by assumption), h⟩

theorem mergeBody_ok {s t : State} (h : mergeBody s = .ok t) : s.tbState = .loaded ∧ mergeOnce s = .ok t := by
  unfold mergeBody sequenceError raising at h
  split at h
  · cases h
  · exact ⟨not_not.1 (by assumption), h⟩

theorem initTree_only {s t : State} (h : initTree s = .ok t) : SameButTree s t := by
  obtain ⟨-, rfl⟩ := initTree_ok h
  rfl

/-- `BUILD` runs its merges from the state after `TBINIT`, or, where that ran before, from the state it finds. -/
theorem buildBody_ok {s t : State} (h : buildBody s = .ok t) :
    s.tbState ≠ .done ∧ ∃ u, (initTree s = .ok u ∨ s.tbState = .loaded ∧ u = s) ∧
      mergeAll u.wl.length u = .ok t := by
  unfold buildBody sequenceError raising at h
  split at h
  · cases h
  rename_i hd
  obtain ⟨u, hu, ht⟩ := bind_ok h
  split at hu
  · exact ⟨hd, u, .inl hu, ht⟩
  · rename_i hi
    cases hu
    refine ⟨hd, s, .inr ⟨?_, rfl⟩, ht⟩
    cases hs : s.tbState <;> simp_all

/-! The frame of every command. -/

/-- What each part of `CLEAR` keeps, `CLEAR` keeps under every mask (44_control R192). -/
theorem clearedState_induction {P : State → Prop} (htree : ∀ u, P u → P (clearTree u))
    (htable : ∀ u, P u → P (clearTable u)) (hpacker : ∀ u, P u → P (clearPacker u))
    (hunpacker : ∀ u, P u → P (clearUnpacker u)) (herror : ∀ u, P u → P (clearError u)) (mask : BitVec 5)
    {s : State} (h : P s) : P (clearedState mask s) := by
  have masked : ∀ (c : Bool) (f : State → State), (∀ u, P u → P (f u)) →
      ∀ u, P u → P (if c = true then f u else u) := fun c f hf u hu => by
    split
    · exact hf u hu
    · exact hu
  exact masked _ _ herror _ (masked _ _ hunpacker _ (masked _ _ hpacker _ (masked _ _ htable _ (masked _ _ htree _ h))))

theorem clearedState_sameHost (mask : BitVec 5) (s : State) : SameHostRegisters s (clearedState mask s) :=
  clearedState_induction (P := SameHostRegisters s) (fun _ h => h) (fun _ h => h) (fun _ h => h) (fun _ h => h)
    (fun _ h => h) mask ⟨rfl, rfl, rfl, rfl, rfl, rfl, rfl, rfl, rfl⟩

theorem buildBody_only {s t : State} (h : buildBody s = .ok t) : OnlyTree s t := by
  obtain ⟨-, u, hu, ht⟩ := buildBody_ok h
  have hm : SameButTree u t := (mergeAll_ok ht).1
  rcases hu with hu | ⟨-, rfl⟩
  · exact (initTree_only hu).trans hm
  · exact hm

theorem appendChecked_same {x : Bits} {s t : State} (h : appendChecked x s = .ok t) : SameButPacker s t :=
  appendBits_same (appendChecked_ok h).2

theorem flushBody_only {s t : State} (h : flushBody s = .ok t) : OnlyPacker s t := by
  obtain ⟨-, u, hu, -, rfl⟩ := flushBody_ok h
  rcases flushPending_cases s with ⟨-, e⟩ | ⟨-, -, e⟩ | ⟨-, -, e⟩ <;> rw [e] at hu <;> cases hu <;> rfl

theorem xferBody_only {s t : State} (h : xferBody s = .ok t) :
    t = { s with inbuf := t.inbuf, inLen := t.inLen, upState := .idle } := by
  obtain ⟨-, -, u, hu, rfl⟩ := xferBody_ok h
  dsimp only
  rw [copyOut_same hu]

/-- A body that gives a state changes its own unit alone. -/
theorem bodyOf_frame {i : Instr} {s t : State} (hi : i ≠ .decode) (h : bodyOf i s = .ok t) : FrameOf i s t := by
  cases i with
  | nop => cases h; rfl
  | clear mask => cases h; rfl
  | count sym => obtain ⟨-, -, rfl⟩ := countBody_ok h; rfl
  | tbinit => exact initTree_only (tbinitBody_ok h).2
  | merge => exact mergeOnce_same (mergeBody_ok h).2
  | build => exact buildBody_only h
  | assign => obtain ⟨-, -, root, r, codes, -, -, rfl⟩ := assignBody_ok h; rfl
  | loadcode len sym => obtain ⟨-, -, -, -, -, rfl⟩ := loadcodeBody_ok h; rfl
  | enc sym => obtain ⟨-, -, -, h⟩ := encBody_ok h; exact appendChecked_same h
  | putbits n v => exact appendChecked_same (putbitsBody_ok h).2
  | flush => exact flushBody_only h
  | xfer => exact xferBody_only h
  | unpack => obtain ⟨-, -, -, -, rfl⟩ := unpackBody_ok h; rfl
  | decode => exact absurd rfl hi

/-- Every command changes its own unit, and where it raises, the error record besides. -/
theorem exec_frame {i : Instr} {s t : State} (h : exec i s = .next t) :
    ∃ u, (u = s ∨ FrameOf i s u) ∧ (t = u ∨ ∃ e, t = raiseError (encode i) e u) := by
  by_cases hi : i = .decode
  · subst hi
    rcases execDecode_next h with ⟨-, rfl⟩ | ⟨-, -, u, e, hu, rfl⟩
    · exact ⟨s, .inl rfl, .inr ⟨_, rfl⟩⟩
    · refine ⟨u, .inr (decodeBits_same hu).1, ?_⟩
      cases e with
      | none => exact .inl rfl
      | some r => exact .inr ⟨r, rfl⟩
  · rcases exec_next hi h with hb | ⟨e, -, rfl⟩
    · exact ⟨t, .inr (bodyOf_frame hi hb), .inl rfl⟩
    · exact ⟨s, .inl rfl, .inr ⟨e, rfl⟩⟩

/-- No unit holds one of the host's registers (10_state R21). -/
theorem FrameOf.sameHost {i : Instr} {s t : State} (h : FrameOf i s t) : SameHostRegisters s t := by
  cases i with
  | clear mask => exact (show t = _ from h) ▸ clearedState_sameHost mask s
  | _ => rw [h]; exact ⟨rfl, rfl, rfl, rfl, rfl, rfl, rfl, rfl, rfl⟩

/-- Settles O12: a command changes its own unit and the error record, and no host register is in either. -/
theorem commandsKeepHostRegisters : Obligations.CommandsKeepHostRegisters := by
  intro i s t h
  obtain ⟨u, hu, ht⟩ := exec_frame h
  have hs : SameHostRegisters s u := by
    rcases hu with rfl | hu
    · exact ⟨rfl, rfl, rfl, rfl, rfl, rfl, rfl, rfl, rfl⟩
    · exact hu.sameHost
  rcases ht with rfl | ⟨e, rfl⟩ <;> exact hs

end Sys2Proof.Machine
end

section
/-! What a command raises, and the phases it leaves (10_state R66). -/

namespace Sys2Proof.Machine

open Sys2Proof.Claims

/-- Whatever a body raises has a code that is not 0. -/
def RaisesSome {α : Type} (r : Cmd α) : Prop := ∀ e, r = .error (.error e) → e.code ≠ .none

theorem raisesSome_ok {α : Type} (a : α) : RaisesSome (.ok a : Cmd α) := fun _ h => by cases h

theorem raisesSome_raising {α : Type} {code : ErrCode} (hc : code ≠ .none) (sub info0 info1 : Nat) :
    RaisesSome (raising code sub info0 info1 : Cmd α) := fun _ h => by cases h; exact hc

theorem raisesSome_sequenceError {α : Type} (s : State) : RaisesSome (sequenceError s : Cmd α) :=
  raisesSome_raising (by decide) _ _ _

/-- A body that stops only with a fault raises nothing. -/
theorem raisesSome_of_fault {α : Type} {r : Cmd α} (h : ∀ {e}, r = .error e → ∃ f, e = .fault f) : RaisesSome r :=
  fun e he => by obtain ⟨f, hf⟩ := h he; cases hf

theorem RaisesSome.bind {α β : Type} {x : Cmd α} {f : α → Cmd β} (hx : RaisesSome x) (hf : ∀ a, RaisesSome (f a)) :
    RaisesSome (x.bind f) := by
  cases x with
  | ok a => exact hf a
  | error e => intro e' h; cases h; exact hx _ rfl

theorem initTree_raises (s : State) : RaisesSome (initTree s) := by
  unfold initTree
  split
  · exact raisesSome_raising (by decide) _ _ _
  · exact raisesSome_ok _

theorem appendChecked_raises (x : Bits) (s : State) : RaisesSome (appendChecked x s) := by
  unfold appendChecked
  split
  · exact raisesSome_of_fault appendBits_error
  · exact raisesSome_raising (by decide) _ _ _

theorem memRead_raises (b : Buffer) (i : Nat) (s : State) : RaisesSome (memRead b i s) := by
  rcases memRead_cases b i s with ⟨-, e⟩ | ⟨-, e⟩ <;> rw [e]
  · exact raisesSome_ok _
  · exact raisesSome_of_fault fun h => by cases h; exact ⟨_, rfl⟩

theorem buildBody_raises (s : State) : RaisesSome (buildBody s) := by
  unfold buildBody
  split
  · exact raisesSome_sequenceError s
  refine RaisesSome.bind ?_ fun u => raisesSome_of_fault mergeAll_error
  split
  · exact initTree_raises s
  · exact raisesSome_ok s

theorem assignBody_raises (s : State) : RaisesSome (assignBody s) := by
  unfold assignBody
  split
  · exact raisesSome_sequenceError s
  split
  · exact raisesSome_of_fault fun h => by cases h; exact ⟨_, rfl⟩
  split
  · exact raisesSome_of_fault fun h => by cases h; exact ⟨_, rfl⟩
  · exact raisesSome_ok _

theorem loadcodeBody_raises (len sym : Nat) (s : State) : RaisesSome (loadcodeBody len sym s) := by
  have malformed : ∀ sub a b, RaisesSome (raising .malformedCodeTable sub a b : Cmd State) :=
    fun _ _ _ => raisesSome_raising (by decide) _ _ _
  unfold loadcodeBody
  split
  · exact raisesSome_sequenceError s
  split
  · exact malformed _ _ _
  split
  · exact malformed _ _ _
  split
  · exact malformed _ _ _
  dsimp only
  split
  · exact malformed _ _ _
  · exact raisesSome_ok _

theorem encBody_raises (sym : Nat) (s : State) : RaisesSome (encBody sym s) := by
  unfold encBody
  split
  · exact raisesSome_sequenceError s
  split
  · exact raisesSome_raising (by decide) _ _ _
  · exact appendChecked_raises _ s

theorem flushBody_raises (s : State) : RaisesSome (flushBody s) := by
  by_cases hp : s.pkState = .opened
  · exact raisesSome_of_fault (flushBody_error hp)
  · unfold flushBody
    rw [if_pos hp]
    exact raisesSome_sequenceError s

theorem xferBody_raises (s : State) : RaisesSome (xferBody s) := by
  unfold xferBody
  split
  · exact raisesSome_sequenceError s
  split
  · exact raisesSome_raising (by decide) _ _ _
  · exact (raisesSome_of_fault copyOut_error).bind fun u => raisesSome_ok _

theorem unpackBody_raises (s : State) : RaisesSome (unpackBody s) := by
  have truncated : ∀ sub a b, RaisesSome (raising .truncatedOrCorruptStream sub a b : Cmd State) :=
    fun _ _ _ => raisesSome_raising (by decide) _ _ _
  unfold unpackBody
  split
  · exact truncated _ _ _
  refine (memRead_raises _ _ s).bind fun v => ?_
  dsimp only
  split
  · exact truncated _ _ _
  split
  · exact truncated _ _ _
  · exact raisesSome_ok _

/-- Every command raises a code that is not 0 (60_exceptions R201). -/
theorem bodyOf_raises (i : Instr) (s : State) : RaisesSome (bodyOf i s) := by
  cases i with
  | nop => exact raisesSome_ok s
  | clear mask => exact raisesSome_ok _
  | count sym =>
    simp only [bodyOf, countBody]
    split
    · exact raisesSome_sequenceError s
    split
    · exact raisesSome_raising (by decide) _ _ _
    · exact raisesSome_ok _
  | tbinit =>
    simp only [bodyOf, tbinitBody]
    split
    · exact raisesSome_sequenceError s
    · exact initTree_raises s
  | merge =>
    simp only [bodyOf, mergeBody]
    split
    · exact raisesSome_sequenceError s
    · exact raisesSome_of_fault mergeOnce_error
  | build => exact buildBody_raises s
  | assign => exact assignBody_raises s
  | loadcode len sym => exact loadcodeBody_raises _ _ s
  | enc sym => exact encBody_raises _ s
  | putbits n v =>
    simp only [bodyOf, putbitsBody]
    split
    · exact raisesSome_sequenceError s
    · exact appendChecked_raises _ s
  | flush => exact flushBody_raises s
  | xfer => exact xferBody_raises s
  | unpack => exact unpackBody_raises s
  | decode => exact raisesSome_ok s

/-- A command that ends with no error recorded gave its body's state. -/
theorem exec_completed {i : Instr} {s t : State} (hi : i ≠ .decode) (h : exec i s = .next t) (he : t.err.code = .none) :
    bodyOf i s = .ok t := by
  rcases exec_next hi h with hb | ⟨e, hb, rfl⟩
  · exact hb
  · exact absurd he (bodyOf_raises i s e hb)

/-- `DECODE` that ends with no error recorded read its whole payload. -/
theorem execDecode_completed {s t : State} (h : exec .decode s = .next t) (he : t.err.code = .none) :
    decodeBits (s.decBits - s.decPos) s = .ok (t, none) := by
  rcases execDecode_next h with ⟨-, rfl⟩ | ⟨-, -, u, e, hu, rfl⟩
  · cases he
  · cases e with
    | none => exact hu
    | some r => exact absurd he ((decodeBits_same hu).2.2 r rfl).2

/-- `DECODE` past its phase check ends in its progress, with the error it ends in recorded there. -/
theorem execDecode_done {s u : State} (h : decodeBody s = .ok (u, none)) : exec .decode s = .next u := by
  simp only [exec, execDecode, h, finishDecode]

theorem execDecode_raised {s u : State} {r : Raised} (h : decodeBody s = .ok (u, some r)) :
    exec .decode s = .next (raiseError (encode .decode) r u) := by
  simp only [exec, execDecode, h, finishDecode]

/-- `BUILD` ends with the whole tree made (40_tree_builder R114). -/
theorem buildBody_done {s t : State} (h : buildBody s = .ok t) : t.tbState = .done := by
  obtain ⟨-, u, hu, ht⟩ := buildBody_ok h
  obtain ⟨-, -, hl, hd⟩ := mergeAll_ok ht
  by_cases hul : u.tbState = .loaded
  · exact hl hul
  rw [hd hul]
  rcases hu with hu | ⟨hs, rfl⟩
  · obtain ⟨-, rfl⟩ := initTree_ok hu
    dsimp only at hul ⊢
    split
    · rfl
    · rename_i h1; rw [if_neg h1] at hul; exact absurd rfl hul
  · exact absurd hs hul

/-- The phases `CLEAR` leaves (44_control R192). -/
theorem clearedState_phases (m : BitVec 5) (s : State) :
    (clearedState m s).tbState = (if m.getLsbD 0 then .idle else s.tbState) ∧
    (clearedState m s).ctState = (if m.getLsbD 1 then .empty else s.ctState) ∧
    (clearedState m s).pkState = (if m.getLsbD 2 then .opened else s.pkState) ∧
    (clearedState m s).upState = (if m.getLsbD 3 then .idle else s.upState) := by
  refine ⟨?_, ?_, ?_, ?_⟩
  · simp [clearedState, apply_ite State.tbState]
  · simp [clearedState, apply_ite State.ctState]
  · simp [clearedState, apply_ite State.pkState]
  · simp [clearedState, apply_ite State.upState]

/-- Settles O13: the phase of a command's own unit comes from its body, the others from its frame. -/
theorem phasesFollowTheTransitionTable : Obligations.PhasesFollowTheTransitionTable := by
  intro i s t _ h he
  by_cases hi : i = .decode
  · subst hi
    obtain ⟨ho, hu, -⟩ := decodeBits_same (execDecode_completed h he)
    exact ⟨by rw [ho], by rw [ho], by rw [ho], hu rfl⟩
  have hb := exec_completed hi h he
  have hf := bodyOf_frame hi hb
  cases i with
  | decode => exact absurd rfl hi
  | nop => cases hb; exact ⟨rfl, rfl, rfl, rfl⟩
  | clear m => cases hb; exact clearedState_phases m s
  | count sym => rw [hf]; exact ⟨rfl, rfl, rfl, rfl⟩
  | tbinit => obtain ⟨-, rfl⟩ := initTree_ok (tbinitBody_ok hb).2; exact ⟨rfl, rfl, rfl, rfl⟩
  | merge =>
    obtain ⟨hl, hm⟩ := mergeBody_ok hb
    obtain ⟨a, b, r, -, -, rfl⟩ := mergeOnce_ok hm
    have hw : s.wlLen - 1 = 1 ↔ s.wlLen = 2 := by omega
    simp [hl, hw]
  | build => exact ⟨buildBody_done hb, by rw [hf], by rw [hf], by rw [hf]⟩
  | assign => obtain ⟨-, -, root, r, codes, -, -, rfl⟩ := assignBody_ok hb; exact ⟨rfl, rfl, rfl, rfl⟩
  | loadcode len sym => obtain ⟨-, -, -, -, -, rfl⟩ := loadcodeBody_ok hb; exact ⟨rfl, rfl, rfl, rfl⟩
  | enc sym => rw [hf]; exact ⟨rfl, rfl, rfl, rfl⟩
  | putbits n v => rw [hf]; exact ⟨rfl, rfl, rfl, rfl⟩
  | flush =>
    obtain ⟨-, u, -, -, rfl⟩ := flushBody_ok hb
    exact ⟨by rw [hf], by rw [hf], rfl, by rw [hf]⟩
  | xfer => rw [hf]; exact ⟨rfl, rfl, rfl, rfl⟩
  | unpack => rw [hf]; exact ⟨rfl, rfl, rfl, rfl⟩

/-- A command raised in state `s` records its own opcode's stage and its own word (60_exceptions R204, R205). -/
theorem records_raiseError (i : Instr) {code : ErrCode} (hc : code ≠ .illegalCommand) (sub info0 info1 : Nat) (s : State) :
    Records i (stageOf i.opcode) code sub info0 info1 s (raiseError (encode i) ⟨code, sub, info0, info1⟩ s) := by
  simp [Records, raiseError, stageRecorded, hc]

/-- The phase is one the command's rule does not allow (10_state R66). -/
def WrongPhase (s : State) : Instr → Prop
  | .count _ => s.tbState ≠ .idle
  | .tbinit => s.tbState ≠ .idle
  | .merge => s.tbState ≠ .loaded
  | .build => s.tbState = .done
  | .assign => s.tbState ≠ .done ∨ s.ctState ≠ .empty
  | .loadcode _ _ => s.ctState = .tree
  | .enc _ => s.ctState = .empty ∨ s.pkState = .flushed
  | .putbits _ _ => s.pkState = .flushed
  | .flush => s.pkState = .flushed
  | .xfer => s.pkState = .opened
  | .decode => s.upState ≠ .ready ∨ s.ctState = .empty
  | .nop => False
  | .clear _ => False
  | .unpack => False

/-- Each rule's phase check comes first. -/
theorem bodyOf_wrongPhase {i : Instr} {s : State} (hi : i ≠ .decode) (h : WrongPhase s i) :
    bodyOf i s = sequenceError s := by
  cases i with
  | count sym => exact if_pos h
  | tbinit => exact if_pos h
  | merge => exact if_pos h
  | build => exact if_pos h
  | assign => exact if_pos h
  | loadcode len sym => exact if_pos h
  | enc sym => exact if_pos (h.imp id fun hp => by simp [hp])
  | putbits n v => exact if_pos (by simp [show s.pkState = .flushed from h])
  | flush => exact if_pos (by simp [show s.pkState = .flushed from h])
  | xfer => exact if_pos (by simp [show s.pkState = .opened from h])
  | decode => exact absurd rfl hi
  | nop => exact h.elim
  | clear m => exact h.elim
  | unpack => exact h.elim

theorem exec_wrongPhase {i : Instr} {s : State} (h : WrongPhase s i) :
    exec i s = .next (raiseError (encode i) ⟨.sequenceError, 0, s.status.toNat, 0⟩ s) := by
  by_cases hi : i = .decode
  · subst hi
    have hd : decodeBody s = sequenceError s := if_pos h
    simp only [exec, execDecode, hd, sequenceError, raising, finishDecode, finish_error]
  · rw [exec_eq_finish s hi, bodyOf_wrongPhase hi h]
    rfl

/-- Settles O14: each rule's phase check comes first, and what it raises is recorded in the state it was raised in. -/
theorem wrongPhaseRaisesSequenceError : Obligations.WrongPhaseRaisesSequenceError := by
  intro i s h
  have hw : WrongPhase s i := by cases i <;> exact h
  exact ⟨_, exec_wrongPhase hw, records_raiseError i (by decide) _ _ _ s⟩

end Sys2Proof.Machine
end

section
/-! The buffers of 10_state R64: every operation that writes a byte keeps their canonical form. -/

namespace Sys2Proof.Machine

open Sys2Proof.Claims

/-- From `s` to `t` the parameters stay, and so does the canonical form of the byte memories. -/
def KeepsBuffers (s t : State) : Prop := t.cfg = s.cfg ∧ (s.BuffersCanonical → t.BuffersCanonical)

theorem KeepsBuffers.refl (s : State) : KeepsBuffers s s := ⟨rfl, id⟩

theorem KeepsBuffers.trans {s t u : State} (h1 : KeepsBuffers s t) (h2 : KeepsBuffers t u) : KeepsBuffers s u :=
  ⟨h2.1.trans h1.1, h2.2 ∘ h1.2⟩

theorem keepsBuffers_of_eq {s t : State} (hc : t.cfg = s.cfg) (ho : t.outbuf = s.outbuf) (hi : t.inbuf = s.inbuf)
    (hs : t.symout = s.symout) : KeepsBuffers s t :=
  ⟨hc, fun h => by rw [State.BuffersCanonical, hc, ho, hi, hs]; exact h⟩

/-- A byte written inside its buffer (20_memory R78). -/
theorem keepsBuffers_set {s : State} {b : Buffer} {i : Nat} (v : Byte) (h : i < capacityOf s.cfg b) :
    KeepsBuffers s (s.withBuffer b (Cells.set (s.buffer b) i v)) := by
  refine ⟨by simp, fun ⟨⟨ho, bo⟩, ⟨hi, bi⟩, hs, bs⟩ => ?_⟩
  cases b with
  | outbuf => exact ⟨⟨Memory.wf_set _ _ ho, Cells.below_set _ bo h⟩, ⟨hi, bi⟩, hs, bs⟩
  | inbuf => exact ⟨⟨ho, bo⟩, ⟨Memory.wf_set _ _ hi, Cells.below_set _ bi h⟩, hs, bs⟩
  | symout => exact ⟨⟨ho, bo⟩, ⟨hi, bi⟩, Memory.wf_set _ _ hs, Cells.below_set _ bs h⟩

theorem memWrite_keepsBuffers {b : Buffer} {i : Nat} {v : Byte} {s t : State} (h : memWrite b i v s = .ok t) :
    KeepsBuffers s t := by
  rcases memWrite_cases b i v s with ⟨hi, e⟩ | ⟨-, e⟩ <;> rw [e] at h <;> cases h
  exact keepsBuffers_set v hi

theorem appendBits_keepsBuffers {x : Bits} {s t : State} (h : appendBits x s = .ok t) : KeepsBuffers s t := by
  induction x generalizing s with
  | nil => cases h; exact .refl _
  | cons b x ih =>
    obtain ⟨u, hu, ht⟩ := bind_ok h
    refine KeepsBuffers.trans ?_ (ih ht)
    rcases appendBit_cases b s with ⟨-, e⟩ | ⟨-, hl, e⟩ | ⟨-, -, e⟩ <;> rw [e] at hu <;> cases hu
    · exact .refl s
    · exact keepsBuffers_set (b := .outbuf) _ hl

theorem flushBody_keepsBuffers {s t : State} (h : flushBody s = .ok t) : KeepsBuffers s t := by
  obtain ⟨-, u, hu, h0, rfl⟩ := flushBody_ok h
  rcases flushPending_cases s with ⟨-, e⟩ | ⟨-, hl, e⟩ | ⟨-, -, e⟩ <;> rw [e] at hu <;> cases hu
  · exact keepsBuffers_set (b := .outbuf) _ h0
  · exact (keepsBuffers_set (b := .outbuf) _ hl).trans (keepsBuffers_set (b := .outbuf) _ h0)

theorem copyOut_keepsBuffers {n : Nat} {s t : State} (h : copyOut n s = .ok t) : KeepsBuffers s t := by
  induction n generalizing t with
  | zero => cases h; exact .refl _
  | succ n ih =>
    obtain ⟨u, hu, h⟩ := bind_ok h
    obtain ⟨v, -, h⟩ := bind_ok h
    exact (ih hu).trans (memWrite_keepsBuffers h)

theorem decodeBits_keepsBuffers {n : Nat} {s t : State} {e : Option Raised} (h : decodeBits n s = .ok (t, e)) :
    KeepsBuffers s t := by
  induction n generalizing s with
  | zero => simp only [decodeBits] at h; split at h <;> cases h <;> exact .refl _
  | succ n ih =>
    by_cases hc : Config.codeLenMax ≤ s.decClen
    · rw [decodeBits_full n hc] at h; cases h; exact .refl _
    cases hb : payloadBit s.decPos s with
    | error x => simp [decodeBits, hc, hb] at h
    | ok b =>
      rw [decodeBits_succ n s (Nat.lt_of_not_le hc) hb] at h
      split at h
      · split at h
        · cases h; exact .refl s
        · rcases emitSymbol_cases ‹_› (takeBit b s) with ⟨hl, he⟩ | ⟨-, he⟩ <;> rw [he] at h
          · have hk := keepsBuffers_set (s := takeBit b s) (b := .symout) (BitVec.ofNat 8 ‹_›) hl
            have ht := ih h
            exact hk.trans ht
          · cases h
      · split at h
        · cases h; exact .refl s
        · exact ih (s := takeBit b s) h

theorem clearedState_keepsBuffers (mask : BitVec 5) {s : State} (h0 : 0 < s.cfg.outCap) :
    KeepsBuffers s (clearedState mask s) := by
  refine clearedState_induction (P := KeepsBuffers s) (fun _ h => h) (fun _ h => h) (fun u h => ?_) (fun _ h => h)
    (fun _ h => h) mask (.refl s)
  have hp : KeepsBuffers u (clearPacker u) := keepsBuffers_set (b := .outbuf) 0#8 (h.1 ▸ h0)
  exact h.trans hp

/-- Every body keeps the buffers. -/
theorem bodyOf_keepsBuffers {i : Instr} {s t : State} (hi : i ≠ .decode) (h0 : 0 < s.cfg.outCap)
    (h : bodyOf i s = .ok t) : KeepsBuffers s t := by
  have hf := bodyOf_frame hi h
  cases i with
  | decode => exact absurd rfl hi
  | nop => cases h; exact .refl s
  | clear mask => cases h; exact clearedState_keepsBuffers mask h0
  | enc sym => obtain ⟨-, -, -, h⟩ := encBody_ok h; exact appendBits_keepsBuffers (appendChecked_ok h).2
  | putbits n v => exact appendBits_keepsBuffers (appendChecked_ok (putbitsBody_ok h).2).2
  | flush => exact flushBody_keepsBuffers h
  | xfer => obtain ⟨-, -, u, hu, rfl⟩ := xferBody_ok h; have hk := copyOut_keepsBuffers hu; exact hk
  | _ => exact keepsBuffers_of_eq (by rw [hf]) (by rw [hf]) (by rw [hf]) (by rw [hf])

theorem exec_keepsBuffers {i : Instr} {s t : State} (h0 : 0 < s.cfg.outCap) (h : exec i s = .next t) :
    KeepsBuffers s t := by
  by_cases hi : i = .decode
  · subst hi
    rcases execDecode_next h with ⟨-, rfl⟩ | ⟨-, -, u, e, hu, rfl⟩
    · exact .refl s
    · have hk := decodeBits_keepsBuffers hu
      cases e <;> exact hk
  · rcases exec_next hi h with hb | ⟨e, -, rfl⟩
    · exact bodyOf_keepsBuffers hi h0 hb
    · exact .refl s

theorem writeLane_keepsBuffers (q : Nat) (v : Word) (r : Nat) (s : State) : KeepsBuffers s (writeLane q v r s) := by
  unfold writeLane
  split
  · rename_i h; exact keepsBuffers_set (b := .inbuf) _ h
  · exact .refl s

theorem writeInbuf_keepsBuffers (q : Nat) (v : Word) (s : State) : KeepsBuffers s (writeInbuf q v s) :=
  (((writeLane_keepsBuffers q v 0 s).trans (writeLane_keepsBuffers q v 1 _)).trans
    (writeLane_keepsBuffers q v 2 _)).trans (writeLane_keepsBuffers q v 3 _)

theorem writePort_keepsBuffers (v : Word) (s : State) (p : Port) : KeepsBuffers s (writePort v s p) := by
  cases p with
  | inbufWord q => exact writeInbuf_keepsBuffers q v s
  | inLen => simp only [writePort]; split <;> exact .refl s
  | _ => exact .refl s

theorem resetBlock_keepsBuffers {s : State} (h0 : 0 < s.cfg.outCap) : KeepsBuffers s (resetBlock s) := by
  refine ⟨rfl, fun _ => ?_⟩
  simpa [State.BuffersCanonical, resetBlock, State.afterReset, Memory.wf, Cells.Rising, Cells.Below] using h0

theorem step_keepsBuffers {s t : State} (h0 : 0 < s.cfg.outCap) (h : step s = .next t) : KeepsBuffers s t := by
  have taken : ∀ rest r, KeepsBuffers s { s with host := rest, reply := r } := fun _ _ => .refl s
  rcases step_next h with ⟨-, rfl⟩ | ⟨a, rest, -, ⟨r, rfl⟩ | ⟨-, rfl⟩ | ⟨off, v, -, rfl⟩ |
    ⟨w, e, -, -, -, rfl⟩ | ⟨w, i, -, -, -, hx⟩⟩
  · exact .refl _
  · exact taken rest r
  · exact resetBlock_keepsBuffers h0
  · exact (taken rest .silent).trans (writePort_keepsBuffers v _ _)
  · exact taken rest .silent
  · exact (taken rest .silent).trans (exec_keepsBuffers h0 hx)

/-- Settles O58: every write is inside its buffer, and reset lists `OUTBUF[0]` alone. -/
theorem everyStepKeepsBuffersCanonical : Obligations.EveryStepKeepsBuffersCanonical := by
  intro s t hl hb h
  have h0 : 0 < s.cfg.outCap := by obtain ⟨-, -, ⟨ho, -⟩, -⟩ := hl; omega
  exact ⟨(step_keepsBuffers h0 h).2 hb, (step_keepsBuffers h0 h).1⟩

end Sys2Proof.Machine
end

section
/-! The node store (10_state R61): what a walk of a sound tree finds, and what a larger store keeps of a smaller one. -/

namespace Sys2Proof.Machine

/-- Every node below `NODE_COUNT` is present and made of nodes before it (10_state R61, R67(c)). -/
abbrev State.NodesSound (s : State) : Prop := ∀ i < s.nodeCount, s.soundNode i = true

theorem lt_of_nodeAt {s : State} {i : Nat} {n : Node} (h : s.nodeAt i = some n) : i < s.nodeCount := by
  unfold State.nodeAt at h
  split at h
  · assumption
  · cases h

theorem nodeAt_eq_none {s : State} {i : Nat} (h : s.nodeCount ≤ i) : s.nodeAt i = none :=
  if_neg (Nat.not_lt.2 h)

/-- A sound node is a leaf, or joins two nodes before it. -/
theorem soundNode_cases {s : State} {i : Nat} (h : s.soundNode i = true) :
    (∃ c sym, s.nodeAt i = some (.leaf c sym)) ∨
    (∃ c l r, s.nodeAt i = some (.internal c l r) ∧ l < i ∧ r < i ∧ c = s.countAt l + s.countAt r) := by
  unfold State.soundNode at h
  split at h
  · cases h
  · exact .inl ⟨_, _, by assumption⟩
  · rename_i c l r hn
    simp only [Bool.and_eq_true, decide_eq_true_eq] at h
    obtain ⟨⟨hl, hr⟩, hc⟩ := h
    exact .inr ⟨c, l, r, hn, hl, hr, hc⟩

theorem nodeAt_isSome {s : State} {i : Nat} (h : s.soundNode i = true) : (s.nodeAt i).isSome = true := by
  rcases soundNode_cases h with ⟨c, sym, hn⟩ | ⟨c, l, r, hn, -⟩ <;> simp [hn]

section Agree

variable {s t : State}

theorem countAt_agree {i : Nat} (h : t.nodeAt i = s.nodeAt i) : t.countAt i = s.countAt i := by
  simp [State.countAt, h]

theorem childrenAt_agree {i : Nat} (h : t.nodeAt i = s.nodeAt i) : t.childrenAt i = s.childrenAt i := by
  simp only [State.childrenAt, h]

/-- A node is sound by the nodes up to it. -/
theorem soundNode_agree {i : Nat} (h : ∀ j ≤ i, t.nodeAt j = s.nodeAt j) (hs : s.soundNode i = true) :
    t.soundNode i = true := by
  rcases soundNode_cases hs with ⟨c, sym, hn⟩ | ⟨c, l, r, hn, hl, hr, hc⟩
  · simp [State.soundNode, h i le_rfl, hn]
  · simp [State.soundNode, h i le_rfl, hn, hl, hr, hc, countAt_agree (h l hl.le), countAt_agree (h r hr.le)]

variable (hs : s.NodesSound)
include hs

/-- A walk needs the nodes below its start alone, and no more fuel than they are. -/
theorem walk_agree (ht : ∀ i < s.nodeCount, t.nodeAt i = s.nodeAt i) {f g i : Nat} (p : Bits)
    (hi : i < s.nodeCount) (hf : i < f) (hg : i < g) : walk t f i p = walk s g i p := by
  induction f generalizing g i p with
  | zero => omega
  | succ f ih =>
    obtain ⟨g, rfl⟩ : ∃ k, g = k + 1 := ⟨g - 1, by omega⟩
    simp only [walk, ht i hi]
    rcases soundNode_cases (hs i hi) with ⟨c, sym, hn⟩ | ⟨c, l, r, hn, hl, hr, -⟩ <;> simp only [hn]
    rw [ih (g := g) _ (by omega) (by omega) (by omega), ih (g := g) _ (by omega) (by omega) (by omega)]

/-- The walk of a sound tree ends within the fuel of `ASSIGN` (log 8). -/
theorem walk_exists {f i : Nat} (p : Bits) (hi : i < s.nodeCount) (hf : i < f) : ∃ xs, walk s f i p = some xs := by
  induction f generalizing i p with
  | zero => omega
  | succ f ih =>
    simp only [walk]
    rcases soundNode_cases (hs i hi) with ⟨c, sym, hn⟩ | ⟨c, l, r, hn, hl, hr, -⟩ <;> simp only [hn]
    · exact ⟨_, rfl⟩
    · obtain ⟨xs, hx⟩ := ih (p ++ [leftBit]) (i := l) (by omega) (by omega)
      obtain ⟨ys, hy⟩ := ih (p ++ [rightBit]) (i := r) (by omega) (by omega)
      exact ⟨xs ++ ys, by simp [hx, hy]⟩

omit hs in
/-- The symbols a walk finds do not depend on the path it began with. -/
theorem walk_symbols_path {f i : Nat} {p q : Bits} {xs ys : List (Nat × Bits)} (hx : walk s f i p = some xs)
    (hy : walk s f i q = some ys) : xs.map Prod.fst = ys.map Prod.fst := by
  induction f generalizing i p q xs ys with
  | zero => cases hx
  | succ f ih =>
    rcases walk_cases hx with ⟨c, sym, hn, rfl⟩ | ⟨c, l, r, x1, x2, hn, hx1, hx2, rfl⟩ <;>
    rcases walk_cases hy with ⟨c', sym', hn', rfl⟩ | ⟨c', l', r', y1, y2, hn', hy1, hy2, rfl⟩ <;>
    rw [hn] at hn' <;> cases hn'
    · rfl
    · rw [List.map_append, List.map_append, ih hx1 hy1, ih hx2 hy2]

/-- A walk finds the symbols below its start, left to right. -/
theorem walk_symbols {f i : Nat} {p : Bits} {xs : List (Nat × Bits)} (hi : i < s.nodeCount) (hf : i < f)
    (h : walk s f i p = some xs) : xs.map Prod.fst = s.leafSymbols i := by
  obtain ⟨ys, hy⟩ := walk_exists hs [] hi hi
  rw [walk_agree hs (fun _ _ => rfl) [] hi hi hf] at hy
  rw [walk_symbols_path h hy, State.leafSymbols, walk_agree hs (fun _ _ => rfl) [] hi hi hf, hy]
  rfl

theorem leafSymbols_agree (ht : ∀ i < s.nodeCount, t.nodeAt i = s.nodeAt i) (hc : s.nodeCount ≤ t.nodeCount) {i : Nat}
    (hi : i < s.nodeCount) : t.leafSymbols i = s.leafSymbols i := by
  rw [State.leafSymbols, walk_agree hs ht [] hi (by omega) hi, State.leafSymbols]

theorem leafSymbols_internal {i c l r : Nat} (h : s.nodeAt i = some (.internal c l r)) :
    s.leafSymbols i = s.leafSymbols l ++ s.leafSymbols r := by
  have hi := lt_of_nodeAt h
  obtain ⟨k, hk⟩ : ∃ k, s.nodeCount = k + 1 := ⟨s.nodeCount - 1, by omega⟩
  obtain ⟨xs, hx⟩ := walk_exists hs [] hi hi
  rw [← walk_symbols hs hi hi hx]
  rw [hk] at hx
  rcases soundNode_cases (hs i hi) with ⟨c', sym, hn⟩ | ⟨c', l', r', hn, hl, hr, -⟩ <;> rw [h] at hn <;> cases hn
  rcases walk_cases hx with ⟨_, _, hn', -⟩ | ⟨_, _, _, ys, zs, hn', hy, hz, rfl⟩ <;> rw [h] at hn' <;> cases hn'
  rw [List.map_append, walk_symbols hs (by omega) (by omega) hy, walk_symbols hs (by omega) (by omega) hz]

end Agree

theorem leafSymbols_leaf {s : State} {i c sym : Nat} (h : s.nodeAt i = some (.leaf c sym)) : s.leafSymbols i = [sym] := by
  obtain ⟨k, hk⟩ : ∃ k, s.nodeCount = k + 1 := ⟨s.nodeCount - 1, by have := lt_of_nodeAt h; omega⟩
  simp [State.leafSymbols, hk, walk, h]

/-- What the tree's part of 10_state R67 speaks of. -/
def State.treeFields (s : State) :=
  (s.nodes, s.nodeCount, s.wl, s.wlLen, s.tbState, s.total, s.leaves, s.freq)

/-- The tree is sound by its own fields. -/
theorem treeSound_congr {s t : State} (h : t.treeFields = s.treeFields) (hs : s.TreeSound) : t.TreeSound := by
  simp only [State.treeFields, Prod.mk.injEq] at h
  obtain ⟨h1, h2, h3, h4, h5, h6, h7, h8⟩ := h
  obtain ⟨k1, k2, k3, k4, k5, k6, k7, k8⟩ := hs
  have hn : ∀ i, t.nodeAt i = s.nodeAt i := fun i => by simp [State.nodeAt, h1, h2]
  have hc : ∀ i, t.countAt i = s.countAt i := fun i => countAt_agree (hn i)
  have hl : t.childList = s.childList := by
    simp only [State.childList, h2, funext fun i => childrenAt_agree (hn i)]
  refine ⟨by rw [h4, h3, k1], by rw [h5, h2, k2], by rw [h2, h3]; exact k3, by rw [h5, h4]; exact k4, ?_,
    by rw [hl, h3, h2]; exact k6, ?_, ?_⟩
  · intro i hi
    rw [h2] at hi
    exact soundNode_agree (fun j _ => hn j) (k5 i hi)
  · rw [h3]
    exact k7.imp fun h => by simpa only [State.keyBefore, hc] using h
  · intro hb
    rw [h5] at hb
    obtain ⟨m1, m2, m3, m4⟩ := k8 hb
    refine ⟨by rw [h4]; exact m1, by rw [h2, h4, h7]; exact m2, ?_, ?_⟩
    · rw [h3, h6, funext hc]; exact m3
    · have hw : ∀ i ∈ s.wl, t.leafSymbols i = s.leafSymbols i := fun i hi =>
        leafSymbols_agree k5 (fun j _ => hn j) h2.ge
          (List.mem_range.1 (k6.subset (List.mem_append_right _ hi)))
      rw [h3, h8, List.flatMap_congr hw]
      exact m4

end Sys2Proof.Machine
end

section
/-! `TBINIT` and `MERGE` keep the tree sound (10_state R67(b) to (d)). -/

namespace Sys2Proof.Machine

/-! `TBINIT`: the sorted leaves. -/

/-- The state `TBINIT` makes (40_tree_builder R112). -/
def State.treeInit (s : State) : State :=
  { s with
    nodes := leafNodes 0 (s.leafOrder.take s.leaves)
    nodeCount := s.leaves
    wl := List.range s.leaves
    wlLen := s.leaves
    tbState := if s.leaves = 1 then .done else .loaded }

theorem initTree_eq {s : State} (h : s.leaves ≠ 0) : initTree s = .ok s.treeInit := if_neg h

/-- The model's sort is the library's. -/
theorem sortLeaves_eq (l : Cells Nat) : sortLeaves l = l.insertionSort (fun a b => leafBefore a b = true) := by
  have insert_eq : ∀ (a : Nat × Nat) m, insertLeaf a m = m.orderedInsert (fun a b => leafBefore a b = true) a := by
    intro a m
    induction m with
    | nil => rfl
    | cons b r ih => simp [insertLeaf, List.orderedInsert, ih]
  induction l with
  | nil => rfl
  | cons a r ih => rw [sortLeaves, insert_eq, ih]; rfl

theorem leafBefore_iff (a b : Nat × Nat) :
    leafBefore a b = true ↔ a.2 < b.2 ∨ (a.2 = b.2 ∧ a.1 ≤ b.1) := by simp [leafBefore]

theorem sortLeaves_sorted (l : Cells Nat) : (sortLeaves l).Pairwise (fun a b => leafBefore a b = true) := by
  rw [sortLeaves_eq]
  have ht : Std.Total (fun a b : Nat × Nat => leafBefore a b = true) := ⟨fun a b => by
    simp only [leafBefore_iff]; omega⟩
  have htr : IsTrans (Nat × Nat) (fun a b => leafBefore a b = true) := ⟨fun a b c h1 h2 => by
    simp only [leafBefore_iff] at *; omega⟩
  exact List.pairwise_insertionSort _ l

/-- Where every listed count is at least 1, the leaves are the listed pairs, sorted. -/
theorem leafOrder_perm {s : State} (h : ∀ p ∈ s.freq, 1 ≤ p.2) : s.leafOrder.Perm s.freq := by
  have hf : s.freq.filter (fun p => decide (1 ≤ p.2)) = s.freq := List.filter_eq_self.2 (by simpa using h)
  rw [State.leafOrder, hf, sortLeaves_eq]
  exact List.perm_insertionSort _ _

theorem get_leafNodes (k : Nat) (l : List (Nat × Nat)) (i : Nat) :
    Cells.get (leafNodes k l) (k + i) = l[i]?.map (fun p => Node.leaf p.2 p.1) := by
  induction l generalizing k i with
  | nil => rfl
  | cons p r ih =>
    obtain ⟨sym, c⟩ := p
    cases i with
    | zero => simp [leafNodes, Cells.get]
    | succ i =>
      have hk : k + (i + 1) = k + 1 + i := by omega
      simp [leafNodes, Cells.get, hk, ih, show k + 1 + i ≠ k by omega]

theorem map_fst_leafNodes (k : Nat) (l : List (Nat × Nat)) :
    (leafNodes k l).map Prod.fst = List.range' k l.length := by
  induction l generalizing k with
  | nil => rfl
  | cons p r ih => simp [leafNodes, ih, List.range'_succ]

theorem map_range_getElem? {α β : Type} (l : List α) (f : Option α → β) :
    (List.range l.length).map (fun i => f l[i]?) = l.map (fun x => f (some x)) := by
  refine List.ext_getElem (by simp) fun i _ hi => ?_
  simp only [List.getElem_map, List.getElem_range, List.getElem?_eq_getElem (List.length_map (α := α) _ ▸ hi)]

section TreeInit

variable {s : State} (hf : ∀ p ∈ s.freq, 1 ≤ p.2) (hl : s.leaves = s.freq.length)
include hf hl

theorem length_leafOrder : s.leafOrder.length = s.leaves := by rw [(leafOrder_perm hf).length_eq, hl]

/-- The node at each index is the leaf at that place of the order. -/
theorem nodeAt_treeInit (i : Nat) :
    s.treeInit.nodeAt i = s.leafOrder[i]?.map (fun p => Node.leaf p.2 p.1) := by
  have hlen := length_leafOrder hf hl
  have hget := get_leafNodes 0 s.leafOrder i
  rw [Nat.zero_add] at hget
  simp only [State.nodeAt, State.treeInit, ← hlen, List.take_length]
  split
  · exact hget
  · rename_i h; rw [List.getElem?_eq_none (by omega)]; rfl

theorem treeInit_nodes_canonical :
    Cells.Rising s.treeInit.nodes ∧ Cells.Below s.treeInit.nodes s.treeInit.nodeCount := by
  have hlen := length_leafOrder hf hl
  have hk : s.treeInit.nodes.map Prod.fst = List.range s.leaves := by
    simp [State.treeInit, map_fst_leafNodes, hlen, List.range_eq_range']
  refine ⟨?_, fun p hp => ?_⟩
  · rw [Cells.Rising, hk]; exact List.pairwise_lt_range
  · have := List.mem_map_of_mem (f := Prod.fst) hp
    rw [hk] at this
    exact List.mem_range.1 this

theorem countAt_treeInit (i : Nat) : s.treeInit.countAt i = (s.leafOrder[i]?.map Prod.snd).getD 0 := by
  rw [State.countAt, nodeAt_treeInit hf hl]
  cases s.leafOrder[i]? <;> rfl

theorem treeInit_leaf {i : Nat} (hi : i < s.leafOrder.length) :
    s.treeInit.nodeAt i = some (.leaf s.leafOrder[i].2 s.leafOrder[i].1) := by
  rw [nodeAt_treeInit hf hl, List.getElem?_eq_getElem hi]
  rfl

/-- The working list `TBINIT` makes is ascending by key (00_scope R14). -/
theorem treeInit_pairwise : (List.range s.leaves).Pairwise s.treeInit.keyBefore := by
  have hlen := length_leafOrder hf hl
  refine List.pairwise_iff_getElem.2 fun i j hi hj hij => ?_
  simp only [List.length_range, ← hlen] at hi hj
  have hb := (leafBefore_iff _ _).1 (List.pairwise_iff_getElem.1 (sortLeaves_sorted _) i j hi hj hij)
  have hci : s.treeInit.countAt i = s.leafOrder[i].2 := by simp [countAt_treeInit hf hl, hi]
  have hcj : s.treeInit.countAt j = s.leafOrder[j].2 := by simp [countAt_treeInit hf hl, hj]
  have hcij : s.leafOrder[i].2 ≤ s.leafOrder[j].2 := hb.elim Nat.le_of_lt fun h => h.1.le
  rw [List.getElem_range, List.getElem_range, State.keyBefore, hci, hcj]
  omega

/-- Each counted symbol is the leaf of one node. -/
theorem treeInit_symbols : ((List.range s.leaves).flatMap s.treeInit.leafSymbols).Perm (s.freq.map Prod.fst) := by
  have hs : ∀ i ∈ List.range s.leafOrder.length,
      s.treeInit.leafSymbols i = (s.leafOrder[i]?.map Prod.fst).toList := fun i hi => by
    have hi := List.mem_range.1 hi
    rw [leafSymbols_leaf (treeInit_leaf hf hl hi), List.getElem?_eq_getElem hi]
    rfl
  rw [← length_leafOrder hf hl, List.flatMap_congr hs, List.flatMap_def,
    map_range_getElem? s.leafOrder (fun o => (o.map Prod.fst).toList), ← List.flatMap_def]
  simpa [← List.map_eq_flatMap] using (leafOrder_perm hf).map Prod.fst

/-- The counts of the leaves are those counted. -/
theorem treeInit_counts : ((List.range s.leaves).map s.treeInit.countAt).sum = (s.freq.map Prod.snd).sum := by
  rw [funext (countAt_treeInit hf hl), ← length_leafOrder hf hl,
    map_range_getElem? s.leafOrder (fun o => (o.map Prod.snd).getD 0)]
  exact ((leafOrder_perm hf).map Prod.snd).sum_eq

/-- `TBINIT` makes a sound tree of leaves alone. -/
theorem treeInit_sound (h0 : s.leaves ≠ 0) (ht : s.total = (s.freq.map Prod.snd).sum) : s.treeInit.TreeSound := by
  have hnode : ∀ i < s.leaves, ∃ c sym, s.treeInit.nodeAt i = some (.leaf c sym) := fun i hi =>
    ⟨_, _, treeInit_leaf hf hl (length_leafOrder hf hl ▸ hi)⟩
  have hbusy : s.treeInit.tbState ≠ .idle := by simp only [State.treeInit]; split <;> simp
  refine ⟨List.length_range.symm, ⟨fun h => absurd h hbusy, fun h => absurd h h0⟩, fun h => absurd h h0, ?_,
    fun i hi => ?_, ?_, treeInit_pairwise hf hl, fun _ => ⟨Nat.one_le_iff_ne_zero.2 h0, (Nat.two_mul _).symm,
      (treeInit_counts hf hl).trans ht.symm, treeInit_symbols hf hl⟩⟩
  · simp only [State.treeInit]
    by_cases h1 : s.leaves = 1 <;> simp [h1]
  · obtain ⟨c, sym, hn⟩ := hnode i hi
    simp [State.soundNode, hn]
  · have hc : s.treeInit.childList = [] := by
      refine List.flatMap_eq_nil_iff.2 fun i hi => ?_
      obtain ⟨c, sym, hn⟩ := hnode i (List.mem_range.1 hi)
      simp [State.childrenAt, hn]
    rw [hc]
    exact .refl _

end TreeInit

/-! `MERGE`. -/

/-- The state `MERGE` makes of the two first nodes `a` and `b` and the others `r` (40_tree_builder R113). -/
def State.merged (s : State) (a b : Nat) (r : List Nat) : State :=
  { s with
    nodes := Cells.set s.nodes s.nodeCount (.internal (s.countAt a + s.countAt b) a b)
    nodeCount := s.nodeCount + 1
    wl := r.take (mergePoint s (s.countAt a + s.countAt b) r) ++ s.nodeCount ::
      r.drop (mergePoint s (s.countAt a + s.countAt b) r)
    wlLen := s.wlLen - 1
    tbState := if s.wlLen - 1 = 1 then .done else s.tbState }

theorem mergeOnce_eq {s : State} {a b : Nat} {r : List Nat} (hw : s.wl = a :: b :: r)
    (hp : ∀ i ∈ s.wl, (s.nodeAt i).isSome = true) : mergeOnce s = .ok (s.merged a b r) := by
  have hall : s.wl.all (fun i => (s.nodeAt i).isSome) = true := List.all_eq_true.2 hp
  rw [hw] at hall
  simp only [mergeOnce, hw, hall, if_true]
  rfl

/-- In a list ascending by `f`, the elements with `f` at most `c` come first. -/
theorem take_drop_filter_le {f : Nat → Nat} (c : Nat) {r : List Nat} (h : r.Pairwise (fun i j => f i ≤ f j)) :
    r.take (r.filter (fun j => decide (f j ≤ c))).length = r.filter (fun j => decide (f j ≤ c)) ∧
    r.drop (r.filter (fun j => decide (f j ≤ c))).length = r.filter (fun j => decide (c < f j)) := by
  induction r with
  | nil => simp
  | cons x r ih =>
    obtain ⟨hx, hr⟩ := List.pairwise_cons.1 h
    obtain ⟨h1, h2⟩ := ih hr
    by_cases hc : f x ≤ c
    · simp [hc, h1, h2, Nat.not_lt.2 hc]
    · have hnone : r.filter (fun j => decide (f j ≤ c)) = [] :=
        List.filter_eq_nil_iff.2 fun j hj => by have := hx j hj; simp; omega
      have hall : r.filter (fun j => decide (c < f j)) = r :=
        List.filter_eq_self.2 fun j hj => by have := hx j hj; simp; omega
      simp [hc, hnone, hall, Nat.lt_of_not_le hc]

section Merged

variable {s : State} {a b : Nat} {r : List Nat}

/-- `MERGE` adds one node, and keeps every other. -/
theorem nodeAt_merged (i : Nat) :
    (s.merged a b r).nodeAt i =
      if i = s.nodeCount then some (.internal (s.countAt a + s.countAt b) a b) else s.nodeAt i := by
  simp only [State.nodeAt, State.merged, Cells.get_set]
  by_cases hi : i = s.nodeCount
  · simp [hi]
  · simp [hi, show i < s.nodeCount + 1 ↔ i < s.nodeCount by omega]

theorem nodeAt_merged_old {i : Nat} (hi : i < s.nodeCount) : (s.merged a b r).nodeAt i = s.nodeAt i := by
  rw [nodeAt_merged, if_neg (by omega)]

theorem nodeAt_merged_new : (s.merged a b r).nodeAt s.nodeCount = some (.internal (s.countAt a + s.countAt b) a b) := by
  rw [nodeAt_merged, if_pos rfl]

theorem countAt_merged_new : (s.merged a b r).countAt s.nodeCount = s.countAt a + s.countAt b := by
  rw [State.countAt, nodeAt_merged_new]; rfl

theorem merged_nodes_canonical (h : Cells.Rising s.nodes ∧ Cells.Below s.nodes s.nodeCount) :
    Cells.Rising (s.merged a b r).nodes ∧ Cells.Below (s.merged a b r).nodes (s.merged a b r).nodeCount :=
  ⟨Cells.rising_set _ _ h.1, Cells.below_set _ (fun p hp => Nat.lt_succ_of_lt (h.2 p hp)) (Nat.lt_succ_self _)⟩

/-- The rest of the working list, with the new node after every count not above its own. -/
theorem wl_merged (hr : r.Pairwise s.keyBefore) :
    (s.merged a b r).wl = r.filter (fun j => decide (s.countAt j ≤ s.countAt a + s.countAt b)) ++
      s.nodeCount :: r.filter (fun j => decide (s.countAt a + s.countAt b < s.countAt j)) := by
  have hle : r.Pairwise (fun i j => s.countAt i ≤ s.countAt j) :=
    hr.imp fun h => h.elim Nat.le_of_lt fun h => h.1.le
  obtain ⟨h1, h2⟩ := take_drop_filter_le (s.countAt a + s.countAt b) hle
  rw [← h1, ← h2]
  rfl

theorem wl_merged_perm : (s.merged a b r).wl.Perm (s.nodeCount :: r) := by
  refine List.perm_middle.trans (List.Perm.cons _ ?_)
  rw [List.take_append_drop]

theorem countAt_merged_old {i : Nat} (hi : i < s.nodeCount) : (s.merged a b r).countAt i = s.countAt i :=
  countAt_agree (nodeAt_merged_old hi)

/-- `MERGE` makes children of the two nodes it takes. -/
theorem childList_merged : (s.merged a b r).childList = s.childList ++ [a, b] := by
  have hold : ∀ i ∈ List.range s.nodeCount, (s.merged a b r).childrenAt i = s.childrenAt i := fun i hi =>
    childrenAt_agree (nodeAt_merged_old (List.mem_range.1 hi))
  have hnew : (s.merged a b r).childrenAt s.nodeCount = [a, b] := by simp only [State.childrenAt, nodeAt_merged_new]
  show (List.range (s.nodeCount + 1)).flatMap _ = _
  rw [List.range_succ, List.flatMap_append, List.flatMap_congr hold]
  simp [State.childList, hnew]

theorem merged_nodesSound (h : s.NodesSound) (ha : a < s.nodeCount) (hb : b < s.nodeCount) :
    (s.merged a b r).NodesSound := fun i hi => by
  rcases Nat.lt_succ_iff_lt_or_eq.1 hi with hi | rfl
  · exact soundNode_agree (fun j hj => nodeAt_merged_old (by omega)) (h i hi)
  · simp [State.soundNode, nodeAt_merged_new, ha, hb, countAt_merged_old ha, countAt_merged_old hb]

/-- The new node stands after every key before its own, and before every key after it (00_scope R14). -/
theorem wl_merged_pairwise (hr : r.Pairwise s.keyBefore) (hlt : ∀ i ∈ r, i < s.nodeCount) :
    (s.merged a b r).wl.Pairwise (s.merged a b r).keyBefore := by
  have hmem : ∀ {q i}, i ∈ r.filter q → i < s.nodeCount := fun hi => hlt _ (List.mem_of_mem_filter hi)
  have key_old : ∀ {i j}, i < s.nodeCount → j < s.nodeCount → s.keyBefore i j → (s.merged a b r).keyBefore i j :=
    fun hi hj h => by rw [State.keyBefore, countAt_merged_old hi, countAt_merged_old hj]; exact h
  have keep : ∀ q, (r.filter q).Pairwise (s.merged a b r).keyBefore := fun q =>
    (hr.filter q).imp_of_mem fun hi hj h => key_old (hmem hi) (hmem hj) h
  rw [wl_merged hr]
  refine List.pairwise_append.2 ⟨keep _, List.pairwise_cons.2 ⟨fun j hj => ?_, keep _⟩, fun i hi j hj => ?_⟩
  · left
    rw [countAt_merged_new, countAt_merged_old (hmem hj)]
    simpa using (List.mem_filter.1 hj).2
  · have hci : s.countAt i ≤ s.countAt a + s.countAt b := by simpa using (List.mem_filter.1 hi).2
    have hil := hmem hi
    rcases List.mem_cons.1 hj with rfl | hj
    · rw [State.keyBefore, countAt_merged_new, countAt_merged_old hil]
      omega
    · have hcj : s.countAt a + s.countAt b < s.countAt j := by simpa using (List.mem_filter.1 hj).2
      exact key_old hil (hmem hj) (.inl (by omega))

/-- The leaves below the new working list are those below the old one. -/
theorem wl_merged_symbols (h : s.NodesSound) (hw : s.wl = a :: b :: r) (hlt : ∀ i ∈ s.wl, i < s.nodeCount) :
    ((s.merged a b r).wl.flatMap (s.merged a b r).leafSymbols).Perm (s.wl.flatMap s.leafSymbols) := by
  rw [hw] at hlt ⊢
  have ha : a < s.nodeCount := hlt a (by simp)
  have hb : b < s.nodeCount := hlt b (by simp)
  have sym_old : ∀ i < s.nodeCount, (s.merged a b r).leafSymbols i = s.leafSymbols i := fun i hi =>
    leafSymbols_agree h (fun _ hj => nodeAt_merged_old hj) (Nat.le_succ _) hi
  have sym_new : (s.merged a b r).leafSymbols s.nodeCount = s.leafSymbols a ++ s.leafSymbols b := by
    rw [leafSymbols_internal (merged_nodesSound h ha hb) nodeAt_merged_new, sym_old a ha, sym_old b hb]
  have hr : r.flatMap (s.merged a b r).leafSymbols = r.flatMap s.leafSymbols :=
    List.flatMap_congr fun i hi => sym_old i (hlt i (by simp [hi]))
  refine (wl_merged_perm.flatMap_right _).trans (.of_eq ?_)
  simp [sym_new, hr]

/-- `MERGE` keeps the tree sound. -/
theorem merged_sound (h : s.TreeSound) (hl : s.tbState = .loaded) (hw : s.wl = a :: b :: r) :
    (s.merged a b r).TreeSound := by
  obtain ⟨hlen, hidle, -, hdone, hnodes, hperm, hkeys, hbusy⟩ := h
  obtain ⟨-, hsize, hsum, hsyms⟩ := hbusy (by simp [hl])
  have hwl : ∀ i ∈ s.wl, i < s.nodeCount := fun i hi =>
    List.mem_range.1 (hperm.subset (List.mem_append_right _ hi))
  have hrlt : ∀ i ∈ r, i < s.nodeCount := fun i hi => hwl i (by simp [hw, hi])
  have hwlen : s.wlLen = r.length + 2 := by rw [hlen, hw]; rfl
  have hbusy' : (s.merged a b r).tbState ≠ .idle := by simp only [State.merged]; split <;> simp [hl]
  have hsucc : (s.merged a b r).nodeCount ≠ 0 := Nat.succ_ne_zero _
  refine ⟨?_, ⟨fun h => absurd h hbusy', fun h => absurd h hsucc⟩, fun h => absurd h hsucc, ?_,
    merged_nodesSound hnodes (hwl a (by simp [hw])) (hwl b (by simp [hw])), ?_, ?_, fun _ => ⟨?_, ?_, ?_, ?_⟩⟩
  · rw [wl_merged_perm.length_eq]
    show s.wlLen - 1 = r.length + 1
    omega
  · simp only [State.merged]
    by_cases h1 : s.wlLen - 1 = 1 <;> simp [h1, hl]
  · have hp : (s.childList ++ [a, b] ++ (s.nodeCount :: r)).Perm (s.nodeCount :: List.range s.nodeCount) := by
      refine List.perm_middle.trans (List.Perm.cons _ ?_)
      rw [hw] at hperm
      simpa using hperm
    show List.Perm _ (List.range (s.nodeCount + 1))
    rw [childList_merged, List.range_succ]
    exact (wl_merged_perm.append_left _).trans (hp.trans (List.perm_append_singleton _ _).symm)
  · rw [hw] at hkeys
    exact wl_merged_pairwise hkeys.of_cons.of_cons hrlt
  · show 1 ≤ s.wlLen - 1
    omega
  · show s.nodeCount + 1 + (s.wlLen - 1) = 2 * s.leaves
    omega
  · show _ = s.total
    rw [(wl_merged_perm.map _).sum_eq, List.map_cons, List.sum_cons, countAt_merged_new,
      List.map_congr_left fun i hi => countAt_merged_old (hrlt i hi), ← hsum, hw]
    simp [Nat.add_assoc]
  · exact (wl_merged_symbols hnodes hw hwl).trans hsyms

end Merged

end Sys2Proof.Machine
end

section
/-! The counter, the tree builder and the code table end in sound parts (10_state R67(a) to (e)). -/

namespace Sys2Proof.Machine

open Sys2Proof.Claims

/-- A body ends without a fault, and what state it gives has the property. -/
def EndsIn (P : State → Prop) : Cmd State → Prop
  | .ok t => P t
  | .error (.error _) => True
  | .error (.fault _) => False

theorem EndsIn.of_ok {P : State → Prop} {r : Cmd State} {t : State} (h : EndsIn P r) (hr : r = .ok t) : P t := by
  subst hr; exact h

theorem EndsIn.imp {P Q : State → Prop} {r : Cmd State} (h : EndsIn P r) (hpq : ∀ t, r = .ok t → P t → Q t) :
    EndsIn Q r := by
  match r with
  | .ok t => exact hpq t rfl h
  | .error (.error _) => trivial
  | .error (.fault _) => exact h.elim

theorem endsIn_of_exists {P : State → Prop} {r : Cmd State} (h : ∃ t, r = .ok t ∧ P t) : EndsIn P r := by
  obtain ⟨t, rfl, ht⟩ := h; exact ht

/-! Canonical tables under one more entry. -/

theorem Cells.set_perm {α : Type} {m : Cells α} {a : Nat} {v : α} (h : Cells.get m a = none) :
    (Cells.set m a v).Perm ((a, v) :: m) := by
  induction m with
  | nil => exact .refl _
  | cons q r ih =>
    obtain ⟨k, w⟩ := q
    simp only [Cells.get] at h
    split at h
    · cases h
    · rename_i hk
      simp only [Cells.set, if_neg hk]
      split
      · exact .refl _
      · exact ((ih h).cons _).trans (.swap _ _ _)

/-- The sum of the values under one write. -/
theorem Cells.sum_set {m : Cells Nat} (h : Cells.Rising m) (a v : Nat) :
    ((Cells.set m a v).map Prod.snd).sum + (Cells.get m a).getD 0 = (m.map Prod.snd).sum + v := by
  induction m with
  | nil => simp [Cells.set]
  | cons q r ih =>
    obtain ⟨k, w⟩ := q
    obtain ⟨hk, hr⟩ := Cells.rising_cons.1 h
    have ih := ih hr
    simp only [Cells.set, Cells.get]
    by_cases h1 : a < k
    · have hne : a ≠ k := by omega
      have hn : Cells.get r a = none := by
        refine Cells.get_eq_none.2 fun hm => ?_
        obtain ⟨p, hp, rfl⟩ := List.mem_map.1 hm
        have := hk p hp
        dsimp only at this
        omega
      simp [h1, hne, hn]
      omega
    · by_cases h2 : a = k
      · simp [h2]
        omega
      · simp [h1, h2]
        omega

/-! The counter. -/

/-- 10_state R67(a) with the canonical form of `FREQ` (10_state R60). -/
def State.CounterWhole (s : State) : Prop :=
  s.CountsAdd ∧ Cells.Rising s.freq ∧ Cells.Below s.freq s.cfg.nsym ∧ ∀ p ∈ s.freq, 1 ≤ p.2

theorem countBody_endsIn {sym : Nat} {s : State} (h : s.CounterWhole) (hsym : sym < s.cfg.nsym) :
    EndsIn State.CounterWhole (countBody sym s) := by
  obtain ⟨⟨htotal, hmax, hleaves⟩, hrise, hbelow, hpos⟩ := h
  unfold countBody
  split
  · trivial
  split
  · trivial
  rename_i hfull
  have hsum := Cells.sum_set hrise sym (s.freqOf sym + 1)
  refine ⟨⟨?_, ?_, ?_⟩, Cells.rising_set _ _ hrise, Cells.below_set _ hbelow hsym, fun p hp => ?_⟩
  · simp only [State.freqOf] at hsum ⊢
    omega
  · exact Nat.lt_of_le_of_ne hmax hfull
  · have hzero : s.freqOf sym = 0 ↔ Cells.get s.freq sym = none := by
      unfold State.freqOf
      cases hg : Cells.get s.freq sym with
      | none => simp
      | some v => simpa using Nat.one_le_iff_ne_zero.1 (hpos _ (Cells.mem_of_get hg))
    simp only [Cells.length_set hrise, hzero, hleaves]
  · rcases Cells.mem_set hp with rfl | hp
    · exact Nat.succ_pos _
    · exact hpos p hp

/-! The tree builder. -/

/-- 10_state R67(b) to (d) with the canonical form of `NODE` (10_state R61). -/
def State.TreeWhole (s : State) : Prop :=
  s.TreeSound ∧ Cells.Rising s.nodes ∧ Cells.Below s.nodes s.nodeCount

theorem wl_lt {s : State} (h : s.TreeSound) {i : Nat} (hi : i ∈ s.wl) : i < s.nodeCount := by
  obtain ⟨-, -, -, -, -, hperm, -⟩ := h
  exact List.mem_range.1 (hperm.subset (List.mem_append_right _ hi))

theorem wl_present {s : State} (h : s.TreeSound) : ∀ i ∈ s.wl, (s.nodeAt i).isSome = true := by
  intro i hi
  have hlt := wl_lt h hi
  obtain ⟨-, -, -, -, hnodes, -⟩ := h
  exact nodeAt_isSome (hnodes i hlt)

/-- While merges are to be made, the working list has two nodes or more. -/
theorem wl_of_loaded {s : State} (h : s.TreeSound) (hl : s.tbState = .loaded) : ∃ a b r, s.wl = a :: b :: r := by
  obtain ⟨hlen, -, -, hdone, -, -, -, hbusy⟩ := h
  obtain ⟨hpos, -⟩ := hbusy (by simp [hl])
  have h1 : s.wlLen ≠ 1 := fun h1 => by have := hdone.2 ⟨by simp [hl], h1⟩; simp [hl] at this
  match hw : s.wl with
  | [] => simp [hw] at hlen; omega
  | [a] => simp [hw] at hlen; omega
  | a :: b :: r => exact ⟨a, b, r, rfl⟩

/-- Once the tree is whole, the working list is its root. -/
theorem wl_of_done {s : State} (h : s.TreeSound) (hd : s.tbState = .done) : ∃ root, s.wl = [root] := by
  obtain ⟨hlen, -, -, hdone, -⟩ := h
  exact List.length_eq_one_iff.1 (hlen.symm.trans (hdone.1 hd).2)

theorem initTree_endsIn {s : State} (h : s.CounterWhole) : EndsIn State.TreeWhole (initTree s) := by
  obtain ⟨⟨htotal, -, hleaves⟩, -, -, hpos⟩ := h
  by_cases h0 : s.leaves = 0
  · rw [initTree, if_pos h0]
    trivial
  · rw [initTree_eq h0]
    exact ⟨treeInit_sound hpos hleaves h0 htotal, treeInit_nodes_canonical hpos hleaves⟩

theorem mergeOnce_whole {s : State} (h : s.TreeWhole) (hl : s.tbState = .loaded) :
    ∃ t, mergeOnce s = .ok t ∧ t.TreeWhole ∧ t.wl.length + 1 = s.wl.length := by
  obtain ⟨a, b, r, hw⟩ := wl_of_loaded h.1 hl
  refine ⟨_, mergeOnce_eq hw (wl_present h.1), ⟨merged_sound h.1 hl hw, merged_nodes_canonical h.2⟩, ?_⟩
  rw [wl_merged_perm.length_eq, hw]
  rfl

/-- The merges of `BUILD` run to their end: each shortens the working list (70_reset_and_hazards R240). -/
theorem mergeAll_whole {n : Nat} {s : State} (h : s.TreeWhole) (hn : s.wl.length ≤ n) :
    ∃ t, mergeAll n s = .ok t ∧ t.TreeWhole := by
  induction n generalizing s with
  | zero =>
    have hl : s.tbState ≠ .loaded := fun hl => by
      obtain ⟨a, b, r, hw⟩ := wl_of_loaded h.1 hl
      simp [hw] at hn
    exact ⟨s, by simp [mergeAll, hl], h⟩
  | succ n ih =>
    by_cases hl : s.tbState = .loaded
    · obtain ⟨u, hu, hwhole, hshort⟩ := mergeOnce_whole h hl
      obtain ⟨t, ht, hwt⟩ := ih hwhole (by omega)
      exact ⟨t, by rw [mergeAll, if_pos hl, hu, ok_bind, ht], hwt⟩
    · exact ⟨s, by simp [mergeAll, hl], h⟩

theorem tbinitBody_endsIn {s : State} (h : s.CounterWhole) : EndsIn State.TreeWhole (tbinitBody s) := by
  unfold tbinitBody
  split
  · trivial
  · exact initTree_endsIn h

theorem mergeBody_endsIn {s : State} (h : s.TreeWhole) : EndsIn State.TreeWhole (mergeBody s) := by
  unfold mergeBody
  split
  · trivial
  · rename_i hl
    obtain ⟨t, ht, hw, -⟩ := mergeOnce_whole h (not_not.1 hl)
    exact endsIn_of_exists ⟨t, ht, hw⟩

theorem buildBody_endsIn {s : State} (hc : s.CounterWhole) (h : s.TreeWhole) :
    EndsIn State.TreeWhole (buildBody s) := by
  have merges : ∀ u : State, u.TreeWhole → EndsIn State.TreeWhole (mergeAll u.wl.length u) := fun u hu =>
    endsIn_of_exists (mergeAll_whole hu le_rfl)
  unfold buildBody
  split
  · trivial
  split
  · have hi := initTree_endsIn hc
    cases hs : initTree s with
    | ok u => exact merges u (hi.of_ok hs)
    | error e => rw [hs] at hi; exact hi.imp fun t ht => by cases ht
  · exact merges s h

/-! The code table. -/

/-- 10_state R67(e) with the canonical form of `CT` (10_state R63). -/
def State.TableWhole (s : State) : Prop :=
  s.TableSound ∧ Cells.Rising s.ct ∧ Cells.Below s.ct s.cfg.nsym ∧
  ∀ p ∈ s.ct, 1 ≤ p.2.length ∧ p.2.length ≤ Config.codeLenMax

theorem nsym_le {c : Config} (h : c.Legal) : c.nsym ≤ 256 :=
  Nat.pow_le_pow_right (j := 8) (by decide) h.1.2

theorem walk_ne_nil {s : State} {f i : Nat} {p : Bits} {xs : List (Nat × Bits)} (h : walk s f i p = some xs) : xs ≠ [] := by
  induction f generalizing i p xs with
  | zero => cases h
  | succ f ih =>
    rcases walk_cases h with ⟨c, sym, -, rfl⟩ | ⟨c, l, r, ys, zs, -, hy, -, rfl⟩
    · simp
    · simp [ih hy]

/-- A path is shorter than the walk has leaves (40_tree_builder R115(d)). -/
theorem walk_path_length {s : State} {f i : Nat} {p : Bits} {xs : List (Nat × Bits)} (h : walk s f i p = some xs) :
    ∀ q ∈ xs, q.2.length + 1 ≤ p.length + xs.length := by
  induction f generalizing i p xs with
  | zero => cases h
  | succ f ih =>
    rcases walk_cases h with ⟨c, sym, -, rfl⟩ | ⟨c, l, r, ys, zs, -, hy, hz, rfl⟩
    · simp
    · have h1 := List.length_pos_iff.2 (walk_ne_nil hy)
      have h2 := List.length_pos_iff.2 (walk_ne_nil hz)
      intro q hq
      rw [List.length_append]
      rcases List.mem_append.1 hq with hq | hq
      · have := ih hy q hq
        simp at this
        omega
      · have := ih hz q hq
        simp at this
        omega

/-- The codes `ASSIGN` gives to a sound tree: one for each leaf, none the beginning of another, none empty,
and none, but a lone leaf's, as long as there are leaves (41_code_table R133, R135). -/
theorem treeCodes_sound {s : State} (h : s.NodesSound) {root : Nat} (hr : root < s.nodeCount) :
    ∃ codes, s.treeCodes root = some codes ∧ codes.map Prod.fst = s.leafSymbols root ∧
      codes.Pairwise (fun p q => ¬ p.2 <+: q.2 ∧ ¬ q.2 <+: p.2) ∧
      ∀ p ∈ codes, 1 ≤ p.2.length ∧ (p.2.length = 1 ∨ p.2.length + 1 ≤ codes.length) := by
  rcases soundNode_cases (h root hr) with ⟨c, sym, hn⟩ | ⟨c, l, r, hn, -⟩
  · exact ⟨[(sym, [leftBit])], by simp [State.treeCodes, hn], by simp [leafSymbols_leaf hn], by simp, by simp⟩
  · obtain ⟨codes, hw⟩ := walk_exists h [] hr hr
    refine ⟨codes, by simp [State.treeCodes, hn, hw], walk_symbols h hr hr hw, walk_prefix_free hw, fun p hp => ?_⟩
    have hlong := walk_path_length hw p hp
    obtain ⟨k, hk⟩ : ∃ k, s.nodeCount = k + 1 := ⟨s.nodeCount - 1, by omega⟩
    rw [hk] at hw
    have hpos : 1 ≤ p.2.length := by
      rcases walk_cases hw with ⟨_, _, hn', -⟩ | ⟨_, _, _, ys, zs, -, hy, hz, rfl⟩
      · rw [hn] at hn'; cases hn'
      · rcases List.mem_append.1 hp with hp | hp
        · simpa using (walk_extends hy p hp).length_le
        · simpa using (walk_extends hz p hp).length_le
    exact ⟨hpos, .inr (by simpa using hlong)⟩

/-- Codes of new symbols are entered each once. -/
theorem enterCodes_perm {codes : List (Nat × Bits)} {ct : Cells Bits}
    (h : (codes.map Prod.fst ++ ct.map Prod.fst).Nodup) : (enterCodes codes ct).Perm (codes ++ ct) := by
  induction codes generalizing ct with
  | nil => exact .refl _
  | cons p r ih =>
    obtain ⟨sym, code⟩ := p
    simp only [List.map_cons, List.cons_append, List.nodup_cons, List.mem_append, not_or] at h
    obtain ⟨⟨hr, hct⟩, hnd⟩ := h
    have hset : (Cells.set ct sym code).Perm ((sym, code) :: ct) := Cells.set_perm (Cells.get_eq_none.2 hct)
    have hkeys : (r.map Prod.fst ++ (Cells.set ct sym code).map Prod.fst).Perm
        (sym :: (r.map Prod.fst ++ ct.map Prod.fst)) :=
      ((hset.map Prod.fst).append_left _).trans List.perm_middle
    have hnd' := hkeys.nodup_iff.2 (List.nodup_cons.2 ⟨by simp [hr, hct], hnd⟩)
    exact (ih hnd').trans ((hset.append_left r).trans List.perm_middle)

theorem rising_enterCodes (codes : List (Nat × Bits)) {ct : Cells Bits} (h : Cells.Rising ct) :
    Cells.Rising (enterCodes codes ct) := by
  induction codes generalizing ct with
  | nil => exact h
  | cons p r ih => exact ih (Cells.rising_set _ _ h)

theorem nodup_keys {α : Type} {m : Cells α} (h : Cells.Rising m) : (m.map Prod.fst).Nodup :=
  List.Pairwise.imp Nat.ne_of_lt h

/-- `ASSIGN` in its phases enters one code for each counted symbol (41_code_table R133). -/
theorem assignBody_codes {s : State} (hc : s.CounterWhole) (ht : s.TreeSound) (hct : s.ct = []) (hdone : s.tbState = .done)
    (hempty : s.ctState = .empty) :
    ∃ codes, assignBody s = .ok { s with ct := enterCodes codes [], ctCount := s.leaves, ctState := .tree } ∧
      (enterCodes codes []).Perm codes ∧ (codes.map Prod.fst).Perm (s.freq.map Prod.fst) ∧ codes ≠ [] ∧
      codes.Pairwise (fun p q => ¬ p.2 <+: q.2 ∧ ¬ q.2 <+: p.2) ∧
      ∀ p ∈ codes, 1 ≤ p.2.length ∧ (p.2.length = 1 ∨ p.2.length + 1 ≤ codes.length) := by
  obtain ⟨-, hrise, -⟩ := hc
  obtain ⟨root, hw⟩ := wl_of_done ht hdone
  have hroot : root < s.nodeCount := wl_lt ht (by simp [hw])
  obtain ⟨-, -, -, -, hnodes, -, -, hbusy⟩ := ht
  obtain ⟨-, -, -, hsyms⟩ := hbusy (by simp [hdone])
  obtain ⟨codes, hcodes, hfst, hfree, hlen⟩ := treeCodes_sound hnodes hroot
  have hkeys : (codes.map Prod.fst).Perm (s.freq.map Prod.fst) := by
    rw [hfst]
    simpa [hw] using hsyms
  have hnd : (codes.map Prod.fst ++ List.map Prod.fst ([] : Cells Bits)).Nodup := by
    simpa using hkeys.nodup_iff.2 (nodup_keys hrise)
  have hne : s.leafSymbols root ≠ [] := by
    obtain ⟨xs, hx⟩ := walk_exists hnodes [] hroot hroot
    rw [← walk_symbols hnodes hroot hroot hx]
    simpa using walk_ne_nil hx
  refine ⟨codes, by simp [assignBody, hdone, hempty, hw, hcodes, hct], by simpa using enterCodes_perm hnd, hkeys,
    fun h => hne ?_, hfree, hlen⟩
  rw [← hfst, h, List.map_nil]

theorem assignBody_endsIn {s : State} (hlegal : s.cfg.Legal) (hc : s.CounterWhole) (ht : s.TreeSound)
    (h : s.TableWhole) : EndsIn State.TableWhole (assignBody s) := by
  by_cases hp : s.tbState ≠ .done ∨ s.ctState ≠ .empty
  · rw [assignBody, if_pos hp]
    trivial
  rw [not_or, not_not, not_not] at hp
  obtain ⟨hdone, hempty⟩ := hp
  have hct : s.ct = [] := h.1.2.2.1 hempty
  obtain ⟨codes, hbody, hperm, hkeys, hne, hfree, hlen⟩ := assignBody_codes hc ht hct hdone hempty
  obtain ⟨⟨-, -, hleaves⟩, hrise, hbelow, -⟩ := hc
  have hcount : codes.length = s.freq.length := by simpa using hkeys.length_eq
  have hsmall : s.freq.length ≤ 256 := (Cells.length_le hrise hbelow).trans (nsym_le hlegal)
  rw [hbody]
  refine ⟨⟨?_, ?_, ?_⟩, rising_enterCodes codes Cells.rising_nil, fun p hp => ?_, fun p hp => ?_⟩
  · show s.leaves = (enterCodes codes []).length
    rw [hperm.length_eq, hcount, hleaves]
  · exact (hperm.pairwise_iff fun h => ⟨h.2, h.1⟩).2 hfree
  · refine ⟨fun h => (by cases h), fun h => ?_⟩
    rw [show enterCodes codes [] = [] from h] at hperm
    exact absurd hperm.symm.eq_nil hne
  · obtain ⟨q, hq, hqp⟩ := List.mem_map.1 (hkeys.subset (List.mem_map_of_mem (f := Prod.fst) (hperm.subset hp)))
    exact hqp ▸ hbelow q hq
  · obtain ⟨h1, h2⟩ := hlen p (hperm.subset hp)
    have : Config.codeLenMax = 255 := rfl
    omega

/-- `firstClash` finds nothing only where no listed code clashes (41_code_table R134). -/
theorem firstClash_none {ct : Cells Bits} {x : Bits} (h : firstClash ct x = none) (hpos : ∀ p ∈ ct, 1 ≤ p.2.length) :
    ∀ p ∈ ct, ¬ x <+: p.2 ∧ ¬ p.2 <+: x := by
  intro p hp
  have hf := List.find?_eq_none.1 (Option.map_eq_none_iff.1 h) p hp
  have hne : p.2 ≠ [] := List.length_pos_iff.1 (hpos p hp)
  rw [← not_or, ← clashes_iff]
  simpa [hne] using hf

theorem loadcodeBody_endsIn {len sym : Nat} {s : State} (h : s.TableWhole) (hsym : sym < s.cfg.nsym)
    (hlen : len ≤ Config.codeLenMax) : EndsIn State.TableWhole (loadcodeBody len sym s) := by
  have ended : EndsIn (fun _ => True) (loadcodeBody len sym s) := by
    unfold loadcodeBody
    split
    · trivial
    split
    · trivial
    split
    · trivial
    split
    · trivial
    dsimp only
    split <;> trivial
  refine ended.imp fun t ht _ => ?_
  obtain ⟨-, h0, -, hnew, hclash, rfl⟩ := loadcodeBody_ok ht
  obtain ⟨⟨hcount, hfree, -⟩, hrise, hbelow, hlens⟩ := h
  have hfresh : Cells.get s.ct sym = none := by
    cases hg : Cells.get s.ct sym with
    | none => rfl
    | some x =>
      have hx := (hlens _ (Cells.mem_of_get hg)).1
      simp only [State.codeOf, hg, Option.getD_some] at hnew
      simp [hnew] at hx
  have hperm := Cells.set_perm (v := bstr s.staged len) hfresh
  have hapart := firstClash_none hclash fun p hp => (hlens p hp).1
  refine ⟨⟨?_, ?_, ?_⟩, Cells.rising_set _ _ hrise, Cells.below_set _ hbelow hsym, fun p hp => ?_⟩
  · show s.ctCount + 1 = (Cells.set s.ct sym (bstr s.staged len)).length
    rw [hperm.length_eq, hcount]
    rfl
  · exact (hperm.pairwise_iff fun h => ⟨h.2, h.1⟩).2 (List.pairwise_cons.2 ⟨hapart, hfree⟩)
  · exact ⟨fun h => (by cases h), fun h => absurd h (Cells.set_ne_nil _ _ _)⟩
  · rcases Cells.mem_set hp with rfl | hp
    · rw [length_bstr]
      exact ⟨Nat.one_le_iff_ne_zero.2 h0, hlen⟩
    · exact hlens p hp

end Sys2Proof.Machine
end

section
/-! The packer, the unpacker and the decoder end in sound parts (10_state R67(f), (g)). -/

namespace Sys2Proof.Machine

open Sys2Proof.Claims

/-! The packer. -/

/-- One bit with room for its byte (42_encode_pack R150). -/
theorem appendBit_sound {s : State} (b : Bool) (h : s.PackerSound) (ho : s.pkState = .opened)
    (hfit : 1 + (s.bitcnt + 1 + 7) / 8 ≤ s.cfg.outCap) :
    ∃ t, appendBit b s = .ok t ∧ t.PackerSound ∧ t.pkState = .opened ∧ t.bitcnt = s.bitcnt + 1 ∧ t.cfg = s.cfg := by
  obtain ⟨-, hopen, -⟩ := h
  obtain ⟨hn, hacc, hout⟩ := hopen ho
  have notFlushed : ∀ {p : Prop}, s.pkState = .flushed → p := fun hf => by rw [ho] at hf; cases hf
  have hb : b.toNat ≤ 1 := Bool.toNat_le b
  rcases appendBit_cases b s with ⟨h8, e⟩ | ⟨h8, -, e⟩ | ⟨h8, hfull, -⟩
  · refine ⟨_, e, ⟨hfit, fun _ => ⟨?_, ?_, ?_⟩, notFlushed⟩, ho, rfl, rfl⟩
    · show s.accN + 1 = (s.bitcnt + 1) % 8
      omega
    · show 2 * s.acc + b.toNat < 2 ^ (s.accN + 1)
      rw [pow_succ]
      omega
    · show s.outLen = 1 + (s.bitcnt + 1) / 8
      omega
  · refine ⟨_, e, ⟨hfit, fun _ => ⟨?_, Nat.one_pos, ?_⟩, notFlushed⟩, ho, rfl, rfl⟩
    · show 0 = (s.bitcnt + 1) % 8
      omega
    · show s.outLen + 1 = 1 + (s.bitcnt + 1) / 8
      omega
  · omega

/-- Bits that fit are appended whole (42_encode_pack R150, R151). -/
theorem appendBits_sound {x : Bits} {s : State} (h : s.PackerSound) (ho : s.pkState = .opened)
    (hfit : 1 + (s.bitcnt + x.length + 7) / 8 ≤ s.cfg.outCap) : ∃ t, appendBits x s = .ok t ∧ t.PackerSound := by
  induction x generalizing s with
  | nil => exact ⟨s, rfl, h⟩
  | cons b x ih =>
    rw [List.length_cons] at hfit
    obtain ⟨u, hu, hsound, hopen, hcnt, hcfg⟩ := appendBit_sound b h ho (by omega)
    obtain ⟨t, ht, hst⟩ := ih hsound hopen (by rw [hcnt, hcfg]; omega)
    exact ⟨t, by rw [appendBits, hu, ok_bind, ht], hst⟩

theorem appendChecked_endsIn {x : Bits} {s : State} (h : s.PackerSound) (ho : s.pkState = .opened) :
    EndsIn State.PackerSound (appendChecked x s) := by
  unfold appendChecked
  split
  · rename_i hf
    exact endsIn_of_exists (appendBits_sound h ho (by simpa [State.fits] using hf))
  · trivial

theorem encBody_endsIn {sym : Nat} {s : State} (h : s.PackerSound) : EndsIn State.PackerSound (encBody sym s) := by
  unfold encBody
  split
  · trivial
  rename_i hp
  rw [not_or, not_not] at hp
  split
  · trivial
  · exact appendChecked_endsIn h hp.2

theorem putbitsBody_endsIn {x : Bits} {s : State} (h : s.PackerSound) : EndsIn State.PackerSound (putbitsBody x s) := by
  unfold putbitsBody
  split
  · trivial
  · exact appendChecked_endsIn h (not_not.1 (by assumption))

theorem padding_lt (n : Nat) : padding n < 8 := Nat.mod_lt _ (by decide)

/-- `FLUSH` of a sound packer writes its last byte, if bits are pending, and the header (42_encode_pack R155). -/
theorem flushBody_endsIn {s : State} (h : s.PackerSound) : EndsIn State.PackerSound (flushBody s) := by
  obtain ⟨hfit, hopen, -⟩ := h
  by_cases hp : s.pkState = .opened
  swap
  · rw [flushBody, if_pos hp]
    trivial
  obtain ⟨hn, -, hout⟩ := hopen hp
  have ended : ∀ u : State, flushPending s = .ok u → u.cfg = s.cfg → u.bitcnt = s.bitcnt →
      u.outLen = 1 + (s.bitcnt + 7) / 8 → EndsIn State.PackerSound (flushBody s) := by
    intro u hu hcfg hcnt hlen
    rw [flushBody, if_neg (not_not.2 hp), hu, ok_bind, memWrite_ok _ (show 0 < capacityOf u.cfg .outbuf by
      rw [hcfg]; exact Nat.lt_of_lt_of_le (by omega) hfit), ok_bind]
    refine ⟨?_, fun h => (by cases h), fun _ => ⟨rfl, rfl, ?_, ?_⟩⟩
    · simpa [hcfg, hcnt] using hfit
    · simpa [hcnt] using hlen
    · have hlt := padding_lt s.bitcnt
      show (State.stored (u.withBuffer .outbuf (Cells.set (u.buffer .outbuf) 0 _)) .outbuf 0).toNat = padding u.bitcnt
      rw [stored_withBuffer_set, if_pos rfl, hcnt, BitVec.toNat_ofNat]
      omega
  rcases flushPending_cases s with ⟨h0, e⟩ | ⟨h0, -, e⟩ | ⟨h0, hfull, -⟩
  · exact ended s e rfl rfl (by omega)
  · refine ended _ e rfl rfl ?_
    show s.outLen + 1 = _
    omega
  · omega

/-! The unpacker and the decoder. -/

theorem xferBody_endsIn {s : State} (hp : s.PackerSound) (h : s.DecoderSound) :
    EndsIn State.DecoderSound (xferBody s) := by
  obtain ⟨hfit, -, hflushed⟩ := hp
  unfold xferBody
  split
  · trivial
  rename_i hf
  obtain ⟨-, -, hout, -⟩ := hflushed (not_not.1 hf)
  split
  · trivial
  rename_i hin
  obtain ⟨t, ht, hsame, -⟩ := copyOut_ok (s := s) (hout.trans_le hfit) (Nat.le_of_not_lt hin)
  rw [ht, ok_bind]
  obtain ⟨h1, h2, h3, h4, h5, -, h7⟩ := h
  rw [hsame]
  exact ⟨h1, h2, h3, h4, h5, Nat.le_of_not_lt hin, h7⟩

theorem unpackBody_endsIn {s : State} (h : s.DecoderSound) : EndsIn State.DecoderSound (unpackBody s) := by
  obtain ⟨-, -, -, -, -, hin, -⟩ := h
  unfold unpackBody
  split
  · trivial
  rename_i h0
  rw [memRead_ok (show 0 < capacityOf s.cfg .inbuf from Nat.lt_of_lt_of_le (Nat.pos_of_ne_zero h0) hin), ok_bind]
  dsimp only
  split
  · trivial
  split
  · trivial
  · refine ⟨rfl, Nat.zero_le _, le_rfl, Nat.zero_le _, Nat.zero_le _, hin, ?_⟩
    show 8 * (s.inLen - 1) - _ ≤ 8 * (s.cfg.inCap - 1)
    omega

/-- A payload bit not yet consumed is inside `INBUF` (20_memory R78, R80). -/
theorem payloadBit_inside {s : State} (h : s.DecoderSound) (hp : s.decPos < s.decBits) :
    payloadBit s.decPos s = .ok ((s.stored .inbuf (1 + s.decPos / 8)).getLsbD (7 - s.decPos % 8)) := by
  obtain ⟨-, -, -, -, -, -, hcap⟩ := h
  exact payloadBit_ok (by omega)

theorem takeBit_sound {s : State} (b : Bool) (h : s.DecoderSound) (hp : s.decPos < s.decBits)
    (hc : s.decClen < Config.codeLenMax) : (takeBit b s).DecoderSound := by
  obtain ⟨h1, -, h3, -, h5, h6, h7⟩ := h
  exact ⟨by simp [h1], hc, Nat.succ_le_succ h3, hp, h5, h6, h7⟩

/-- The loop of `DECODE` runs to its end, its progress sound (43_unpack_decode R173). -/
theorem decodeBits_sound {n : Nat} {s : State} (h : s.DecoderSound) (hn : n ≤ s.decBits - s.decPos) :
    ∃ t e, decodeBits n s = .ok (t, e) ∧ t.DecoderSound := by
  induction n generalizing s with
  | zero =>
    simp only [decodeBits]
    split
    · exact ⟨s, _, rfl, h⟩
    · exact ⟨_, _, rfl, h⟩
  | succ n ih =>
    by_cases hc : Config.codeLenMax ≤ s.decClen
    · exact ⟨s, _, decodeBits_full n hc, h⟩
    have hc := Nat.lt_of_not_le hc
    have hp : s.decPos < s.decBits := by omega
    have ht := fun b => takeBit_sound b h hp hc
    rw [decodeBits_succ n s hc (payloadBit_inside h hp)]
    generalize (s.stored .inbuf (1 + s.decPos / 8)).getLsbD (7 - s.decPos % 8) = b
    split
    · rename_i sym _
      split
      · exact ⟨_, _, rfl, ht b⟩
      rename_i hroom
      rcases emitSymbol_cases sym (takeBit b s) with ⟨hlt, he⟩ | ⟨hge, -⟩
      · rw [he, ok_bind]
        obtain ⟨-, -, -, h4, -, h6, h7⟩ := ht b
        exact ih ⟨rfl, Nat.zero_le _, Nat.zero_le _, h4, hlt, h6, h7⟩ (by show n ≤ s.decBits - (s.decPos + 1); omega)
      · obtain ⟨-, -, -, -, h5, -⟩ := h
        exact absurd (Nat.le_antisymm h5 hge) hroom
    · split
      · exact ⟨_, _, rfl, ht b⟩
      · exact ih (ht b) (by show n ≤ s.decBits - (s.decPos + 1); omega)

end Sys2Proof.Machine
end

section
/-! The invariant of 10_state R67: it holds at reset, every step keeps it, and no step from it faults. -/

namespace Sys2Proof.Machine

open Sys2Proof.Claims

/-! Soundness by units. -/

/-- `Sound`, with the canonical form of each memory beside the part that speaks of it. -/
theorem sound_iff {s : State} : s.Sound ↔
    s.cfg.Legal ∧ s.CounterWhole ∧ s.TreeWhole ∧ s.TableWhole ∧ s.PackerSound ∧ s.DecoderSound ∧
      s.BuffersCanonical := by
  constructor
  · rintro ⟨hl, ⟨hf, hn, hc, hb⟩, hcount, htree, htable, hp, hd⟩
    exact ⟨hl, ⟨hcount, hf⟩, ⟨htree, hn⟩, ⟨htable, hc⟩, hp, hd, hb⟩
  · rintro ⟨hl, ⟨hcount, hf⟩, ⟨htree, hn⟩, ⟨htable, hc⟩, hp, hd, hb⟩
    exact ⟨hl, ⟨hf, hn, hc, hb⟩, hcount, htree, htable, hp, hd⟩

/-- Before `TBINIT` there is no tree, and that is sound. -/
theorem treeSound_of_idle {s : State} (ht : s.tbState = .idle) (hn : s.nodeCount = 0) (hw : s.wl = [])
    (hl : s.wlLen = 0) : s.TreeSound := by
  simp [State.TreeSound, ht, hn, hw, hl, State.childList]

theorem cells_nil_canonical {α : Type} (n : Nat) : Cells.Rising ([] : Cells α) ∧ Cells.Below ([] : Cells α) n :=
  ⟨Cells.rising_nil, fun _ h => absurd h List.not_mem_nil⟩

theorem counterWhole_of_empty {s : State} (hf : s.freq = []) (ht : s.total = 0) (hl : s.leaves = 0) :
    s.CounterWhole := by
  simp [State.CounterWhole, State.CountsAdd, hf, ht, hl, Cells.rising_nil]

theorem tableWhole_of_empty {s : State} (hc : s.ct = []) (hn : s.ctCount = 0) (he : s.ctState = .empty) :
    s.TableWhole := by
  simp [State.TableWhole, State.TableSound, State.PrefixFree, hc, hn, he, Cells.rising_nil]

/-- A fresh packer is sound in any buffer that holds the header. -/
theorem packerSound_of_fresh {s : State} (hc : 1 ≤ s.cfg.outCap) (hp : s.pkState = .opened) (ho : s.outLen = 1)
    (hb : s.bitcnt = 0) (ha : s.acc = 0) (hn : s.accN = 0) : s.PackerSound := by
  simp [State.PackerSound, hp, ho, hb, ha, hn, hc]

/-- A fresh decoder is sound. -/
theorem decoderSound_of_fresh {s : State} (hin : s.inLen ≤ s.cfg.inCap) (hb : s.decBits = 0) (hp : s.decPos = 0)
    (hn : s.decClen = 0) (hc : s.chunk = []) (ho : s.symoutLen = 0) : s.DecoderSound := by
  simp [State.DecoderSound, hin, hb, hp, hn, hc, ho]

theorem treeWhole_congr {s t : State} (e : t.treeFields = s.treeFields) (h : s.TreeWhole) : t.TreeWhole := by
  refine ⟨treeSound_congr e h.1, ?_⟩
  simp only [State.treeFields, Prod.mk.injEq] at e
  rw [e.1, e.2.1]
  exact h.2

section Units

variable {s t : State} (h : s.Sound)
include h

/-- The host's registers, its list and answer, and the error record take no part in soundness; `IN_LEN` and `INBUF` only by
their bounds. -/
theorem State.Sound.ofHost
    (e : t = { s with host := t.host, reply := t.reply, errIe := t.errIe, err := t.err, symSel := t.symSel
                      nodeSel := t.nodeSel, wlSel := t.wlSel, lcBits := t.lcBits, inLen := t.inLen, inbuf := t.inbuf })
    (hin : t.inLen ≤ s.cfg.inCap) (hb : t.BuffersCanonical) : t.Sound := by
  obtain ⟨hl, hc, htree, htab, hp, ⟨h1, h2, h3, h4, h5, -, h7⟩, -⟩ := sound_iff.1 h
  refine sound_iff.2 ⟨?_, ?_, treeWhole_congr (by rw [e]; rfl) htree, ?_, ?_, ?_, hb⟩
  all_goals rw [e]
  exacts [hl, hc, htab, hp, ⟨h1, h2, h3, h4, h5, hin, h7⟩]

theorem State.Sound.ofCounts (e : OnlyCounts s t) (hi : s.tbState = .idle) (hc : t.CounterWhole) : t.Sound := by
  obtain ⟨hl, -, ⟨⟨hlen, hidle, hempty, -⟩, hn⟩, htab, hp, hd, hb⟩ := sound_iff.1 h
  have h0 := hidle.1 hi
  have hwl := hempty h0
  have ht : t.TreeSound := by
    rw [e]
    exact treeSound_of_idle hi h0 hwl (by simpa [hwl] using hlen)
  refine sound_iff.2 ⟨?_, hc, ⟨ht, ?_⟩, ?_, ?_, ?_, ?_⟩
  all_goals rw [e]
  exacts [hl, hn, htab, hp, hd, hb]

theorem State.Sound.ofTree (e : OnlyTree s t) (ht : t.TreeWhole) : t.Sound := by
  obtain ⟨hl, hc, -, htab, hp, hd, hb⟩ := sound_iff.1 h
  refine sound_iff.2 ⟨?_, ?_, ht, ?_, ?_, ?_, ?_⟩
  all_goals rw [e]
  exacts [hl, hc, htab, hp, hd, hb]

theorem State.Sound.ofTable (e : OnlyTable s t) (ht : t.TableWhole) : t.Sound := by
  obtain ⟨hl, hc, htree, -, hp, hd, hb⟩ := sound_iff.1 h
  refine sound_iff.2 ⟨?_, ?_, treeWhole_congr (by rw [e]; rfl) htree, ht, ?_, ?_, ?_⟩
  all_goals rw [e]
  exacts [hl, hc, hp, hd, hb]

theorem State.Sound.ofPacker (e : OnlyPacker s t) (hp : t.PackerSound) (hb : t.BuffersCanonical) : t.Sound := by
  obtain ⟨hl, hc, htree, htab, -, hd, -⟩ := sound_iff.1 h
  refine sound_iff.2 ⟨?_, ?_, treeWhole_congr (by rw [e]; rfl) htree, ?_, hp, ?_, hb⟩
  all_goals rw [e]
  exacts [hl, hc, htab, hd]

/-- `XFER`, `UNPACK` and `DECODE` change the input side alone. -/
theorem State.Sound.ofInput
    (e : t = { s with inbuf := t.inbuf, inLen := t.inLen, decBits := t.decBits, decPos := t.decPos, decClen := t.decClen
                      chunk := t.chunk, symout := t.symout, symoutLen := t.symoutLen, upState := t.upState })
    (hd : t.DecoderSound) (hb : t.BuffersCanonical) : t.Sound := by
  obtain ⟨hl, hc, htree, htab, hp, -, -⟩ := sound_iff.1 h
  refine sound_iff.2 ⟨?_, ?_, treeWhole_congr (by rw [e]; rfl) htree, ?_, ?_, hd, hb⟩
  all_goals rw [e]
  exacts [hl, hc, htab, hp]

theorem State.Sound.outCap_pos : 0 < s.cfg.outCap := by
  obtain ⟨-, -, ⟨ho, -⟩, -⟩ := h.legal
  omega

theorem State.Sound.buffers : s.BuffersCanonical := h.canonical.2.2.2

/-- The host's list and answer, and the error record, take no part in soundness. -/
theorem State.Sound.withRecord (host : List HostAction) (reply : Reply) (err : ErrRecord) :
    ({ s with host := host, reply := reply, err := err } : State).Sound := by
  obtain ⟨-, -, -, -, -, hin, -⟩ := h.decoder
  exact h.ofHost rfl hin h.buffers

theorem State.Sound.raiseError (w : Word) (e : Raised) : (raiseError w e s).Sound :=
  h.withRecord s.host s.reply _

/-! `CLEAR`. -/

theorem State.Sound.clearTree : (clearTree s).Sound := by
  obtain ⟨hl, -, -, htab, hp, hd, hb⟩ := sound_iff.1 h
  exact sound_iff.2 ⟨hl, counterWhole_of_empty rfl rfl rfl,
    ⟨treeSound_of_idle rfl rfl rfl rfl, cells_nil_canonical 0⟩, htab, hp, hd, hb⟩

theorem State.Sound.clearTable : (clearTable s).Sound := h.ofTable rfl (tableWhole_of_empty rfl rfl rfl)

theorem State.Sound.clearPacker : (clearPacker s).Sound :=
  h.ofPacker rfl (packerSound_of_fresh h.outCap_pos rfl rfl rfl rfl rfl)
    ((keepsBuffers_set (b := .outbuf) 0#8 h.outCap_pos).2 h.buffers)

theorem State.Sound.clearUnpacker : (clearUnpacker s).Sound := by
  obtain ⟨-, -, -, -, -, hin, -⟩ := h.decoder
  exact h.ofInput rfl (decoderSound_of_fresh hin rfl rfl rfl rfl rfl) h.buffers

theorem State.Sound.clearError : (clearError s).Sound := h.withRecord s.host s.reply _

end Units

theorem clearedState_sound (mask : BitVec 5) {s : State} (h : s.Sound) : (clearedState mask s).Sound :=
  clearedState_induction (fun _ hu => hu.clearTree) (fun _ hu => hu.clearTable) (fun _ hu => hu.clearPacker)
    (fun _ hu => hu.clearUnpacker) (fun _ hu => hu.clearError) mask h

/-! Every command. -/

/-- The body of a well-formed command ends without a fault, and in a sound state if it gives one. -/
theorem bodyOf_sound {i : Instr} {s : State} (hi : i ≠ .decode) (hw : WellFormed s.cfg i) (h : s.Sound) :
    EndsIn State.Sound (bodyOf i s) := by
  obtain ⟨hl, hc, htree, htab, hp, hd, hb⟩ := sound_iff.1 h
  have frame : ∀ t, bodyOf i s = .ok t → FrameOf i s t := fun t ht => bodyOf_frame hi ht
  have buffers : ∀ t, bodyOf i s = .ok t → t.BuffersCanonical := fun t ht =>
    (bodyOf_keepsBuffers hi h.outCap_pos ht).2 hb
  cases i with
  | decode => exact absurd rfl hi
  | nop => exact h
  | clear mask => exact clearedState_sound mask h
  | count sym =>
    exact (countBody_endsIn hc (of_decide_eq_true hw)).imp fun t ht => h.ofCounts (frame t ht) (countBody_ok ht).1
  | tbinit => exact (tbinitBody_endsIn hc).imp fun t ht => h.ofTree (frame t ht)
  | merge => exact (mergeBody_endsIn htree).imp fun t ht => h.ofTree (frame t ht)
  | build => exact (buildBody_endsIn hc htree).imp fun t ht => h.ofTree (frame t ht)
  | assign => exact (assignBody_endsIn hl hc htree.1 htab).imp fun t ht => h.ofTable (frame t ht)
  | loadcode len sym =>
    have hlen : len.toNat ≤ Config.codeLenMax := Nat.le_of_lt_succ len.isLt
    exact (loadcodeBody_endsIn htab (of_decide_eq_true hw) hlen).imp fun t ht => h.ofTable (frame t ht)
  | enc sym =>
    refine (encBody_endsIn hp).imp fun t ht hs => h.ofPacker ?_ hs (buffers t ht)
    rw [OnlyPacker, frame t ht]
  | putbits n v =>
    refine (putbitsBody_endsIn hp).imp fun t ht hs => h.ofPacker ?_ hs (buffers t ht)
    rw [OnlyPacker, frame t ht]
  | flush => exact (flushBody_endsIn hp).imp fun t ht hs => h.ofPacker (frame t ht) hs (buffers t ht)
  | xfer =>
    refine (xferBody_endsIn hp hd).imp fun t ht hs => h.ofInput ?_ hs (buffers t ht)
    rw [frame t ht]
  | unpack =>
    refine (unpackBody_endsIn hd).imp fun t ht hs => h.ofInput ?_ hs (buffers t ht)
    rw [frame t ht]

theorem execDecode_sound {s : State} (h : s.Sound) : ∃ t, exec .decode s = .next t ∧ t.Sound := by
  by_cases hp : WrongPhase s .decode
  · exact ⟨_, exec_wrongPhase hp, h.raiseError _ _⟩
  obtain ⟨u, e, hu, hd⟩ := decodeBits_sound h.decoder le_rfl
  have hbody : decodeBody s = .ok (u, e) := (if_neg hp).trans hu
  have hs : u.Sound := by
    refine h.ofInput ?_ hd ((decodeBits_keepsBuffers hu).2 h.buffers)
    rw [(decodeBits_same hu).1]
  cases e with
  | none => exact ⟨u, execDecode_done hbody, hs⟩
  | some r => exact ⟨_, execDecode_raised hbody, hs.raiseError _ _⟩

/-- A well-formed command executed in a sound state ends in a sound state. -/
theorem exec_sound {i : Instr} {s : State} (hw : WellFormed s.cfg i) (h : s.Sound) :
    ∃ t, exec i s = .next t ∧ t.Sound := by
  by_cases hi : i = .decode
  · subst hi
    exact execDecode_sound h
  have hb := bodyOf_sound hi hw h
  rw [exec_eq_finish s hi]
  match bodyOf i s, hb with
  | .ok t, hb => exact ⟨t, rfl, hb⟩
  | .error (.error e), _ => exact ⟨_, rfl, h.raiseError _ e⟩

/-! Every step. -/

/-- What the decoder accepts is well-formed (30_encoding R98, R99). -/
theorem wellFormed_of_decode {c : Config} {w : Word} {i : Instr} (h : decode c w = .ok i) : WellFormed c i := by
  obtain ⟨o, -, -, hop, rfl⟩ := decode_ok h
  cases o with
  | count => simpa [WellFormed, Instr.wellFormed, instrOf, operandIllegal, Opcode.format] using hop
  | loadcode => simpa [WellFormed, Instr.wellFormed, instrOf, operandIllegal, Opcode.format] using hop
  | enc => simpa [WellFormed, Instr.wellFormed, instrOf, operandIllegal, Opcode.format] using hop
  | putbits =>
    have hop : (if 16 < (nField w).toNat then some Illegal.bitCount
        else if 2 ^ (nField w).toNat ≤ (lowField w).toNat then some Illegal.strayBits else none) = none := by
      simpa [operandIllegal, Opcode.format] using hop
    split_ifs at hop with hn hv
    simpa [WellFormed, Instr.wellFormed, instrOf] using ⟨Nat.le_of_not_lt hn, Nat.lt_of_not_le hv⟩
  | _ => rfl

theorem execute_sound (w : Word) {s : State} (h : s.Sound) : ∃ t, execute w s = .next t ∧ t.Sound := by
  unfold execute
  split
  · exact ⟨s, rfl, h⟩
  split
  · exact ⟨_, rfl, h.raiseError _ _⟩
  · exact exec_sound (wellFormed_of_decode (by assumption)) h

theorem writePort_sound (v : Word) (p : Port) {s : State} (h : s.Sound) : (writePort v s p).Sound := by
  obtain ⟨-, -, -, -, -, hin, -⟩ := h.decoder
  refine h.ofHost ?_ ?_ ((writePort_keepsBuffers v s p).2 h.buffers)
  · rw [writePort_same]
  · cases p with
    | inLen =>
      simp only [writePort]
      split
      · assumption
      · exact hin
    | inbufWord q =>
      have hkeep : ∀ r (u : State), (writeLane q v r u).inLen = u.inLen := fun r u => by
        unfold writeLane; split <;> rfl
      simpa [writePort, writeInbuf, hkeep] using hin
    | _ => exact hin

theorem busWrite_sound (off : Offset) (v : Word) {s : State} (h : s.Sound) :
    ∃ t, busWrite off v s = .next t ∧ t.Sound := by
  unfold busWrite
  split
  · exact execute_sound v h
  · exact ⟨_, rfl, writePort_sound v _ h⟩

/-- The state after reset meets 10_state R67 (10_state R68). -/
theorem afterReset_sound {c : Config} (hl : c.Legal) (draw : Nat) : (State.afterReset c draw).Sound := by
  have h0 : 0 < c.outCap := by obtain ⟨-, -, ⟨ho, -⟩, -⟩ := hl; omega
  refine sound_iff.2 ⟨hl, counterWhole_of_empty rfl rfl rfl,
    ⟨treeSound_of_idle rfl rfl rfl rfl, cells_nil_canonical 0⟩, tableWhole_of_empty rfl rfl rfl,
    packerSound_of_fresh h0 rfl rfl rfl rfl rfl, decoderSound_of_fresh (Nat.zero_le _) rfl rfl rfl rfl rfl,
    ⟨⟨List.pairwise_singleton _ _, fun p hp => ?_⟩, cells_nil_canonical _, cells_nil_canonical _⟩⟩
  rw [List.mem_singleton.1 hp]
  exact h0

theorem perform_sound (a : HostAction) {s : State} (h : s.Sound) :
    (∃ t, perform a s = .next t ∧ t.Sound) ∨ perform a s = .refused .outsideInterface := by
  cases a with
  | read w off =>
    simp only [perform]
    split
    · exact .inl ⟨_, rfl, h.withRecord s.host _ s.err⟩
    · exact .inr rfl
  | write w off v =>
    simp only [perform]
    split
    · exact .inl (busWrite_sound off v (h.withRecord s.host .silent s.err))
    · exact .inr rfl
  | reset => exact .inl ⟨_, rfl, (afterReset_sound h.legal _).withRecord s.host _ _⟩
  | readIrq => exact .inl ⟨_, rfl, h.withRecord s.host _ s.err⟩

/-- A step from a sound state leads to a sound state, or is refused outside the interface. -/
theorem step_sound {s : State} (h : s.Sound) :
    (∃ t, step s = .next t ∧ t.Sound) ∨ step s = .refused .outsideInterface := by
  unfold step hostStep
  split
  · exact .inl ⟨s, rfl, h⟩
  · exact perform_sound _ (h.withRecord _ s.reply s.err)

/-- Settles O55: of the two ways a step from a sound state can end, one is a sound state and the other is no state. -/
theorem everyStepKeepsSoundness : Obligations.EveryStepKeepsSoundness := by
  intro s t h ht
  rcases step_sound h with ⟨u, hu, hs⟩ | hr
  · rw [hu] at ht
    cases ht
    exact hs
  · rw [hr] at ht
    cases ht

/-- Settles O57: both ways a step from a sound state can end are allowed. -/
theorem soundStatesNeverFault : Obligations.SoundStatesNeverFault := fun _ h =>
  (step_sound h).imp (fun ⟨t, ht, _⟩ => ⟨t, ht⟩) id

/-- Settles O56: reset is sound under every legal configuration, of which the default is one. -/
theorem resetIsSound : Obligations.ResetIsSound :=
  ⟨afterReset_sound (by decide) 0, fun _ draw hl => afterReset_sound hl draw⟩

/-- Settles O42: no entry of the table begins another, and a symbol with a code is listed with it. -/
theorem codesArePrefixFree : Obligations.CodesArePrefixFree := by
  intro s h x y hxy hx hy
  have listed : ∀ z, s.codeOf z ≠ [] → (z, s.codeOf z) ∈ s.ct := fun z hz => by
    cases hg : Cells.get s.ct z with
    | none => simp [State.codeOf, hg] at hz
    | some c => simpa [State.codeOf, hg] using Cells.mem_of_get hg
  obtain ⟨-, hfree, -⟩ := h.table
  have hne : (x, s.codeOf x) ≠ (y, s.codeOf y) := fun e => hxy (congrArg Prod.fst e)
  have hsymm : Std.Symm fun p q : Nat × Bits => ¬ p.2 <+: q.2 ∧ ¬ q.2 <+: p.2 := ⟨fun _ _ h => ⟨h.2, h.1⟩⟩
  exact (hfree.forall (listed x hx) (listed y hy) hne).1

end Sys2Proof.Machine
end

section
/-! The bus: what a read returns, what a write stores (10_state R23 to R59), and reset. -/

namespace Sys2Proof.Machine

open Sys2Proof.Claims

/-! Reads and writes as steps. -/

theorem busRead_of_port {s : State} {off : Offset} {p : Port} (h : portOf off = p) : busRead s off = readPort s p := by
  rw [busRead, h]

/-- The host's list and answer show in no register. -/
theorem busRead_host (s : State) (host : List HostAction) (reply : Reply) (off : Offset) :
    busRead { s with host := host, reply := reply } off = busRead s off := by
  unfold busRead
  cases portOf off <;> rfl

theorem step_of_read {s : State} {rest : List HostAction} {off : Offset} (h : s.host = .read .word off :: rest)
    (h4 : off.toNat % 4 = 0) : step s = .next { s with host := rest, reply := .word (busRead s off) } := by
  have hr := busRead_host s rest s.reply off
  simp [step, hostStep, h, perform, insideInterface, h4, hr]

/-- A write anywhere but at `CMD` stores at its port (20_memory R72). -/
theorem step_of_write {s : State} {rest : List HostAction} {off : Offset} {v : Word} {p : Port}
    (h : s.host = .write .word off v :: rest) (h4 : off.toNat % 4 = 0) (hp : portOf off = p) (hc : p ≠ .cmd) :
    step s = .next (writePort v { s with host := rest, reply := .silent } p) := by
  simp [step, hostStep, h, perform, insideInterface, h4, busWrite, hp, hc]

/-- Settles O6: a command word that is not ignored and decodes runs its command. -/
theorem stepExecutesDecodedCommand : Obligations.StepExecutesDecodedCommand := by
  intro s rest w i h hd hok
  have hg : ¬ gated w { s with host := rest, reply := .silent } = true := by
    rcases hok with he | hm
    · simp [gated, State.errored, he]
    · obtain ⟨m, rfl⟩ := hm
      simp [gated, (isClear_iff s.cfg w).2 ⟨m, hd⟩]
  rw [step_of_command h, execute]
  simp only [hd]
  exact if_neg hg

theorem errored_eq (s : State) : s.errored = decide (s.err.code ≠ .none) := by
  unfold State.errored
  cases s.err.code <;> rfl

/-- Settles O16: a read answers, and stores nothing. -/
theorem readsHaveNoSideEffect : Obligations.ReadsHaveNoSideEffect := by
  refine fun s rest => ⟨fun off h h4 => step_of_read h h4, fun h => ?_⟩
  simp only [step, hostStep, h, perform, State.errIrq, errored_eq]

/-! Fields. -/

theorem toNat_field {w n : Nat} (hw : w ≤ 32) (h : n < 2 ^ w) : (field w n).toNat = n := by
  have hn : n < 2 ^ 32 := h.trans_le (Nat.pow_le_pow_right (by decide) hw)
  rw [field, BitVec.toNat_ofNat, Nat.mod_eq_of_lt h, Nat.mod_eq_of_lt hn]

theorem toNat_readCtrl (s : State) : (readPort s .ctrl).toNat = if s.errIe then 1 else 0 := by
  simp only [readPort]
  cases s.errIe <;> rfl

theorem toNat_readSymSel {s : State} : (readPort s .symSel).toNat = s.symSel.toNat % s.cfg.nsym := by
  have h : s.symSel.toNat % 2 ^ s.cfg.symBits ≤ s.symSel.toNat := Nat.mod_le _ _
  simp only [readPort, State.selectedSymbol, BitVec.toNat_ofNat]
  exact Nat.mod_eq_of_lt (by omega)

theorem toNat_readInLen {s : State} (hl : s.cfg.Legal) (h : s.inLen ≤ s.cfg.inCap) :
    (readPort s .inLen).toNat = s.inLen := by
  obtain ⟨-, -, -, ⟨-, hin⟩, -⟩ := hl
  exact toNat_field (by decide) (by omega)

theorem toNat_readNodeSel (s : State) : (readPort s .nodeSel).toNat = s.nodeSel.toNat := by
  simp [readPort]
  omega

theorem toNat_readWlSel (s : State) : (readPort s .wlSel).toNat = s.wlSel.toNat := by
  simp [readPort]
  omega

/-- Settles O20: each of the five registers, read in any state, and written. -/
theorem registerWritesStoreTheirFields : Obligations.RegisterWritesStoreTheirFields := by
  intro s hl
  refine ⟨toNat_readCtrl s, toNat_readInLen hl, toNat_readSymSel, toNat_readNodeSel s, toNat_readWlSel s, fun rest v =>
    ⟨fun h => ?_, fun h => ?_, fun h => ?_, fun h => ?_, fun h => ?_⟩⟩
  · have hb : v.getLsbD 0 = decide (v.toNat % 2 = 1) := by simp [BitVec.getLsbD, Nat.testBit_zero]
    refine ⟨_, step_of_write h (by decide) (p := .ctrl) (by decide) (by decide), by rw [writePort, hb], ?_⟩
    refine (toNat_readCtrl _).trans ?_
    simp only [writePort, hb, decide_eq_true_eq]
    split <;> omega
  · refine ⟨_, step_of_write h (by decide) (p := .inLen) (by decide) (by decide), ?_, ?_⟩
    · simp only [writePort]
      split <;> rfl
    · simp only [writePort]
      split
      · rename_i hv
        exact toNat_readInLen (s := { s with host := rest, reply := .silent, inLen := v.toNat }) hl hv
      · rfl
  · have hlt : v.toNat % s.cfg.nsym < 256 :=
      (Nat.mod_lt _ (Nat.two_pow_pos _)).trans_le (nsym_le hl)
    refine ⟨_, step_of_write h (by decide) (p := .symSel) (by decide) (by decide), rfl, ?_⟩
    refine toNat_readSymSel.trans ?_
    show (BitVec.ofNat 8 (v.toNat % s.cfg.nsym)).toNat % s.cfg.nsym = _
    rw [BitVec.toNat_ofNat, Nat.mod_eq_of_lt hlt, Nat.mod_mod]
  · refine ⟨_, step_of_write h (by decide) (p := .nodeSel) (by decide) (by decide), rfl, ?_⟩
    exact (toNat_readNodeSel _).trans (BitVec.toNat_setWidth _ v)
  · refine ⟨_, step_of_write h (by decide) (p := .wlSel) (by decide) (by decide), rfl, ?_⟩
    exact (toNat_readWlSel _).trans (BitVec.toNat_setWidth _ v)

/-! The staging registers. -/

theorem portOf_lcBits : ∀ k : Fin 8, portOf (BitVec.ofNat 19 (0x0A0 + 4 * k.val)) = .lcBits k.val := by decide

/-- A staged value is the sum of its registers, each by its weight (10_state R58). -/
theorem stagedFrom_eq_sum (l : List Word) :
    stagedFrom l = ((List.range l.length).map (fun k => (l.getD k 0#32).toNat * 2 ^ (32 * k))).sum := by
  induction l with
  | nil => rfl
  | cons v r ih =>
    have hshift : ∀ k, ((v :: r).getD (k + 1) 0#32).toNat * 2 ^ (32 * (k + 1)) =
        2 ^ 32 * ((r.getD k 0#32).toNat * 2 ^ (32 * k)) := fun k => by
      rw [List.getD_cons_succ, Nat.mul_add, Nat.pow_add]
      ring
    rw [stagedFrom, ih, List.length_cons, List.range_succ_eq_map, List.map_cons, List.map_map, List.sum_cons,
      ← List.sum_map_mul_left]
    simp only [Function.comp_def, Nat.succ_eq_add_one, hshift]
    simp

/-- Settles O21: a write replaces one staging register, and the staged value is read off all eight. -/
theorem stagingRegistersFormTheStagedValue : Obligations.StagingRegistersFormTheStagedValue := by
  intro s rest j v h
  have h4 : ∀ k : Fin 8, (BitVec.ofNat 19 (0x0A0 + 4 * k.val)).toNat % 4 = 0 := by decide
  have read : ∀ (u : State) (k : Fin 8),
      busRead u (BitVec.ofNat 19 (0x0A0 + 4 * k.val)) = u.lcBits.toList.getD k.val 0#32 := fun u k =>
    busRead_of_port (portOf_lcBits k)
  refine ⟨_, step_of_write h (h4 j) (portOf_lcBits j) (by simp), rfl, fun k => ?_, ?_⟩
  · rw [read, read]
    have hjk : j.val = k.val ↔ k = j := by omega
    simp only [writePort, writeLcBits, List.getD_eq_getElem?_getD, Vector.getElem?_toList]
    by_cases hk : k = j
    · subst hk
      simp [k.isLt]
    · rw [if_neg hk, Vector.getElem?_setIfInBounds_ne (mt hjk.1 hk)]
  · rw [State.staged, stagedFrom_eq_sum, Vector.length_toList]
    exact congrArg List.sum (List.map_congr_left fun k hk => by rw [read _ ⟨k, List.mem_range.1 hk⟩])

/-! What no read shows. -/

/-- A byte shows by what is listed below the length register alone. -/
theorem stored_congr {s t : State} {b : Buffer} {i : Nat} (hd : t.draws = s.draws)
    (h : Cells.get (t.buffer b) i = Cells.get (s.buffer b) i) : t.stored b i = s.stored b i := by
  rw [State.stored, State.stored, hd, h]

/-- Settles O25: the two windows guard by the length registers, and no other port reads the two buffers. -/
theorem staleBufferBytesAreInvisible : Obligations.StaleBufferBytesAreInvisible := by
  intro s out sym off ho hs
  unfold busRead
  cases portOf off with
  | outbufWord q =>
    have hlane : outbufLane { s with outbuf := out, symout := sym } = outbufLane s := by
      funext i
      unfold outbufLane
      dsimp only
      split
      · rename_i hi
        exact stored_congr rfl (ho i hi.1)
      · rfl
    simp only [readPort, hlane]
  | symoutWord j =>
    simp only [readPort, readSymout]
    split
    · rename_i hj
      have hbyte : State.stored { s with outbuf := out, symout := sym } .symout j = s.stored .symout j :=
        stored_congr rfl (hs j hj.1)
      rw [hbyte]
    · rfl
  | _ => rfl

/-! Constants, `STATUS`, the error registers. -/

/-- Settles O26: legal parameters fit their fields. -/
theorem constantRegistersShowTheConfiguration : Obligations.ConstantRegistersShowTheConfiguration := by
  rintro s ⟨⟨-, hsym⟩, ⟨-, hcount⟩, ⟨-, ho⟩, ⟨-, hi⟩, ⟨-, hs⟩⟩
  refine ⟨rfl, ?_, toNat_field (by decide) (by omega), toNat_field (by decide) (by omega),
    toNat_field (by decide) (by omega)⟩
  show (readParam s).toNat = _
  rw [readParam, BitVec.toNat_ofNat, Config.codeLenMax]
  omega

/-- Settles O27: the fields of `STATUS` are those its word is put together from. -/
theorem statusShowsPhasesAndError : Obligations.StatusShowsPhasesAndError := by
  refine ⟨rfl, fun s => ?_⟩
  rw [busRead_of_port (p := .status) (by decide)]
  simp only [readPort, State.status]
  simp (disch := decide) only [BitVec.extractLsb'_append_eq_of_add_le, BitVec.extractLsb'_append_eq_of_le]
  refine ⟨?_, ?_, ?_, ?_, ?_, ?_, rfl⟩
  · cases s.tbState <;> rfl
  · cases s.ctState <;> rfl
  · cases s.pkState <;> rfl
  · cases s.upState <;> rfl
  · rw [← errored_eq]
    simp only [BitVec.getLsbD_append, BitVec.getLsbD_ofBool]
    rfl
  · rw [← errored_eq]
    simp only [BitVec.getLsbD_append, BitVec.getLsbD_ofBool]
    rfl

/-- Settles O28: the fields of `ERR` are those its word is put together from. -/
theorem errorRegistersShowTheRecord : Obligations.ErrorRegistersShowTheRecord := by
  intro s
  rw [busRead_of_port (p := .err) (by decide)]
  simp only [readPort, ErrRecord.toWord]
  simp (disch := decide) only [BitVec.extractLsb'_append_eq_of_add_le, BitVec.extractLsb'_append_eq_of_le]
  refine ⟨?_, ?_, ?_, rfl, ?_, rfl, rfl, rfl, rfl⟩
  · cases s.err.code <;> rfl
  · exact BitVec.extractLsb'_eq_self
  · cases s.err.stage <;> rfl
  · exact BitVec.extractLsb'_eq_self

/-! Reset. -/

/-- Settles O32: every field of the state after reset, read off its definition. -/
theorem resetGivesEveryResetValue : Obligations.ResetGivesEveryResetValue := by
  intro s rest h
  have hstep : step s = .next (resetBlock { s with host := rest }) := by simp only [step, hostStep, h, perform]
  have hstatus : (resetBlock { s with host := rest }).status = State.reset.status := rfl
  refine ⟨_, hstep, rfl, rfl, rfl, (busRead_of_port (p := .status) (by decide)).trans hstatus, rfl, rfl, rfl, rfl, rfl, rfl,
    rfl, rfl, rfl, rfl, rfl, rfl, rfl, rfl, rfl, rfl, rfl, rfl, rfl, rfl, fun j hj => ?_, rfl, rfl, rfl, rfl,
    fun _ => rfl, fun _ => nodeAt_eq_none (Nat.zero_le _), fun _ => rfl,
    rfl, rfl, (busRead_of_port (p := .root) (by decide)).trans rfl, fun _ => rfl⟩
  simp [resetBlock, State.afterReset, hj]

end Sys2Proof.Machine
end

section
/-! In a sound state every register shows its number whole (log 9): the bounds of 10_state R67 and the widths of R24. -/

namespace Sys2Proof.Machine

open Sys2Proof.Claims

/-! Bounds of a sound state. -/

section Bounds

variable {s : State} (h : s.Sound)
include h

theorem State.Sound.total_lt : s.total < 2 ^ s.cfg.countBits := by
  obtain ⟨-, hmax, -⟩ := h.counts
  have := Nat.two_pow_pos s.cfg.countBits
  unfold Config.countMax at hmax
  omega

theorem State.Sound.countBits_le : s.cfg.countBits ≤ 32 := h.legal.2.1.2

theorem State.Sound.leaves_le : s.leaves ≤ 256 := by
  obtain ⟨⟨hrise, hbelow, -⟩, -⟩ := h.canonical
  rw [h.counts.2.2]
  exact (Cells.length_le hrise hbelow).trans (nsym_le h.legal)

theorem State.Sound.ctCount_le : s.ctCount ≤ 256 := by
  obtain ⟨-, -, ⟨hrise, hbelow, -⟩, -⟩ := h.canonical
  rw [h.table.1]
  exact (Cells.length_le hrise hbelow).trans (nsym_le h.legal)

/-- `2*NSYM - 1` nodes at most (10_state R61). -/
theorem State.Sound.nodeCount_le : s.nodeCount ≤ 511 := by
  have hl := h.leaves_le
  obtain ⟨-, hidle, -, -, -, -, -, hbusy⟩ := h.tree
  by_cases hi : s.tbState = .idle
  · rw [hidle.1 hi]
    omega
  · obtain ⟨h1, h2, -⟩ := hbusy hi
    omega

theorem State.Sound.wlLen_le : s.wlLen ≤ 256 := by
  have hl := h.leaves_le
  obtain ⟨hlen, hidle, hempty, -, hnodes, hperm, -, hbusy⟩ := h.tree
  by_cases hi : s.tbState = .idle
  · simp [hlen, hempty (hidle.1 hi)]
  · have hsub := (List.sublist_append_right s.childList s.wl).length_le
    rw [hperm.length_eq, List.length_range, ← hlen] at hsub
    obtain ⟨-, h2, -⟩ := hbusy hi
    omega

theorem State.Sound.bitcnt_lt : s.bitcnt < 2 ^ 20 := by
  obtain ⟨-, -, ⟨-, ho⟩, -⟩ := h.legal
  have := h.packer.1
  omega

theorem State.Sound.outLen_le : s.outLen ≤ s.cfg.outCap := by
  obtain ⟨hfit, hopen, hflushed⟩ := h.packer
  cases hp : s.pkState with
  | opened => obtain ⟨-, -, hout⟩ := hopen hp; omega
  | flushed => obtain ⟨-, -, hout, -⟩ := hflushed hp; omega

theorem State.Sound.acc_lt : s.accN < 8 ∧ s.acc < 2 ^ 7 := by
  obtain ⟨-, hopen, hflushed⟩ := h.packer
  cases hp : s.pkState with
  | opened =>
    obtain ⟨hn, hacc, -⟩ := hopen hp
    have h7 : s.accN ≤ 7 := by omega
    exact ⟨by omega, hacc.trans_le (Nat.pow_le_pow_right (by decide) h7)⟩
  | flushed => obtain ⟨hn, hacc, -⟩ := hflushed hp; omega

theorem State.Sound.freqOf_le (x : Nat) : s.freqOf x ≤ s.total := by
  rw [h.counts.1, State.freqOf]
  cases hg : Cells.get s.freq x with
  | none => exact Nat.zero_le _
  | some c => exact List.single_le_sum (fun _ _ => Nat.zero_le _) _ (List.mem_map_of_mem (Cells.mem_of_get hg))

theorem State.Sound.codeOf_length (x : Nat) : (s.codeOf x).length ≤ 255 := by
  obtain ⟨-, -, ⟨-, -, hlen⟩, -⟩ := h.canonical
  rw [State.codeOf]
  cases hg : Cells.get s.ct x with
  | none => exact Nat.zero_le _
  | some c => exact (hlen _ (Cells.mem_of_get hg)).2

end Bounds

/-! The counters. -/

/-- Settles O31: each number is below the bound its register's width gives. -/
theorem countersAreShownWhole : Obligations.CountersAreShownWhole := by
  intro s h
  have hleaves := h.leaves_le
  have hnodes := h.nodeCount_le
  have hwl := h.wlLen_le
  have hct := h.ctCount_le
  have hout := h.outLen_le
  have hacc := h.acc_lt
  obtain ⟨-, -, ⟨-, hoc⟩, ⟨-, hic⟩, -, hsc⟩ := h.legal
  obtain ⟨-, hclen, -, hpos, hsym, hin, hbits⟩ := h.decoder
  have hclen : s.decClen ≤ 255 := hclen
  have small : ∀ {w n : Nat}, w ≤ 32 → n < 2 ^ w → (field w n).toNat = n := toNat_field
  refine ⟨small h.countBits_le h.total_lt, small (by decide) (by omega), small (by decide) (by omega), ?_,
    small (by decide) (by omega), small (by decide) (by omega), small (by decide) h.bitcnt_lt, ?_,
    small (by decide) (by omega), small (by decide) (by omega), small (by decide) (by omega),
    small (by decide) (by omega), small (by decide) (by omega), hclen, fun hd => ?_, fun hd => ?_⟩
  · rw [← h.tree.1]
    exact small (by decide) (by omega)
  · show (readPkAcc s).toNat = _
    rw [readPkAcc, BitVec.toNat_ofNat]
    omega
  · obtain ⟨root, hw⟩ := wl_of_done h.tree hd
    have hroot : root < s.nodeCount := wl_lt h.tree (by simp [hw])
    refine ⟨root, hw, ?_⟩
    show (readRoot s).toNat = _
    rw [readRoot, if_pos hd, hw, List.headD_cons, BitVec.toNat_ofNat]
    omega
  · show readRoot s = _
    rw [readRoot, if_neg hd]

/-! The lookup port. -/

theorem val_lt (x : Bits) : val x < 2 ^ x.length := by
  unfold val
  induction x with
  | nil => simp [valFrom]
  | cons b x ih =>
    have hb := Bool.toNat_le b
    rw [valFrom, valFrom_eq, List.length_cons, pow_succ]
    have : b.toNat * 2 ^ x.length ≤ 1 * 2 ^ x.length := Nat.mul_le_mul_right _ hb
    simp only [Nat.mul_zero, Nat.zero_add]
    omega

/-- A number is the sum of its 32-bit digits, each by its weight. -/
theorem sum_digits (n k : Nat) :
    ((List.range k).map (fun j => n / 2 ^ (32 * j) % 2 ^ 32 * 2 ^ (32 * j))).sum = n % 2 ^ (32 * k) := by
  induction k with
  | zero => simp [Nat.mod_one]
  | succ k ih =>
    rw [List.range_succ, List.map_append, List.sum_append, ih, Nat.mul_succ, Nat.pow_add, Nat.mod_mul]
    simp [Nat.mul_comm]

theorem portOf_ctBits : ∀ k : Fin 8, portOf (BitVec.ofNat 19 (0x080 + 4 * k.val)) = .ctBits k.val := by decide

/-- Settles O29: counts and lengths are in range, and eight words hold the 255 bits of a code. -/
theorem lookupPortShowsCountLengthAndBits : Obligations.LookupPortShowsCountLengthAndBits := by
  rintro s x h rfl
  have hx : s.symSel.toNat % s.cfg.nsym = s.selectedSymbol := rfl
  have hlen := h.codeOf_length s.selectedSymbol
  rw [hx]
  refine ⟨toNat_field h.countBits_le ((h.freqOf_le _).trans_lt h.total_lt), ?_, ?_⟩
  · show (BitVec.ofNat 32 (s.codeOf s.selectedSymbol).length).toNat = _
    rw [BitVec.toNat_ofNat]
    omega
  · have hval : val (s.codeOf s.selectedSymbol) < 2 ^ (32 * 8) :=
      (val_lt _).trans_le (Nat.pow_le_pow_right (by decide) (by omega))
    rw [← Nat.mod_eq_of_lt hval, ← sum_digits]
    refine congrArg List.sum (List.map_congr_left fun k hk => ?_)
    rw [busRead_of_port (portOf_ctBits ⟨k, List.mem_range.1 hk⟩), readPort, readCtBits, BitVec.toNat_ofNat]

/-! The inspection windows. -/

/-- What holds of the working list, and passes from a node to its children, holds of every node: each is on the list or a
child (00_scope R18). -/
theorem node_induction {s : State} (h : s.TreeSound) {P : Nat → Prop} (hw : ∀ i ∈ s.wl, P i)
    (hc : ∀ p c l r, s.nodeAt p = some (.internal c l r) → P p → P l ∧ P r) : ∀ i < s.nodeCount, P i := by
  obtain ⟨-, -, -, -, hnodes, hperm, -⟩ := h
  have down : ∀ k i, s.nodeCount - i ≤ k → i < s.nodeCount → P i := by
    intro k
    induction k with
    | zero => intro i hk hi; omega
    | succ k ih =>
      intro i hk hi
      rcases List.mem_append.1 (hperm.symm.subset (List.mem_range.2 hi)) with hchild | hwl
      · obtain ⟨p, hp, hmem⟩ := List.mem_flatMap.1 hchild
        have hp := List.mem_range.1 hp
        rcases soundNode_cases (hnodes p hp) with ⟨c, sym, hn⟩ | ⟨c, l, r, hn, hl, hr, -⟩
        · simp [State.childrenAt, hn] at hmem
        · have hi : i = l ∨ i = r := by simpa [State.childrenAt, hn] using hmem
          have hP := hc p c l r hn (ih p (by omega) hp)
          rcases hi with rfl | rfl
          · exact hP.1
          · exact hP.2
      · exact hw i hwl
  exact fun i hi => down _ i le_rfl hi

/-- No node counts more than the whole input (10_state R67(d)). -/
theorem countAt_le_total {s : State} (h : s.TreeSound) : ∀ i < s.nodeCount, s.countAt i ≤ s.total := by
  refine node_induction h (fun i hi => ?_) fun p c l r hn hp => ?_
  · have hlt := wl_lt h hi
    obtain ⟨-, hidle, -, -, -, -, -, hbusy⟩ := h
    obtain ⟨-, -, hsum, -⟩ := hbusy fun hc => by have := hidle.1 hc; omega
    rw [← hsum]
    exact List.single_le_sum (fun _ _ => Nat.zero_le _) _ (List.mem_map_of_mem hi)
  · obtain ⟨-, -, -, -, hnodes, -⟩ := h
    have hs := hnodes p (lt_of_nodeAt hn)
    rcases soundNode_cases hs with ⟨_, _, hn'⟩ | ⟨_, _, _, hn', -, -, hsum⟩ <;> rw [hn] at hn' <;> cases hn'
    have hcp : s.countAt p = c := by simp [State.countAt, hn, Node.count]
    omega

/-- Every leaf's symbol is a counted one. -/
theorem leafSymbols_subset {s : State} (h : s.TreeSound) :
    ∀ i < s.nodeCount, s.leafSymbols i ⊆ s.freq.map Prod.fst := by
  refine node_induction h (fun i hi => ?_) fun p c l r hn hp => ?_
  · have hlt := wl_lt h hi
    obtain ⟨-, hidle, -, -, -, -, -, hbusy⟩ := h
    obtain ⟨-, -, -, hsyms⟩ := hbusy fun hc => by have := hidle.1 hc; omega
    exact fun x hx => hsyms.subset (List.mem_flatMap.2 ⟨i, hi, hx⟩)
  · obtain ⟨-, -, -, -, hnodes, -⟩ := h
    rw [leafSymbols_internal hnodes hn] at hp
    exact List.append_subset.1 hp

/-- Settles O30: nodes, counts and symbols of a sound tree fit the windows' fields. -/
theorem inspectionWindowsShowTheTree : Obligations.InspectionWindowsShowTheTree := by
  intro s h
  have hcap := h.nodeCount_le
  have hnodes : s.NodesSound := by obtain ⟨-, -, -, -, hnodes, -⟩ := h.tree; exact hnodes
  have shown : ∀ {n}, s.nodeAt s.nodeSel.toNat = some n → (field s.cfg.countBits n.count).toNat = n.count :=
    fun {n} hn => by
      have hc : s.countAt s.nodeSel.toNat = n.count := by simp [State.countAt, hn]
      exact toNat_field h.countBits_le (hc ▸ (countAt_le_total h.tree _ (lt_of_nodeAt hn)).trans_lt h.total_lt)
  refine ⟨fun hbeyond => ?_, fun c sym hn => ?_, fun c l r hn => ?_, fun hlt hnone => ?_, fun n hn => ?_,
    fun hbeyond => ?_⟩
  · have hn : s.selectedNode = none := nodeAt_eq_none hbeyond
    rw [busRead_of_port (p := .nodeInfo) (by decide), busRead_of_port (p := .nodeCnt) (by decide),
      busRead_of_port (p := .nodeKids) (by decide)]
    simp only [readPort, readNodeInfo, readNodeCnt, readNodeKids, hn, and_self]
  · have hsel : s.selectedNode = some (.leaf c sym) := hn
    have hsym : sym < 256 := by
      have hmem := leafSymbols_subset h.tree _ (lt_of_nodeAt hn)
      rw [leafSymbols_leaf hn] at hmem
      obtain ⟨p, hp, rfl⟩ := List.mem_map.1 (hmem (List.mem_singleton_self _))
      exact (h.canonical.1.2.1 p hp).trans_le (nsym_le h.legal)
    rw [busRead_of_port (p := .nodeInfo) (by decide), busRead_of_port (p := .nodeCnt) (by decide),
      busRead_of_port (p := .nodeKids) (by decide)]
    simp only [readPort, readNodeInfo, readNodeCnt, readNodeKids, hsel]
    refine ⟨?_, shown hn, trivial⟩
    rw [BitVec.toNat_ofNat]
    omega
  · have hsel : s.selectedNode = some (.internal c l r) := hn
    have hlt := lt_of_nodeAt hn
    rcases soundNode_cases (hnodes _ hlt) with ⟨_, _, hn'⟩ | ⟨_, _, _, hn', hl, hr, -⟩ <;>
      rw [hn] at hn' <;> cases hn'
    rw [busRead_of_port (p := .nodeInfo) (by decide), busRead_of_port (p := .nodeCnt) (by decide),
      busRead_of_port (p := .nodeKids) (by decide)]
    simp only [readPort, readNodeInfo, readNodeCnt, readNodeKids, hsel]
    refine ⟨rfl, shown hn, ?_⟩
    rw [BitVec.toNat_ofNat]
    omega
  · simpa [hnone] using nodeAt_isSome (hnodes _ hlt)
  · obtain ⟨hi, -⟩ := List.getElem?_eq_some_iff.1 hn
    have hlt : n < s.nodeCount := wl_lt h.tree (List.mem_of_getElem? hn)
    rw [busRead_of_port (p := .wlNode) (by decide), readPort, readWlNode, if_pos (h.tree.1 ▸ hi),
      List.getD_eq_getElem?_getD, hn, Option.getD_some, BitVec.toNat_ofNat]
    omega
  · rw [busRead_of_port (p := .wlNode) (by decide), readPort, readWlNode, if_neg (Nat.not_lt.2 hbeyond)]

end Sys2Proof.Machine
end

section
/-! `DECODE` along a payload that parses (43_unpack_decode R173): the bits of a code, the codes of a list of symbols, and a
tail that no code completes. -/

namespace Sys2Proof.Machine

open Sys2Proof.Claims

/-! `Match` (41_code_table R132). -/

/-- A listed entry is its symbol's code. -/
theorem codeOf_of_mem {s : State} (h : Cells.Rising s.ct) {p : Nat × Bits} (hp : p ∈ s.ct) : s.codeOf p.1 = p.2 := by
  rw [State.codeOf, Cells.get_of_mem h hp, Option.getD_some]

theorem mem_of_codeOf {s : State} {x : Nat} (h : s.codeOf x ≠ []) : (x, s.codeOf x) ∈ s.ct := by
  cases hg : Cells.get s.ct x with
  | none => simp [State.codeOf, hg] at h
  | some c => simpa [State.codeOf, hg] using Cells.mem_of_get hg

theorem codeOf_of_matchCode {s : State} (h : Cells.Rising s.ct) {y : Bits} {x : Nat} (hm : matchCode s.ct y = some x) :
    s.codeOf x = y ∧ y ≠ [] := by
  obtain ⟨p, hp, rfl⟩ := Option.map_eq_some_iff.1 hm
  have hq := List.find?_some hp
  simp only [ne_eq, Bool.and_eq_true, decide_eq_true_eq, beq_iff_eq] at hq
  obtain ⟨hne, rfl⟩ := hq
  exact ⟨codeOf_of_mem h (List.mem_of_find?_eq_some hp), hne⟩

/-- A bitstring that is no symbol's code matches nothing. -/
theorem matchCode_none {s : State} (h : Cells.Rising s.ct) {y : Bits} (hy : ∀ x, s.codeOf x ≠ [] → s.codeOf x ≠ y) :
    matchCode s.ct y = none := by
  cases hm : matchCode s.ct y with
  | none => rfl
  | some x =>
    obtain ⟨hx, hne⟩ := codeOf_of_matchCode h hm
    exact absurd hx (hy x (hx ▸ hne))

theorem rising_ct {s : State} (h : s.Sound) : Cells.Rising s.ct := h.canonical.2.2.1.1

/-- A symbol's code matches that symbol. -/
theorem matchCode_codeOf {s : State} (h : s.Sound) {x : Nat} (hx : s.codeOf x ≠ []) :
    matchCode s.ct (s.codeOf x) = some x := by
  cases hm : matchCode s.ct (s.codeOf x) with
  | none =>
    have hf := List.find?_eq_none.1 (Option.map_eq_none_iff.1 hm) _ (mem_of_codeOf hx)
    simp [hx] at hf
  | some z =>
    obtain ⟨hz, -⟩ := codeOf_of_matchCode (rising_ct h) hm
    by_contra hne
    have hzx : z ≠ x := fun e => hne (by rw [e])
    exact codesArePrefixFree s h z x hzx (hz ▸ hx) hx (hz ▸ List.prefix_rfl)

/-- What begins a code and is not the whole of it matches nothing (41_code_table R135). -/
theorem matchCode_properPrefix {s : State} (h : s.Sound) {x : Nat} (hx : s.codeOf x ≠ []) {y : Bits}
    (hy : y <+: s.codeOf x) (hlt : y.length < (s.codeOf x).length) : matchCode s.ct y = none := by
  refine matchCode_none (rising_ct h) fun z hz e => ?_
  by_cases hzx : z = x
  · rw [hzx] at e
    rw [e] at hlt
    exact lt_irrefl _ hlt
  · exact codesArePrefixFree s h z x hzx hz hx (e ▸ hy)

/-! The payload ahead. -/

theorem ahead_takeBit {s : State} {b : Bool} {bits : Bits} (h : Ahead s (b :: bits)) : Ahead (takeBit b s) bits := by
  obtain ⟨hlen, hbits⟩ := h
  rw [List.length_cons] at hlen hbits
  refine ⟨?_, fun p hp => ?_⟩
  · show bits.length = s.decBits - (s.decPos + 1)
    omega
  · have := hbits (p + 1) (by omega)
    rw [List.getElem?_cons_succ] at this
    rw [← this, ← Nat.add_assoc, Nat.add_right_comm]
    rfl

/-- The bit `DECODE` takes next is the first one ahead (20_memory R80). -/
theorem payloadBit_of_ahead {s : State} {b : Bool} {bits : Bits} (h : Ahead s (b :: bits)) (hs : s.DecoderSound) :
    s.decPos < s.decBits ∧ payloadBit s.decPos s = .ok b := by
  obtain ⟨hlen, hbits⟩ := h
  rw [List.length_cons] at hlen hbits
  have hp : s.decPos < s.decBits := by omega
  have hb := hbits 0 (by omega)
  simp only [Nat.add_zero, List.getElem?_cons_zero, Option.some.injEq] at hb
  exact ⟨hp, by rw [payloadBit_inside hs hp, ← hb]; rfl⟩

theorem State.Sound.takeBit {s : State} (h : s.Sound) (b : Bool) (hp : s.decPos < s.decBits) (hc : s.decClen < 255) :
    (takeBit b s).Sound :=
  h.ofInput rfl (takeBit_sound b h.decoder hp hc) h.buffers

/-! Bits that complete no code. -/

/-- The bits `x` into the chunk. -/
def takeBits (x : Bits) (s : State) : State :=
  { s with chunk := s.chunk ++ x, decClen := s.decClen + x.length, decPos := s.decPos + x.length }

@[simp] theorem takeBits_nil (s : State) : takeBits [] s = s := by simp [takeBits]

theorem takeBits_cons (b : Bool) (x : Bits) (s : State) : takeBits (b :: x) s = takeBits x (takeBit b s) := by
  simp [takeBits, takeBit, Nat.add_assoc, Nat.add_comm 1]

/-- Bits of which none completes a code go into the chunk, while it stays below 255 bits. -/
theorem decodeBits_skip {s : State} {x rest : Bits} (h : s.Sound) (ha : Ahead s (x ++ rest))
    (hlen : s.decClen + x.length < 255) (hno : ∀ y, y ≠ [] → y <+: x → matchCode s.ct (s.chunk ++ y) = none) :
    decodeBits (x ++ rest).length s = decodeBits rest.length (takeBits x s) ∧ (takeBits x s).Sound ∧
      Ahead (takeBits x s) rest := by
  induction x generalizing s with
  | nil => simpa using ⟨h, ha⟩
  | cons b x ih =>
    rw [List.length_cons] at hlen
    obtain ⟨hp, hb⟩ := payloadBit_of_ahead ha h.decoder
    have hc : s.decClen < Config.codeLenMax := by rw [Config.codeLenMax]; omega
    have hmatch := hno [b] (by simp) (by simp)
    have hround : decodeBits ((x ++ rest).length + 1) s = decodeBits (x ++ rest).length (takeBit b s) := by
      rw [decodeBits_succ _ s hc hb, hmatch]
      exact if_neg (by rw [Config.codeLenMax]; omega)
    rw [takeBits_cons, List.cons_append, List.length_cons, hround]
    refine ih (h.takeBit b hp hc) (ahead_takeBit ha) (by simp only [takeBit_decClen]; omega) fun y hy hyx => ?_
    simpa using hno (b :: y) (by simp) (List.cons_prefix_cons.2 ⟨rfl, hyx⟩)

/-! A whole code. -/

/-- The symbol `sym` stored, and a fresh chunk (43_unpack_decode R173). -/
def emitted (sym : Nat) (s : State) : State :=
  { s with
    symout := Cells.set s.symout s.symoutLen (BitVec.ofNat 8 sym)
    symoutLen := s.symoutLen + 1, chunk := [], decClen := 0 }

theorem emitSymbol_eq {sym : Nat} {s : State} (h : s.symoutLen < s.cfg.symoutCap) :
    emitSymbol sym s = .ok (emitted sym s) := by
  rcases emitSymbol_cases sym s with ⟨-, e⟩ | ⟨hge, -⟩
  · exact e
  · omega

theorem emitted_sound {s : State} (sym : Nat) (h : s.Sound) (hroom : s.symoutLen < s.cfg.symoutCap) :
    (emitted sym s).Sound := by
  obtain ⟨-, -, -, hpos, -, hin, hbits⟩ := h.decoder
  exact h.ofInput rfl ⟨rfl, Nat.zero_le _, Nat.zero_le _, hpos, hroom, hin, hbits⟩
    ((keepsBuffers_set (b := .symout) _ hroom).2 h.buffers)

/-- The state once the code of `x`, of which the chunk holds the beginning, is read. -/
def afterCode (x : Nat) (s : State) : State :=
  emitted x { s with decPos := s.decPos - s.decClen + (s.codeOf x).length }

/-- `DECODE` reads a code to its end and stores its symbol. -/
theorem decodeBits_code {s : State} {x : Nat} {bits rest : Bits} (h : s.Sound) (ha : Ahead s bits)
    (hx : s.codeOf x ≠ []) (he : s.chunk ++ bits = s.codeOf x ++ rest) (hc : s.decClen < (s.codeOf x).length)
    (hroom : s.symoutLen < s.cfg.symoutCap) :
    decodeBits bits.length s = decodeBits rest.length (afterCode x s) ∧ (afterCode x s).Sound ∧
      Ahead (afterCode x s) rest := by
  obtain ⟨hchunk, -, hcpos, -⟩ := h.decoder
  have hmax := h.codeOf_length x
  obtain ⟨y, hcode, rfl⟩ : ∃ y, s.codeOf x = s.chunk ++ y ∧ bits = y ++ rest := by
    rcases List.append_eq_append_iff.1 he with ⟨y, h1, h2⟩ | ⟨y, h1, h2⟩
    · exact ⟨y, h1, h2⟩
    · have := congrArg List.length h1
      rw [List.length_append] at this
      omega
  have hlen : (s.codeOf x).length = s.decClen + y.length := by rw [hcode, List.length_append, hchunk]
  obtain ⟨z, b, rfl⟩ : ∃ z b, y = z ++ [b] :=
    (List.eq_nil_or_concat' y).resolve_left fun hy => by simp [hy] at hlen; omega
  simp only [List.length_append, List.length_singleton] at hlen
  rw [List.append_assoc, List.singleton_append] at ha ⊢
  obtain ⟨hskip, hsound, hahead⟩ := decodeBits_skip h ha (by omega) fun w _ hw => by
    refine matchCode_properPrefix h hx ?_ ?_
    · rw [hcode]
      exact (List.prefix_append_right_inj _).2 (hw.trans (List.prefix_append _ _))
    · have := hw.length_le
      rw [List.length_append, hchunk]
      omega
  obtain ⟨hp, hb⟩ := payloadBit_of_ahead hahead hsound.decoder
  have hclen : (takeBits z s).decClen < Config.codeLenMax := by
    show s.decClen + z.length < 255
    omega
  have hmatch : matchCode (takeBits z s).ct ((takeBits z s).chunk ++ [b]) = some x := by
    show matchCode s.ct (s.chunk ++ z ++ [b]) = some x
    rw [List.append_assoc, ← hcode]
    exact matchCode_codeOf h hx
  have hlast : emitted x (takeBit b (takeBits z s)) = afterCode x s := by
    have hpos : s.decPos + z.length + 1 = s.decPos - s.decClen + (s.codeOf x).length := by omega
    simp only [afterCode, emitted, takeBit, takeBits, hpos]
  have hround : decodeBits (rest.length + 1) (takeBits z s) = decodeBits rest.length (afterCode x s) := by
    rw [decodeBits_succ _ _ hclen hb, hmatch]
    refine (if_neg (Nat.ne_of_lt hroom)).trans ?_
    rw [emitSymbol_eq (show (takeBit b (takeBits z s)).symoutLen < _ from hroom), ok_bind, hlast]
  refine ⟨by rw [hskip, List.length_cons, hround], ?_, ?_⟩
  · rw [← hlast]
    exact emitted_sound x (hsound.takeBit b hp hclen) hroom
  · rw [← hlast]
    exact ahead_takeBit hahead

/-! The codes of a list of symbols. -/

theorem emits_nil (s : State) : Emits s s [] := ⟨rfl, fun _ _ h => by simp at h, fun _ _ => rfl⟩

theorem stored_emitted (sym : Nat) (s : State) (j : Nat) :
    (emitted sym s).stored .symout j = if j = s.symoutLen then BitVec.ofNat 8 sym else s.stored .symout j :=
  stored_withBuffer_set s .symout s.symoutLen j _

theorem emits_cons {s t : State} {x : Nat} {xs : List Nat} (h : Emits (afterCode x s) t xs) : Emits s t (x :: xs) := by
  obtain ⟨hlen, hnew, hold⟩ := h
  have hbyte : ∀ j, (afterCode x s).stored .symout j =
      if j = s.symoutLen then BitVec.ofNat 8 x else s.stored .symout j := fun j => stored_emitted x _ j
  have hcount : (afterCode x s).symoutLen = s.symoutLen + 1 := rfl
  rw [hcount] at hlen hnew hold
  refine ⟨?_, fun j z hz => ?_, fun j hj => ?_⟩
  · rw [hlen, List.length_cons]
    omega
  · cases j with
    | zero =>
      obtain rfl : x = z := by simpa using hz
      rw [Nat.add_zero, hold _ (.inl (Nat.lt_succ_self _)), hbyte, if_pos rfl]
    | succ j => rw [← hnew j z (by simpa using hz), Nat.add_assoc, Nat.add_comm 1]
  · rw [List.length_cons] at hj
    rw [hold j (by omega), hbyte, if_neg (by omega)]

/-- `DECODE` reads the codes of `syms` and stands at the tail: the loop goes on from a state `u` that emitted them. -/
theorem decodeBits_parses {s : State} {bits tail : Bits} {syms : List Nat} (h : s.Sound) (hp : Parses s bits syms tail)
    (hroom : s.symoutLen + syms.length ≤ s.cfg.symoutCap) :
    ∃ u rest, decodeBits bits.length s = decodeBits rest.length u ∧ u.Sound ∧ Ahead u rest ∧ u.chunk ++ rest = tail ∧
      OnlyDecoder s u ∧ Emits s u syms ∧ u.upState = s.upState ∧
      u.decPos = s.decPos - s.decClen + (syms.flatMap s.codeOf).length + u.decClen ∧
      (syms = [] → u = s ∧ rest = bits) ∧ (syms ≠ [] → u.decClen = 0) := by
  induction syms generalizing s bits with
  | nil =>
    obtain ⟨ha, he, -, -⟩ := hp
    obtain ⟨-, -, hcpos, -⟩ := h.decoder
    refine ⟨s, bits, rfl, h, ha, by simpa using he, rfl, emits_nil s, rfl, ?_, fun _ => ⟨rfl, rfl⟩,
      fun hne => absurd rfl hne⟩
    simp only [List.flatMap_nil, List.length_nil]
    omega
  | cons x xs ih =>
    obtain ⟨ha, he, hcodes, hhead⟩ := hp
    rw [List.length_cons] at hroom
    rw [List.flatMap_cons, List.append_assoc] at he
    have hne := hcodes x List.mem_cons_self
    obtain ⟨hcode, hsound, hahead⟩ := decodeBits_code h ha hne he (hhead x rfl) (by omega)
    have hp' : Parses (afterCode x s) (xs.flatMap s.codeOf ++ tail) xs tail :=
      ⟨hahead, rfl, fun y hy => hcodes y (List.mem_cons_of_mem _ hy), fun y hy =>
        List.length_pos_iff.2 (hcodes y (List.mem_cons_of_mem _ (List.mem_of_mem_head? hy)))⟩
    have hroom' : (afterCode x s).symoutLen + xs.length ≤ (afterCode x s).cfg.symoutCap := by
      show s.symoutLen + 1 + xs.length ≤ s.cfg.symoutCap
      omega
    obtain ⟨u, rest, hrun, husound, huahead, htail, honly, hemits, hup, hpos, hnil, hcons⟩ := ih hsound hp' hroom'
    have hread : SameButDecoder s (afterCode x s) := rfl
    refine ⟨u, rest, hcode.trans hrun, husound, huahead, htail, hread.trans honly, emits_cons hemits, hup, ?_,
      fun hx => absurd hx (List.cons_ne_nil _ _), fun _ => ?_⟩
    · rw [hpos]
      show s.decPos - s.decClen + (s.codeOf x).length - 0 + (xs.flatMap s.codeOf).length + u.decClen = _
      rw [List.flatMap_cons, List.length_append]
      omega
    · by_cases hx : xs = []
      · rw [(hnil hx).1]
        rfl
      · exact hcons hx

/-! A tail that no code completes. -/

/-- A tail of 255 bits or more splits at the 255th bit of the chunk. -/
theorem split_at_longest {n : Nat} {chunk rest tail : Bits} (hchunk : chunk.length = n) (hn : n < 255)
    (he : chunk ++ rest = tail) (hlong : 255 ≤ tail.length) :
    ∃ z b rest', rest = z ++ b :: rest' ∧ n + z.length = 254 ∧ chunk ++ (z ++ [b]) = tail.take 255 := by
  have hrlen : chunk.length + rest.length = tail.length := by rw [← he, List.length_append]
  have hlt : 254 - n < rest.length := by omega
  have hsplit : rest = rest.take (254 - n) ++ rest[254 - n] :: rest.drop (254 - n + 1) := by
    rw [List.getElem_cons_drop, List.take_append_drop]
  refine ⟨rest.take (254 - n), rest[254 - n], rest.drop (254 - n + 1), hsplit, by rw [List.length_take]; omega, ?_⟩
  have hall : chunk.take 255 = chunk := List.take_of_length_le (by omega)
  rw [← he, List.take_append, hall, hchunk, show 255 - n = 254 - n + 1 by omega, List.take_succ_eq_append_getElem hlt]

/-- A chunk that reaches 255 bits without a match stops `DECODE` at once (60_exceptions R202). -/
theorem decodeBits_tooLong {s : State} {rest tail : Bits} (h : s.Sound) (ha : Ahead s rest) (he : s.chunk ++ rest = tail)
    (hrest : rest ≠ []) (hlong : 255 ≤ tail.length)
    (hno : ∀ x, s.codeOf x ≠ [] → s.codeOf x <+: tail → (s.codeOf x).length ≤ s.decClen) :
    ∃ x, decodeBits rest.length s = .ok (takeBits x s, some (takeBits x s).chunkTooLong) ∧
      (takeBits x s).chunk = tail.take 255 ∧ (takeBits x s).decClen = 255 := by
  obtain ⟨hchunk, hmax, -⟩ := h.decoder
  have hmax : s.decClen ≤ 255 := hmax
  by_cases hfull : s.decClen = 255
  · obtain ⟨n, hn⟩ := Nat.exists_eq_succ_of_ne_zero (mt List.length_eq_zero_iff.1 hrest)
    refine ⟨[], ?_, ?_, ?_⟩ <;> rw [takeBits_nil]
    · rw [hn]
      exact decodeBits_full n hfull.ge
    · rw [← he, ← hfull, ← hchunk, List.take_left]
    · exact hfull
  obtain ⟨z, b, rest', rfl, hz, htake⟩ := split_at_longest hchunk (by omega) he hlong
  have hnomatch : ∀ y, y ≠ [] → y <+: z ++ [b] → matchCode s.ct (s.chunk ++ y) = none := fun y hy hyz => by
    have hyt : s.chunk ++ y <+: tail :=
      ((List.prefix_append_right_inj _).2 hyz).trans (htake ▸ List.take_prefix _ _)
    refine matchCode_none (rising_ct h) fun x hx e => ?_
    have hle := hno x hx (e ▸ hyt)
    have hpos := List.length_pos_iff.2 hy
    rw [e, List.length_append] at hle
    omega
  obtain ⟨hskip, hsound, hahead⟩ := decodeBits_skip h ha (by omega) fun y hy hyz =>
    hnomatch y hy (hyz.trans (List.prefix_append _ _))
  obtain ⟨-, hb⟩ := payloadBit_of_ahead hahead hsound.decoder
  have hclen : (takeBits z s).decClen = 254 := hz
  have hmatch : matchCode (takeBits z s).ct ((takeBits z s).chunk ++ [b]) = none := by
    show matchCode s.ct (s.chunk ++ z ++ [b]) = none
    rw [List.append_assoc]
    exact hnomatch _ (by simp) List.prefix_rfl
  have hlast : takeBits (z ++ [b]) s = takeBit b (takeBits z s) := by
    simp [takeBits, takeBit, Nat.add_assoc]
  refine ⟨z ++ [b], ?_, htake, ?_⟩
  · rw [hskip, List.length_cons, decodeBits_succ _ _ (by rw [hclen]; decide) hb, hmatch, hlast]
    exact if_pos (by rw [hclen]; rfl)
  · show s.decClen + (z ++ [b]).length = 255
    rw [List.length_append, List.length_singleton]
    omega

/-- Settles O54: past the decoded symbols, the tail fills the chunk to 255 bits with no match. -/
theorem decodeStopsAtTheLongestChunk : Obligations.DecodeStopsAtTheLongestChunk := by
  intro s bits syms tail h hready hct hp hroom hbits hlong hno
  obtain ⟨v, rest, hrun, hsound, hahead, htail, honly, hemits, hup, hpos, hnil, hcons⟩ := decodeBits_parses h hp hroom
  have hcode : ∀ x, v.codeOf x = s.codeOf x := fun x => by rw [honly]; rfl
  have hrest : rest ≠ [] := by
    by_cases hs : syms = []
    · rw [(hnil hs).2]
      exact hbits
    · intro hr
      have hclen := hsound.decoder.1
      rw [hr, List.append_nil] at htail
      rw [← htail, hclen, hcons hs] at hlong
      omega
  have hno' : ∀ x, v.codeOf x ≠ [] → v.codeOf x <+: tail → (v.codeOf x).length ≤ v.decClen := fun x hx hxt => by
    rw [hcode] at hx hxt ⊢
    obtain ⟨hs, hle⟩ := hno x hx hxt
    rwa [(hnil hs).1]
  obtain ⟨x, hstop, hchunk, hclen⟩ := decodeBits_tooLong hsound hahead htail hrest hlong hno'
  have hstart : v.decClen ≤ v.decPos := hsound.decoder.2.2.1
  have hlen : v.decClen + x.length = 255 := hclen
  have hbody : decodeBody s = .ok (takeBits x v, some (takeBits x v).chunkTooLong) := by
    rw [decodeBody, if_neg (by simp [hready, hct]), ← hp.1.1, hrun, hstop]
  have hraised : (takeBits x v).chunkTooLong =
      ⟨.truncatedOrCorruptStream, 5, s.decPos - s.decClen + (syms.flatMap s.codeOf).length, 255⟩ := by
    have hfrom : (takeBits x v).chunkStart = s.decPos - s.decClen + (syms.flatMap s.codeOf).length := by
      show v.decPos + x.length - (v.decClen + x.length) = _
      omega
    rw [State.chunkTooLong, hfrom, hclen]
  refine ⟨_, takeBits x v, execDecode_raised hbody, ?_, hemits, ?_, ?_, hclen, hchunk,
    hup.trans hready⟩
  · rw [OnlyDecoder] at honly ⊢
    simp only [takeBits]
    rw [honly]
  · rw [hraised]
    exact records_raiseError .decode (by decide) _ _ _ _
  · show v.decPos + x.length = _
    omega

end Sys2Proof.Machine
end

section
/-! `DECODE` of a payload that is codes to its end (43_unpack_decode R173). -/

namespace Sys2Proof.Machine

open Sys2Proof.Claims

/-- Settles O52: past the symbols nothing is left, so the loop ends with an empty chunk. -/
theorem decodeRecoversTheSymbols : Obligations.DecodeRecoversTheSymbols := by
  intro s bits syms h hready hct hp hroom
  obtain ⟨u, rest, hrun, hsound, hahead, htail, honly, hemits, -, -, -, -⟩ := decodeBits_parses h hp hroom
  obtain ⟨hchunk, rfl⟩ := List.append_eq_nil_iff.1 htail
  obtain ⟨hlen, -, -, hle, -⟩ := hsound.decoder
  have hclen : u.decClen = 0 := by rw [← hlen, hchunk, List.length_nil]
  have hleft : 0 = u.decBits - u.decPos := hahead.1
  have hbits : u.decBits = s.decBits := by rw [honly]
  have hbody : decodeBody s = .ok ({ u with upState := .done }, none) := by
    rw [decodeBody, if_neg (by simp [hready, hct]), ← hp.1.1, hrun]
    exact if_neg (by rw [hclen]; exact lt_irrefl 0)
  have hdone : OnlyDecoder u { u with upState := .done } := rfl
  refine ⟨_, execDecode_done hbody, SameButDecoder.trans honly hdone, hemits, ?_, hclen, hchunk, rfl⟩
  show u.decPos = s.decBits
  omega

end Sys2Proof.Machine
end

section
/-! The packer's bits: how the packed bits read, and what `AppendBits` adds to them (20_memory R79, 42_encode_pack R150). -/

namespace Sys2Proof.Machine

open Sys2Proof.Claims

/-! Reading the packed bits. -/

/-- `bstr(v, n)` lists the bits of `v`, bit `n - 1` first (00_scope R11). -/
theorem bstr_eq_map (v n : Nat) : bstr v n = (List.range n).map (fun t => v.testBit (n - 1 - t)) := by
  induction n with
  | zero => rfl
  | succ n ih =>
    rw [bstr, ih, List.range_succ_eq_map, List.map_cons, List.map_map]
    refine congrArg (_ :: ·) (List.map_congr_left fun t _ => ?_)
    rw [Function.comp_apply, Nat.succ_eq_add_one, Nat.add_sub_cancel, Nat.sub_sub, Nat.add_comm 1]

/-- A bit below a value's bits. -/
theorem bstr_append_bit (v n : Nat) (b : Bool) : bstr (2 * v + b.toNat) (n + 1) = bstr v n ++ [b] := by
  have hdiv : (2 * v + b.toNat) / 2 = v := by have := Bool.toNat_le b; omega
  induction n with
  | zero => cases b <;> simp [bstr, Nat.testBit_zero]
  | succ n ih => rw [bstr, ih, Nat.testBit_succ, hdiv]; rfl

theorem packed_eq (s : State) : packed s = streamBits s (s.outLen - 1) ++ bstr s.acc s.accN := by
  rw [packed, bstr_eq_map]

theorem byteBits_ofNat (v : Nat) : byteBits (BitVec.ofNat 8 v) = bstr v 8 := by
  rw [byteBits, bstr_eq_map]
  refine List.map_congr_left fun t _ => ?_
  have ht : 7 - t < 8 := by omega
  rw [BitVec.getLsbD_ofNat, decide_eq_true ht, Bool.true_and]

theorem streamBits_succ (s : State) (n : Nat) :
    streamBits s (n + 1) = streamBits s n ++ byteBits (s.stored .outbuf (1 + n)) := by
  simp [streamBits, List.range_succ]

theorem streamBits_congr {s t : State} {n : Nat} (h : ∀ j ≤ n, t.stored .outbuf j = s.stored .outbuf j) :
    streamBits t n = streamBits s n := by
  have hbyte : ∀ i ∈ List.range n, byteBits (t.stored .outbuf (1 + i)) = byteBits (s.stored .outbuf (1 + i)) :=
    fun i hi => by rw [h (1 + i) (by have := List.mem_range.1 hi; omega)]
  simp only [streamBits, List.flatMap_def, List.map_congr_left hbyte]

/-! Appending. -/

/-- `t` is `s` with the bits `x` appended: the packed bits, their number, and no stored byte but those completed. -/
structure Appends (s : State) (x : Bits) (t : State) : Prop where
  packed : packed t = packed s ++ x
  bitcnt : t.bitcnt = s.bitcnt + x.length
  outLen : s.outLen ≤ t.outLen
  stored : ∀ j, ¬ (s.outLen ≤ j ∧ j < t.outLen) → t.stored .outbuf j = s.stored .outbuf j

theorem Appends.refl (s : State) : Appends s [] s :=
  ⟨(List.append_nil _).symm, rfl, le_rfl, fun _ _ => rfl⟩

theorem Appends.trans {s t u : State} {x y : Bits} (h : Appends s x t) (k : Appends t y u) : Appends s (x ++ y) u where
  packed := by rw [k.packed, h.packed, List.append_assoc]
  bitcnt := by rw [k.bitcnt, h.bitcnt, List.length_append, Nat.add_assoc]
  outLen := h.outLen.trans k.outLen
  stored j hj := by
    have hst := h.outLen
    have htu := k.outLen
    rw [k.stored j (by omega), h.stored j (by omega)]

/-- The eighth pending bit completes the byte after the last one packed (42_encode_pack R150). -/
theorem packed_of_byte {s t : State} {b : Bool} (hout : 1 ≤ s.outLen) (h7 : s.accN = 7)
    (hlen : t.outLen = s.outLen + 1) (hn : t.accN = 0) (hbyte : ∀ j, t.stored .outbuf j =
      if j = s.outLen then BitVec.ofNat 8 (2 * s.acc + b.toNat) else s.stored .outbuf j) :
    packed t = packed s ++ [b] := by
  obtain ⟨n, hs⟩ := Nat.exists_eq_add_of_le hout
  have hlow : streamBits t n = streamBits s n := streamBits_congr fun j hj => by rw [hbyte, if_neg (by omega)]
  have hlast : byteBits (t.stored .outbuf (1 + n)) = bstr s.acc s.accN ++ [b] := by
    rw [hbyte, if_pos hs.symm, byteBits_ofNat, bstr_append_bit, h7]
  calc
    packed t = streamBits t (n + 1) := by
      rw [packed_eq, hn, bstr, List.append_nil, hlen, hs, Nat.add_sub_cancel, Nat.add_comm]
    _ = packed s ++ [b] := by
      rw [streamBits_succ, hlow, hlast, packed_eq, hs, Nat.add_sub_cancel_left, List.append_assoc]

/-- One bit joins the pending ones, or completes their byte (42_encode_pack R150). -/
theorem appendBit_appends {s t : State} {b : Bool} (hout : 1 ≤ s.outLen) (h : appendBit b s = .ok t) :
    Appends s [b] t := by
  rcases appendBit_cases b s with ⟨-, e⟩ | ⟨h8, -, e⟩ | ⟨-, -, e⟩ <;> rw [e] at h <;> cases h
  case inl =>
    refine ⟨?_, rfl, le_rfl, fun _ _ => rfl⟩
    rw [packed_eq, packed_eq, List.append_assoc, ← bstr_append_bit]
    rfl
  case inr.inl =>
    have h7 : s.accN = 7 := by omega
    have hbyte := fun j => stored_withBuffer_set s .outbuf s.outLen j (BitVec.ofNat 8 (2 * s.acc + b.toNat))
    exact ⟨packed_of_byte hout h7 rfl rfl hbyte, rfl, Nat.le_succ _, fun j hj =>
      (hbyte j).trans (if_neg fun e : j = s.outLen => hj ⟨e.ge, e ▸ Nat.lt_succ_self _⟩)⟩

/-- Bits that fit are appended in order (42_encode_pack R150, R151). -/
theorem appendBits_appends {x : Bits} {s : State} (h : s.PackerSound) (ho : s.pkState = .opened)
    (hfit : 1 + (s.bitcnt + x.length + 7) / 8 ≤ s.cfg.outCap) :
    ∃ t, appendBits x s = .ok t ∧ t.PackerSound ∧ Appends s x t := by
  induction x generalizing s with
  | nil => exact ⟨s, rfl, h, Appends.refl s⟩
  | cons b x ih =>
    rw [List.length_cons] at hfit
    have ⟨_, hopen, _⟩ := h
    obtain ⟨-, -, hout⟩ := hopen ho
    obtain ⟨u, hu, hsound, hopened, hcnt, hcfg⟩ := appendBit_sound b h ho (by omega)
    obtain ⟨t, ht, hst, happ⟩ := ih hsound hopened (by rw [hcnt, hcfg]; omega)
    exact ⟨t, by rw [appendBits, hu, ok_bind, ht], hst, (appendBit_appends (by omega) hu).trans happ⟩

/-- Bits that fit pass the capacity check (42_encode_pack R151). -/
theorem appendChecked_fits {x : Bits} {s : State} (h : 1 + (s.bitcnt + x.length + 7) / 8 ≤ s.cfg.outCap) :
    appendChecked x s = appendBits x s :=
  if_pos (decide_eq_true h)

/-- `ENC` of a symbol with a code appends the code (42_encode_pack R152). -/
theorem encBody_code {sym : Nat} {s : State} (hct : s.ctState ≠ .empty) (ho : s.pkState = .opened)
    (hcode : s.codeOf sym ≠ []) : encBody sym s = appendChecked (s.codeOf sym) s := by
  rw [encBody, if_neg (by simp [hct, ho]), State.lookup, if_neg hcode]

theorem putbitsBody_opened {x : Bits} {s : State} (ho : s.pkState = .opened) :
    putbitsBody x s = appendChecked x s :=
  if_neg (not_not.2 ho)

/-- Settles O46: both commands pass their checks and append their bits. -/
theorem encAndPutbitsAppendTheirBits : Obligations.EncAndPutbitsAppendTheirBits := by
  intro i x s h ho hx hfit
  obtain ⟨t, ht, ⟨-, hopen, -⟩, happ⟩ := appendBits_appends h ho hfit
  have hsame := appendBits_same ht
  have hopened : t.pkState = .opened := by rw [hsame]; exact ho
  obtain ⟨haccN, -, hout⟩ := hopen hopened
  have hbody : i ≠ .decode ∧ bodyOf i s = appendChecked x s := by
    cases i with
    | enc sym =>
      obtain ⟨hct, hcode, rfl⟩ := hx
      exact ⟨Instr.noConfusion, encBody_code hct ho hcode⟩
    | putbits n v =>
      have hraw : rawBits n v = x := by rw [hx, rawBits, bstr_eq_map]; rfl
      exact ⟨Instr.noConfusion, hraw ▸ putbitsBody_opened ho⟩
    | _ => exact hx.elim
  obtain ⟨hi, hbody⟩ := hbody
  refine ⟨t, by rw [exec_eq_finish s hi, hbody, appendChecked_fits hfit, ht, finish_ok], ?_, happ.packed, happ.bitcnt,
    hout, haccN, hopened, happ.stored⟩
  rw [OnlyPacker, hopened, ← ho]
  exact hsame

end Sys2Proof.Machine
end

section
/-! The host's side of the memory map: accesses outside the interface, ignored writes, and the windows (20_memory R71 to
R77). -/

namespace Sys2Proof.Machine

open Sys2Proof.Claims

/-- Settles O15: an empty list of actions is the waiting branch of the host's move. -/
theorem blockWaitsForTheHost : Obligations.BlockWaitsForTheHost := by
  intro s h
  rw [step, hostStep, h]

/-- Settles O17: the host port checks width and alignment before anything else. -/
theorem accessOutsideInterfaceIsRefused : Obligations.AccessOutsideInterfaceIsRefused := by
  intro s rest width off hbad h
  have hout : insideInterface width off = false := by
    rw [insideInterface, Bool.and_eq_false_iff]
    simpa using hbad
  rcases h with h | ⟨v, h⟩ <;> simp [step, hostStep, h, perform, hout]

/-! Where nothing is stored. -/

/-- The place stores nothing at a bus write: no RW register, not `CMD`, not the `INBUF` window (20_memory R74). -/
def Port.readOnly : Port → Bool
  | .ctrl | .cmd | .inLen | .symSel | .nodeSel | .wlSel | .lcBits _ | .inbufWord _ => false
  | _ => true

theorem writePort_readOnly {p : Port} (v : Word) (s : State) (h : p.readOnly = true) : writePort v s p = s := by
  cases p with
  | ctrl | inLen | symSel | nodeSel | wlSel | lcBits | inbufWord => cases h
  | _ => rfl

/-- The map past its registers: the windows, with reserved words around them (10_state R23). -/
theorem portOfWord_high {n : Nat} (h : 51 ≤ n) :
    portOfWord n =
      if n < 0x4000 then .reserved
      else if n < 0x8000 then .outbufWord (n - 0x4000)
      else if n < 0xC000 then .inbufWord (n - 0x8000)
      else if n < 0x10000 then .reserved
      else .symoutWord (n - 0x10000) := by
  rw [portOfWord, if_neg (by omega), if_neg (by omega), if_neg (by omega), if_neg (by omega), if_neg (by omega),
    if_neg (by omega)]

theorem portOfWord_outbuf {n : Nat} (h : 0x4000 ≤ n ∧ n < 0x8000) : portOfWord n = .outbufWord (n - 0x4000) := by
  rw [portOfWord_high (by omega), if_neg (by omega), if_pos (by omega)]

theorem portOfWord_inbuf {n : Nat} (h : 0x8000 ≤ n ∧ n < 0xC000) : portOfWord n = .inbufWord (n - 0x8000) := by
  rw [portOfWord_high (by omega), if_neg (by omega), if_neg (by omega), if_pos (by omega)]

theorem portOfWord_symout {n : Nat} (h : 0x10000 ≤ n) : portOfWord n = .symoutWord (n - 0x10000) := by
  rw [portOfWord_high (by omega), if_neg (by omega), if_neg (by omega), if_neg (by omega), if_neg (by omega)]

theorem portOfWord_reserved {n : Nat} (h : (51 ≤ n ∧ n < 0x4000) ∨ (0xC000 ≤ n ∧ n < 0x10000)) :
    portOfWord n = .reserved := by
  rw [portOfWord_high (by omega)]
  rcases h with h | h
  · rw [if_pos h.2]
  · rw [if_neg (by omega), if_neg (by omega), if_neg (by omega), if_pos h.2]

/-- Which words of the map are read-only (10_state R23). -/
theorem portOfWord_readOnly {n : Nat} (hrw : 4 * n ∉ [0x008, 0x010, 0x048, 0x05C, 0x068, 0x078])
    (hlc : ¬ (40 ≤ n ∧ n < 48)) (hin : ¬ (0x8000 ≤ n ∧ n < 0xC000)) : (portOfWord n).readOnly = true := by
  by_cases hlow : n < 51
  · have registers : ∀ k < 51, 4 * k ∉ [0x008, 0x010, 0x048, 0x05C, 0x068, 0x078] → ¬ (40 ≤ k ∧ k < 48) →
        (portOfWord k).readOnly = true := by decide
    exact registers n hlow hrw hlc
  · by_cases hres : n < 0x4000 ∨ (0xC000 ≤ n ∧ n < 0x10000)
    · rw [portOfWord_reserved (by omega)]
      rfl
    · by_cases hout : n < 0x8000
      · rw [portOfWord_outbuf (by omega)]
        rfl
      · rw [portOfWord_symout (by omega)]
        rfl

/-- A lane at or beyond `IN_CAP` is not there to write (20_memory R73). -/
theorem writeLane_beyond {q r : Nat} (v : Word) {s : State} (h : s.cfg.inCap ≤ 4 * q + r) : writeLane q v r s = s :=
  if_neg (Nat.not_lt.2 h)

theorem writeInbuf_beyond {q : Nat} (v : Word) {s : State} (h : s.cfg.inCap ≤ 4 * q) : writeInbuf q v s = s := by
  simp only [writeInbuf, writeLane_beyond v (h.trans (Nat.le_add_right _ _))]

/-- Settles O18: the place is read-only, or a word of the `INBUF` window beyond `IN_CAP`. -/
theorem writesElsewhereAreIgnored : Obligations.WritesElsewhereAreIgnored := by
  refine fun s => ⟨busRead_of_port (p := .cmd) (by decide), fun rest off v h h4 hrw hlc hin => ?_⟩
  have hoff : 4 * (off.toNat / 4) = off.toNat := by omega
  by_cases hw : 0x8000 ≤ off.toNat / 4 ∧ off.toNat / 4 < 0xC000
  · rw [step_of_write h h4 (portOfWord_inbuf hw) (by simp), writePort, writeInbuf_beyond]
    show s.cfg.inCap ≤ _
    omega
  · have hro : (portOf off).readOnly = true := portOfWord_readOnly (by rwa [hoff]) (by omega) hw
    have hcmd : portOf off ≠ .cmd := fun hc => by rw [hc] at hro; cases hro
    rw [step_of_write h h4 rfl hcmd, writePort_readOnly v _ hro]

/-! The windows. -/

theorem portOf_ofNat {n m : Nat} (h : m < 0x80000) (hm : m / 4 = n) : portOf (BitVec.ofNat 19 m) = portOfWord n := by
  rw [portOf, BitVec.toNat_ofNat, Nat.mod_eq_of_lt (by omega), hm]

theorem portOf_outbuf {q : Nat} (h : q < 0x4000) : portOf (BitVec.ofNat 19 (0x10000 + 4 * q)) = .outbufWord q := by
  rw [portOf_ofNat (n := 0x4000 + q) (by omega) (by omega), portOfWord_outbuf (by omega), Nat.add_sub_cancel_left]

theorem portOf_inbuf {q : Nat} (h : q < 0x4000) : portOf (BitVec.ofNat 19 (0x20000 + 4 * q)) = .inbufWord q := by
  rw [portOf_ofNat (n := 0x8000 + q) (by omega) (by omega), portOfWord_inbuf (by omega), Nat.add_sub_cancel_left]

theorem portOf_symout {j : Nat} (h : j < 0x10000) : portOf (BitVec.ofNat 19 (0x40000 + 4 * j)) = .symoutWord j := by
  rw [portOf_ofNat (n := 0x10000 + j) (by omega) (by omega), portOfWord_symout (by omega), Nat.add_sub_cancel_left]

/-- Lane `r` of a window word is its byte (20_memory R75). -/
theorem extractLsb'_lanes (byteAt : Nat → Byte) (q : Nat) {r : Nat} (h : r < 4) :
    (lanes byteAt q).extractLsb' (8 * r) 8 = byteAt (4 * q + r) := by
  have first {w : Nat} (hi : BitVec w) (lo : Byte) : (hi ++ lo).extractLsb' 0 8 = lo :=
    BitVec.extractLsb'_append_eq_right
  have next {w k : Nat} (hi : BitVec w) (lo : Byte) : (hi ++ lo).extractLsb' (k + 8) 8 = hi.extractLsb' k 8 :=
    BitVec.extractLsb'_append_eq_of_le (Nat.le_add_left 8 k)
  unfold lanes
  interval_cases r
  · exact first _ _
  · exact (next _ _).trans (first _ _)
  · exact (next _ _).trans ((next _ _).trans (first _ _))
  · exact (next _ _).trans ((next _ _).trans ((next _ _).trans BitVec.extractLsb'_eq_self))

/-- A word of four zero bytes is 0. -/
theorem lanes_zero {byteAt : Nat → Byte} {q : Nat} (h : ∀ i, 4 * q ≤ i → byteAt i = 0#8) :
    lanes byteAt q = 0#32 := by
  rw [lanes, h _ (by omega), h _ (by omega), h _ (by omega), h _ (by omega)]
  rfl

/-- Settles O23: a window word is made of the lanes of its buffer. -/
theorem windowsAreLittleEndianLanes : Obligations.WindowsAreLittleEndianLanes := by
  intro s q r hq hr
  rw [busRead_of_port (portOf_outbuf hq), busRead_of_port (portOf_inbuf hq)]
  exact ⟨extractLsb'_lanes (outbufLane s) q hr, extractLsb'_lanes (inbufLane s) q hr⟩

/-- Settles O24: below `SYMOUT_LEN` a word is its symbol, zero-extended. -/
theorem symoutWindowShowsOneSymbolAWord : Obligations.SymoutWindowShowsOneSymbolAWord := by
  intro s j hle hj
  rw [busRead_of_port (portOf_symout hj), readPort, readSymout]
  by_cases h : j < s.symoutLen
  · rw [if_pos ⟨h, h.trans_le hle⟩, if_pos h, BitVec.toNat_setWidth_of_le (by decide)]
  · rw [if_neg (fun hc => h hc.1), if_neg h]
    rfl

/-- Settles O19: such a place reads 0, and its writes are among those `WritesElsewhereAreIgnored` is about. -/
theorem reservedOffsetsReadZeroAndIgnoreWrites : Obligations.ReservedOffsetsReadZeroAndIgnoreWrites := by
  refine fun s off h4 hoff => ⟨?_, fun rest v h => ?_⟩
  · rcases hoff with hres | hres | hout | hin | hsym
    · exact busRead_of_port (portOfWord_reserved (by omega))
    · exact busRead_of_port (portOfWord_reserved (by omega))
    · refine (busRead_of_port (portOfWord_outbuf (by omega))).trans (lanes_zero fun i hi => if_neg fun hc => ?_)
      omega
    · refine (busRead_of_port (portOfWord_inbuf (by omega))).trans (lanes_zero fun i hi => if_neg fun hc => ?_)
      omega
    · refine (busRead_of_port (portOfWord_symout (by omega))).trans (if_neg fun hc => ?_)
      omega
  · refine (writesElsewhereAreIgnored s).2 rest off v h h4 ?_ (by omega) (by omega)
    simp only [List.mem_cons, List.not_mem_nil, or_false, not_or]
    omega

/-! Writes in the `INBUF` window. -/

@[simp] theorem writeLane_cfg (q : Nat) (v : Word) (r : Nat) (s : State) : (writeLane q v r s).cfg = s.cfg := by
  unfold writeLane
  split <;> rfl

/-- A lane below `IN_CAP` holds its byte of the word written; every other byte stays (20_memory R76). -/
theorem stored_writeLane (q : Nat) (v : Word) (r : Nat) (s : State) (i : Nat) :
    (writeLane q v r s).stored .inbuf i =
      if i = 4 * q + r ∧ i < s.cfg.inCap then v.extractLsb' (8 * r) 8 else s.stored .inbuf i := by
  unfold writeLane
  split
  · rename_i hcap
    refine (stored_withBuffer_set s .inbuf _ _ _).trans (if_congr ?_ rfl rfl)
    exact ⟨fun hi => ⟨hi, hi ▸ hcap⟩, And.left⟩
  · rename_i hcap
    exact (if_neg fun ⟨hi, hlt⟩ => hcap (hi ▸ hlt)).symm

/-- A write in the `INBUF` window changes `INBUF` alone. -/
theorem writeInbuf_same (q : Nat) (v : Word) (s : State) :
    writeInbuf q v s = { s with inbuf := (writeInbuf q v s).inbuf } := by
  have lane : ∀ r u, ∃ m, writeLane q v r u = { u with inbuf := m } := fun r u => by
    unfold writeLane
    split <;> exact ⟨_, rfl⟩
  unfold writeInbuf
  obtain ⟨m₀, h₀⟩ := lane 0 s
  obtain ⟨m₁, h₁⟩ := lane 1 (writeLane q v 0 s)
  obtain ⟨m₂, h₂⟩ := lane 2 (writeLane q v 1 (writeLane q v 0 s))
  obtain ⟨m₃, h₃⟩ := lane 3 (writeLane q v 2 (writeLane q v 1 (writeLane q v 0 s)))
  rw [h₃, h₂, h₁, h₀]

/-- The four lanes together (20_memory R76). -/
theorem stored_writeInbuf (q : Nat) (v : Word) (s : State) (i : Nat) :
    (writeInbuf q v s).stored .inbuf i =
      if 4 * q ≤ i ∧ i < 4 * q + 4 ∧ i < s.cfg.inCap then BitVec.ofNat 8 (v.toNat / 2 ^ (8 * (i - 4 * q)))
      else s.stored .inbuf i := by
  have byte : ∀ k, v.extractLsb' k 8 = BitVec.ofNat 8 (v.toNat / 2 ^ k) := fun k => by
    rw [BitVec.extractLsb', Nat.shiftRight_eq_div_pow]
  simp only [writeInbuf, stored_writeLane, writeLane_cfg, byte]
  by_cases hin : 4 * q ≤ i ∧ i < 4 * q + 4 ∧ i < s.cfg.inCap
  · rw [if_pos hin]
    obtain ⟨r, rfl⟩ := Nat.exists_eq_add_of_le hin.1
    obtain ⟨-, hr, hcap⟩ := hin
    have hr : r < 4 := by omega
    simp only [Nat.add_left_cancel_iff, hcap, and_true, Nat.add_sub_cancel_left]
    interval_cases r <;> rfl
  · rw [if_neg hin, if_neg (by omega), if_neg (by omega), if_neg (by omega), if_neg (by omega)]

/-- Settles O22: the window's word is at its port, and the write is its four lanes. -/
theorem inbufWriteSetsItsLanes : Obligations.InbufWriteSetsItsLanes := by
  intro s rest q v hq h
  have h4 : (BitVec.ofNat 19 (0x20000 + 4 * q)).toNat % 4 = 0 := by
    rw [BitVec.toNat_ofNat]
    omega
  exact ⟨_, step_of_write h h4 (portOf_inbuf hq) (by simp), writeInbuf_same _ _ _, stored_writeInbuf _ _ _⟩

end Sys2Proof.Machine
end

section
/-! The command words (30_encoding): what a word's fields are, that the encoder and the decoder undo each other, and which
words are legal. -/

namespace Sys2Proof.Machine

open Sys2Proof.Claims

/-! The fields of an encoded command (30_encoding R91 to R97). -/

/-- Bits below the opcode are the operands'. -/
theorem extractLsb'_encode (i : Instr) {k n : Nat} (h : k + n ≤ 24) :
    (encode i).extractLsb' k n = i.operands.extractLsb' k n :=
  BitVec.extractLsb'_append_eq_of_add_le (xhi := i.opcode.toBits) h

section Halves

variable {i : Instr} {hi : BitVec 8} {lo : BitVec 16} (h : i.operands = hi ++ lo)
include h

theorem lowField_encode : lowField (encode i) = lo := by
  rw [lowField, extractLsb'_encode i (by decide), h]
  exact BitVec.extractLsb'_append_eq_right

/-- Bits 23:16 of a word are the high part of its operands. -/
theorem extractLsb'_encode_high {k n : Nat} (hk : 16 + k + n ≤ 24) :
    (encode i).extractLsb' (16 + k) n = hi.extractLsb' k n := by
  rw [extractLsb'_encode i hk, h]
  exact (BitVec.extractLsb'_append_eq_of_le (Nat.le_add_right 16 k)).trans (by rw [Nat.add_sub_cancel_left])

end Halves

/-- The parts of a `CLEAR` word: its reserved bits, and its mask. -/
theorem clear_encode (mask : BitVec 5) :
    (encode (.clear mask)).extractLsb' 5 19 = 0#19 ∧ maskField (encode (.clear mask)) = mask :=
  ⟨(extractLsb'_encode _ (by decide)).trans (BitVec.extractLsb'_append_eq_left (a := 0#19) (b := mask)),
    (extractLsb'_encode _ (by decide)).trans (BitVec.extractLsb'_append_eq_right (a := 0#19) (b := mask))⟩

/-- The parts of a `PUTBITS` word above its value: its reserved bits, and its bit count. -/
theorem putbits_encode (n : BitVec 5) (v : BitVec 16) :
    (encode (.putbits n v)).extractLsb' 21 3 = 0#3 ∧ nField (encode (.putbits n v)) = n :=
  ⟨(extractLsb'_encode_high (hi := 0#3 ++ n) (lo := v) rfl (k := 5) (by decide)).trans BitVec.extractLsb'_append_eq_left,
    (extractLsb'_encode_high (hi := 0#3 ++ n) (lo := v) rfl (k := 0) (by decide)).trans
      BitVec.extractLsb'_append_eq_right⟩

/-- The encoder leaves the reserved bits of the command's format 0. -/
theorem reservedClear_encode (i : Instr) : reservedClear i.opcode.format (encode i) = true := by
  cases i with
  | clear mask => exact beq_iff_eq.2 (clear_encode mask).1
  | count sym =>
    exact beq_iff_eq.2 (extractLsb'_encode_high (hi := 0#8) (lo := sym) rfl (k := 0) (by decide))
  | enc sym =>
    exact beq_iff_eq.2 (extractLsb'_encode_high (hi := 0#8) (lo := sym) rfl (k := 0) (by decide))
  | putbits n v => exact beq_iff_eq.2 (putbits_encode n v).1
  | loadcode len sym => rfl
  | _ => rfl

/-- No bit of an operand is dropped (30_encoding R97). -/
theorem instrOf_encode (i : Instr) : instrOf i.opcode (encode i) = i := by
  cases i with
  | clear mask => exact congrArg Instr.clear (clear_encode mask).2
  | count sym => exact congrArg Instr.count (lowField_encode (hi := 0#8) rfl)
  | enc sym => exact congrArg Instr.enc (lowField_encode (hi := 0#8) rfl)
  | loadcode len sym =>
    have hlen : lenField (encode (.loadcode len sym)) = len :=
      (extractLsb'_encode_high (hi := len) (lo := sym) rfl (k := 0) (by decide)).trans BitVec.extractLsb'_eq_self
    exact congrArg₂ Instr.loadcode hlen (lowField_encode (hi := len) rfl)
  | putbits n v =>
    exact congrArg₂ Instr.putbits (putbits_encode n v).2 (lowField_encode (hi := 0#3 ++ n) (lo := v) rfl)
  | _ => rfl

/-- A symbol in range passes the operand checks of its formats. -/
theorem operandIllegal_symbol {c : Config} {f : Format} {w : Word} (hf : f ≠ .B) (h : (lowField w).toNat < c.nsym) :
    operandIllegal c f w = none := by
  simp [operandIllegal, hf, h]

/-- The operand checks of an encoded command are the conditions on its operands (30_encoding R98, R99). -/
theorem operandIllegal_encode {c : Config} {i : Instr} (h : WellFormed c i) :
    operandIllegal c i.opcode.format (encode i) = none := by
  have symbol : ∀ {hi : BitVec 8} {sym : BitVec 16}, i.opcode.format ≠ .B → i.operands = hi ++ sym →
      decide (sym.toNat < c.nsym) = true → operandIllegal c i.opcode.format (encode i) = none := fun hf hi hsym =>
    operandIllegal_symbol hf (by rw [lowField_encode hi]; exact of_decide_eq_true hsym)
  cases i with
  | count sym => exact symbol (hi := 0#8) nofun rfl h
  | enc sym => exact symbol (hi := 0#8) nofun rfl h
  | loadcode len sym => exact symbol (hi := len) nofun rfl h
  | putbits n v =>
    have hlow := lowField_encode (i := .putbits n v) (hi := 0#3 ++ n) (lo := v) rfl
    obtain ⟨hn, hv⟩ : n.toNat ≤ 16 ∧ v.toNat < 2 ^ n.toNat := by simpa [WellFormed, Instr.wellFormed] using h
    simp [operandIllegal, Instr.opcode, Opcode.format, hlow, (putbits_encode n v).2, Nat.not_lt.2 hn, Nat.not_le.2 hv]
  | _ => rfl

/-- A word of a legal opcode, with its reserved bits 0 and its operand checks passed, decodes to that opcode's command. -/
theorem decode_of_checks {c : Config} {w : Word} {o : Opcode} (ho : o.toBits = opcField w)
    (hr : reservedClear o.format w = true) (hop : operandIllegal c o.format w = none) :
    decode c w = .ok (instrOf o w) := by
  rw [decode, ← ho, Opcode.ofBits_toBits]
  simp [hr, hop]

/-- Settles O2: the encoder's word passes every check, and its fields are the operands. -/
theorem encodeThenDecodeIsIdentity : Obligations.EncodeThenDecodeIsIdentity := by
  intro c i h
  rw [decode_of_checks (opcField_encode i).symm (reservedClear_encode i) (operandIllegal_encode h), instrOf_encode]

/-! The command of a word (30_encoding R100). -/

theorem opcode_instrOf (o : Opcode) (w : Word) : (instrOf o w).opcode = o := by cases o <;> rfl

/-- With its reserved bits 0, a word's operand part is its command's operands. -/
theorem operands_instrOf {o : Opcode} {w : Word} (h : reservedClear o.format w = true) :
    (instrOf o w).operands = w.extractLsb' 0 24 := by
  have halves : w.extractLsb' 16 8 ++ lowField w = w.extractLsb' 0 24 :=
    BitVec.extractLsb'_append_extractLsb'_eq_extractLsb' rfl
  cases o with
  | clear =>
    have hm : w.extractLsb' 5 19 ++ maskField w = w.extractLsb' 0 24 :=
      BitVec.extractLsb'_append_extractLsb'_eq_extractLsb' rfl
    rw [beq_iff_eq.1 h] at hm
    exact hm
  | count => rw [beq_iff_eq.1 h] at halves; exact halves
  | enc => rw [beq_iff_eq.1 h] at halves; exact halves
  | loadcode => exact halves
  | putbits =>
    have hn : w.extractLsb' 21 3 ++ nField w = w.extractLsb' 16 8 :=
      BitVec.extractLsb'_append_extractLsb'_eq_extractLsb' rfl
    rw [← hn, beq_iff_eq.1 h] at halves
    exact halves
  | _ => exact (beq_iff_eq.1 h).symm

/-- Settles O3: opcode and operands of the command are the two parts of the word. -/
theorem decodeThenEncodeIsIdentity : Obligations.DecodeThenEncodeIsIdentity := by
  intro c w i h
  refine ⟨?_, wellFormed_of_decode h⟩
  obtain ⟨o, ho, hr, -, rfl⟩ := decode_ok h
  rw [encode, opcode_instrOf, operands_instrOf hr, ho]
  exact BitVec.extractLsb'_append_extractLsb'

/-! The fields as numbers. -/

theorem toNat_opcField (w : Word) : (opcField w).toNat = w.toNat / 2 ^ 24 := by
  rw [opcField, BitVec.extractLsb'_toNat, Nat.shiftRight_eq_div_pow]
  exact Nat.mod_eq_of_lt (Nat.div_lt_of_lt_mul w.isLt)

theorem toNat_lowField (w : Word) : (lowField w).toNat = w.toNat % 2 ^ 16 := BitVec.extractLsb'_toNat 0 16 w

theorem toNat_nField (w : Word) : (nField w).toNat = w.toNat / 2 ^ 16 % 2 ^ 5 := by
  rw [nField, BitVec.extractLsb'_toNat, Nat.shiftRight_eq_div_pow]

/-! The match and mask table (30_encoding R98). -/

/-- The mask of a format on bits 23:0: its reserved bits. -/
def formatMask : Format → BitVec 24
  | .N => 0xFFFFFF#24
  | .C => 0xFFFFE0#24
  | .S => 0xFF0000#24
  | .L => 0#24
  | .B => 0xE00000#24

/-- The operand conditions of a format on the word's number. -/
def formatCondition : Format → Config → Nat → Bool
  | .N => fun _ _ => true
  | .C => fun _ _ => true
  | .S => fun c n => decide (n % 2 ^ 16 < c.nsym)
  | .L => fun c n => decide (n % 2 ^ 16 < c.nsym)
  | .B => fun _ n => decide (n / 2 ^ 16 % 2 ^ 5 ≤ 16) && decide (n % 2 ^ 16 < 2 ^ (n / 2 ^ 16 % 2 ^ 5))

/-- The row of an opcode: its byte under the full opcode mask, and its format's reserved bits and conditions. -/
def tableRow (o : Opcode) : Word × Word × (Config → Nat → Bool) :=
  ((o.toBits ++ 0#24 : BitVec (8 + 24)), (BitVec.allOnes 8 ++ formatMask o.format : BitVec (8 + 24)),
    formatCondition o.format)

theorem table_eq : table = Opcode.all.map tableRow := rfl

theorem Opcode.mem_all (o : Opcode) : o ∈ Opcode.all := by cases o <;> decide

/-- A mask with all its high bits compares them, and its low part the rest. -/
theorem and_allOnes_append {m n : Nat} (hi c : BitVec m) (lo mask : BitVec n) :
    (hi ++ lo) &&& (BitVec.allOnes m ++ mask) = c ++ 0#n ↔ hi = c ∧ lo &&& mask = 0#n := by
  rw [BitVec.and_append, BitVec.and_allOnes]
  refine ⟨fun h => ⟨?_, ?_⟩, fun ⟨h1, h2⟩ => by rw [h1, h2]⟩
  · simpa only [BitVec.extractLsb'_append_eq_left] using congrArg (BitVec.extractLsb' n m) h
  · simpa only [BitVec.extractLsb'_append_eq_right] using congrArg (BitVec.extractLsb' 0 n) h

/-- A format's mask finds its reserved bits (30_encoding R92 to R96). -/
theorem reservedClear_iff_mask (f : Format) (w : Word) :
    reservedClear f w = true ↔ w.extractLsb' 0 24 &&& formatMask f = 0#24 := by
  have masked : ∀ k n, (w.extractLsb' 0 (n + k) &&& (BitVec.allOnes n ++ 0#k) = 0#n ++ 0#k) ↔
      w.extractLsb' k n = 0#n := by
    intro k n
    rw [← BitVec.extractLsb'_append_extractLsb'_eq_extractLsb' (Nat.zero_add k).symm, and_allOnes_append]
    simp
  cases f with
  | N => exact beq_iff_eq.trans (masked 0 24).symm
  | C => exact beq_iff_eq.trans (masked 5 19).symm
  | S => exact beq_iff_eq.trans (masked 16 8).symm
  | L => simp [reservedClear, formatMask]
  | B => exact beq_iff_eq.trans (masked 21 3).symm

/-- The operand checks pass where the row's conditions hold. -/
theorem operandIllegal_iff_condition (c : Config) (f : Format) (w : Word) :
    operandIllegal c f w = none ↔ formatCondition f c w.toNat = true := by
  cases f with
  | B =>
    simp only [operandIllegal, formatCondition, toNat_lowField, toNat_nField, reduceCtorEq, or_self, false_and, if_false,
      true_and, Bool.and_eq_true, decide_eq_true_eq]
    generalize w.toNat / 2 ^ 16 % 2 ^ 5 = n, w.toNat % 2 ^ 16 = v
    split_ifs <;> simp <;> omega
  | _ => simp [operandIllegal, formatCondition, toNat_lowField]

/-- Settles O4: a row asks for an opcode and for the checks of its format. -/
theorem legalWordsAreTheTableRows : Obligations.LegalWordsAreTheTableRows := by
  intro c w
  have meets : ∀ o, w &&& (tableRow o).2.1 = (tableRow o).1 ↔
      opcField w = o.toBits ∧ reservedClear o.format w = true := fun o => by
    rw [reservedClear_iff_mask, ← and_allOnes_append]
    exact Iff.of_eq (congrArg (fun v => v &&& _ = _) (BitVec.extractLsb'_append_extractLsb' (w := 8) (len := 24)).symm)
  rw [table_eq]
  constructor
  · rintro ⟨i, h⟩
    obtain ⟨o, ho, hr, hop, -⟩ := decode_ok h
    exact ⟨tableRow o, List.mem_map_of_mem (Opcode.mem_all o), (meets o).2 ⟨ho.symm, hr⟩,
      (operandIllegal_iff_condition ..).1 hop⟩
  · rintro ⟨row, hrow, hmatch, hcond⟩
    obtain ⟨o, -, rfl⟩ := List.mem_map.1 hrow
    obtain ⟨ho, hr⟩ := (meets o).1 hmatch
    exact ⟨_, decode_of_checks ho.symm hr ((operandIllegal_iff_condition ..).2 hcond)⟩

/-! `Legal(w)` (30_encoding R99). -/

/-- The reserved part of a word of a legal opcode is 0 where the decoder finds its reserved bits clear. -/
theorem reservedPart_eq_zero (o : Opcode) (w : Word) :
    reservedPart o.toBits.toNat w.toNat = 0 ↔ reservedClear o.format w = true := by
  have part : ∀ k n, w.toNat / 2 ^ k % 2 ^ n = 0 ↔ (w.extractLsb' k n == 0#n) = true := fun k n => by
    rw [beq_iff_eq, ← BitVec.toNat_inj, BitVec.extractLsb'_toNat, Nat.shiftRight_eq_div_pow, BitVec.toNat_zero]
  have whole : w.toNat % 2 ^ 24 = 0 ↔ (w.extractLsb' 0 24 == 0#24) = true := by
    have := part 0 24
    rwa [pow_zero, Nat.div_one] at this
  cases o with
  | clear => exact part 5 19
  | count => exact part 16 8
  | enc => exact part 16 8
  | putbits => exact part 21 3
  | loadcode => exact ⟨fun _ => rfl, fun _ => rfl⟩
  | _ => exact whole

/-- The numbers of the table's opcodes (30_encoding R98). -/
theorem mem_opcodes_iff (n : Nat) :
    n ∈ [0x00, 0x01, 0x10, 0x20, 0x21, 0x22, 0x30, 0x31, 0x40, 0x41, 0x42, 0x43, 0x50, 0x51] ↔
      ∃ o : Opcode, o.toBits.toNat = n := by
  have hlist : [0x00, 0x01, 0x10, 0x20, 0x21, 0x22, 0x30, 0x31, 0x40, 0x41, 0x42, 0x43, 0x50, 0x51] =
      Opcode.all.map (fun o => o.toBits.toNat) := rfl
  rw [hlist, List.mem_map]
  exact ⟨fun ⟨o, _, h⟩ => ⟨o, h⟩, fun ⟨o, h⟩ => ⟨o, Opcode.mem_all o, h⟩⟩

/-- The number the operand checks give, after the first two. -/
theorem operandPart_eq (c : Config) (o : Opcode) (w : Word) :
    (if o.toBits.toNat ∈ [0x10, 0x31, 0x40] ∧ c.nsym ≤ w.toNat % 2 ^ 16 then 3
      else if o.toBits.toNat = 0x41 ∧ 16 < w.toNat / 2 ^ 16 % 2 ^ 5 then 4
      else if o.toBits.toNat = 0x41 ∧ 2 ^ (w.toNat / 2 ^ 16 % 2 ^ 5) ≤ w.toNat % 2 ^ 16 then 5
      else 0) = ((operandIllegal c o.format w).map Illegal.subcode).getD 0 := by
  have hsym : o.toBits.toNat ∈ [0x10, 0x31, 0x40] ↔ o.format = .S ∨ o.format = .L := by cases o <;> decide
  have hraw : o.toBits.toNat = 0x41 ↔ o.format = .B := by cases o <;> decide
  simp only [operandIllegal, hsym, hraw, toNat_lowField, toNat_nField]
  split_ifs <;> rfl

theorem legality_reservedOpcode (c : Config) {w : Word} (h : Opcode.ofBits (opcField w) = none) :
    legality c w.toNat = 1 := by
  unfold legality
  rw [← toNat_opcField]
  refine if_pos fun hmem => ?_
  obtain ⟨o, ho⟩ := (mem_opcodes_iff _).1 hmem
  rw [← BitVec.toNat_inj.1 ho, Opcode.ofBits_toBits] at h
  cases h

/-- Past the opcode, the reserved bits come first and the operand checks last. -/
theorem legality_opcode (c : Config) {w : Word} {o : Opcode} (h : o.toBits = opcField w) :
    legality c w.toNat =
      if reservedClear o.format w then ((operandIllegal c o.format w).map Illegal.subcode).getD 0 else 2 := by
  unfold legality
  rw [← toNat_opcField, ← h]
  refine (if_neg (not_not.2 ((mem_opcodes_iff _).2 ⟨o, rfl⟩))).trans ?_
  rw [operandPart_eq, ite_not]
  exact if_congr (reservedPart_eq_zero o w) rfl rfl

/-- Settles O5: the checks of the number are those of the decoder, in its order. -/
theorem firstFailingCheckDecidesSubcode : Obligations.FirstFailingCheckDecidesSubcode := by
  intro c w
  cases ho : Opcode.ofBits (opcField w) with
  | none => exact .inr ⟨.reservedOpcode, by rw [decode, ho], (legality_reservedOpcode c ho).symm⟩
  | some o =>
    have hlegal := legality_opcode c (Opcode.toBits_of_ofBits ho)
    cases hr : reservedClear o.format w with
    | false => exact .inr ⟨.reservedBits, by simp [decode, ho, hr], by simp [hlegal, hr, Illegal.subcode]⟩
    | true =>
      cases hop : operandIllegal c o.format w with
      | none =>
        exact .inl ⟨_, decode_of_checks (Opcode.toBits_of_ofBits ho) hr hop, by simp [hlegal, hr, hop]⟩
      | some e => exact .inr ⟨e, by simp [decode, ho, hr, hop], by simp [hlegal, hr, hop]⟩

/-! Illegal words. -/

/-- With no error recorded, an illegal word raises `IllegalCommand` (44_control R190, 30_encoding R99). -/
theorem execute_illegal {w : Word} {s : State} {e : Illegal} (h : s.err.code = .none) (hd : decode s.cfg w = .error e) :
    execute w s = .next (raiseIllegal w e s) := by
  rw [execute, if_neg (by simp [gated, State.errored, h]), hd]

/-- Settles O8: the word is not ignored, and what it raises carries the word and its opcode byte. -/
theorem illegalWordRaisesIllegalCommand : Obligations.IllegalWordRaisesIllegalCommand := by
  intro s rest w hhost herr hillegal
  rcases firstFailingCheckDecidesSubcode s.cfg w with ⟨i, -, hl⟩ | ⟨e, hd, hl⟩
  · exact absurd hl hillegal
  have hopc : BitVec.ofNat 8 (w.toNat / 2 ^ 24) = opcField w := by
    rw [← toNat_opcField, BitVec.ofNat_toNat, BitVec.setWidth_eq]
  rw [step_of_command hhost, execute_illegal (s := { s with host := rest, reply := .silent }) herr hd, hopc, ← hl]
  simp [raiseIllegal, raiseError, stageRecorded]

/-- Settles O1: the decoder reads each of the written-out words. -/
theorem wordsOfTheSpecDecode : Obligations.WordsOfTheSpecDecode := by
  unfold Obligations.WordsOfTheSpecDecode
  decide

end Sys2Proof.Machine
end

section
/-! The round trip of a text (43_unpack_decode R174): counting and coding it, packing it, and the way back. -/

namespace Sys2Proof.Machine

open Sys2Proof.Claims

/-! Commands in a row. -/

theorem run_cons {i : Instr} {is : List Instr} {s t : State} (h : exec i s = .next t) : run (i :: is) s = run is t := by
  rw [run, h]

/-- A run goes on from where its beginning ended. -/
theorem run_append {is js : List Instr} {s t : State} (h : run is s = .next t) : run (is ++ js) s = run js t := by
  induction is generalizing s with
  | nil => cases h; rfl
  | cons i is ih =>
    cases he : exec i s with
    | next u => rw [run_cons he] at h; rw [List.cons_append, run_cons he, ih h]
    | fault f => rw [run, he] at h; cases h
    | refused r => rw [run, he] at h; cases h

theorem exec_of_bodyOf {i : Instr} {s t : State} (hi : i ≠ .decode) (h : bodyOf i s = .ok t) : exec i s = .next t := by
  rw [exec_eq_finish s hi, h, finish_ok]

/-- Well-formed commands keep 10_state R67. -/
theorem run_sound {is : List Instr} {s t : State} (hw : ∀ i ∈ is, WellFormed s.cfg i) (h : s.Sound)
    (hr : run is s = .next t) : t.Sound := by
  induction is generalizing s with
  | nil => cases hr; exact h
  | cons i is ih =>
    obtain ⟨u, hu, hsound⟩ := exec_sound (hw i List.mem_cons_self) h
    rw [run_cons hu] at hr
    obtain ⟨hcfg, -⟩ := commandsKeepHostRegisters i s u hu
    exact ih (fun j hj => hcfg ▸ hw j (List.mem_cons_of_mem _ hj)) hsound hr

/-! Counting (40_tree_builder R111). -/

theorem OnlyCounts.trans {s t u : State} (h1 : OnlyCounts s t) (h2 : OnlyCounts t u) : OnlyCounts s u := by
  unfold OnlyCounts at *
  rw [h2, h1]

/-- `COUNT` below `COUNT_MAX` counts one occurrence. -/
theorem countBody_idle {sym : Nat} {s : State} (hi : s.tbState = .idle) (hfull : s.total < s.cfg.countMax) :
    ∃ t, countBody sym s = .ok t ∧ t.total = s.total + 1 ∧
      ∀ x, t.freqOf x = s.freqOf x + if x = sym then 1 else 0 := by
  refine ⟨_, (if_neg (not_not.2 hi)).trans (if_neg hfull.ne), rfl, fun x => ?_⟩
  by_cases hx : x = sym
  · simp [State.freqOf, hx]
  · simp [State.freqOf, hx]

/-- `COUNT` of each symbol of a text that fits adds the text's occurrences to the counts. -/
theorem run_counts (text : List (BitVec 16)) {s : State} (hi : s.tbState = .idle)
    (hfit : s.total + text.length ≤ s.cfg.countMax) :
    ∃ t, run (text.map .count) s = .next t ∧ OnlyCounts s t ∧
      ∀ x, t.freqOf x = s.freqOf x + (text.map BitVec.toNat).count x := by
  induction text generalizing s with
  | nil => exact ⟨s, rfl, rfl, fun _ => rfl⟩
  | cons sym text ih =>
    rw [List.length_cons] at hfit
    obtain ⟨u, hu, htotal, hcount⟩ := countBody_idle (sym := sym.toNat) hi (by omega)
    have hframe : OnlyCounts s u := bodyOf_frame (i := .count sym) nofun hu
    have hcfg : u.cfg = s.cfg := by rw [hframe]
    have hidle : u.tbState = .idle := by rw [hframe]; exact hi
    obtain ⟨t, ht, hrest, hcounts⟩ := ih hidle (by rw [htotal, hcfg]; omega)
    refine ⟨t, (run_cons (exec_of_bodyOf (i := .count sym) nofun hu)).trans ht, OnlyCounts.trans hframe hrest,
      fun x => ?_⟩
    rw [hcounts, hcount, List.map_cons, List.count_cons]
    simp only [beq_iff_eq, eq_comm (a := sym.toNat)]
    omega

/-! The code table of a counted text (40_tree_builder R114, 41_code_table R133). -/

theorem leaves_ne_zero {s : State} (h : s.CountsAdd) {x : Nat} (hx : s.freqOf x ≠ 0) : s.leaves ≠ 0 := by
  obtain ⟨-, -, hleaves⟩ := h
  rw [hleaves]
  intro h0
  rw [State.freqOf, List.length_eq_zero_iff.1 h0] at hx
  exact hx rfl

/-- `BUILD` of a sound counter with a leaf runs to its end. -/
theorem buildBody_idle {s : State} (h : s.CounterWhole) (hi : s.tbState = .idle) (hl : s.leaves ≠ 0) :
    ∃ t, buildBody s = .ok t := by
  have hwhole : s.treeInit.TreeWhole := (initTree_endsIn h).of_ok (initTree_eq hl)
  obtain ⟨t, ht, -⟩ := mergeAll_whole hwhole le_rfl
  refine ⟨t, ?_⟩
  rw [buildBody, if_neg (by simp [hi]), if_pos hi, initTree_eq hl, ok_bind, ht]

/-- `ASSIGN` of a whole tree gives every counted symbol a code. -/
theorem assignBody_covers {s : State} (h : s.Sound) (hdone : s.tbState = .done) (hempty : s.ctState = .empty) :
    ∃ t, assignBody s = .ok t ∧ t.ctState = .tree ∧ ∀ x, s.freqOf x ≠ 0 → t.codeOf x ≠ [] := by
  obtain ⟨-, hc, htree, htable, -⟩ := sound_iff.1 h
  obtain ⟨codes, hbody, hperm, hkeys, -, -, hlen⟩ :=
    assignBody_codes hc htree.1 (htable.1.2.2.1 hempty) hdone hempty
  refine ⟨_, hbody, rfl, fun x hx => ?_⟩
  have hlisted : x ∈ s.freq.map Prod.fst := by
    by_contra hno
    exact hx (by rw [State.freqOf, Cells.get_eq_none.2 hno, Option.getD_none])
  obtain ⟨p, hp, rfl⟩ := List.mem_map.1 (hkeys.symm.subset hlisted)
  have hcode : (Cells.get (enterCodes codes []) p.1) = some p.2 :=
    Cells.get_of_mem (rising_enterCodes codes Cells.rising_nil) (hperm.symm.subset hp)
  obtain ⟨hpos, -⟩ := hlen p hp
  show (Cells.get (enterCodes codes []) p.1).getD [] ≠ []
  rw [hcode, Option.getD_some]
  exact List.length_pos_iff.1 hpos

/-- What packing a text begins with: no error recorded, an empty packer, and a code for each symbol of the text. -/
structure ReadyToEncode (text : List (BitVec 16)) (s : State) : Prop where
  sound : s.Sound
  noError : s.err = ErrRecord.clear
  opened : s.pkState = .opened
  outLen : s.outLen = 1
  bitcnt : s.bitcnt = 0
  accN : s.accN = 0
  table : s.ctState ≠ .empty
  codes : ∀ x ∈ text, s.codeOf x.toNat ≠ []

/-- What counting, `BUILD` and `ASSIGN` leave of what `CLEAR` set for packing. -/
def State.packerStart (s : State) : Config × ErrRecord × PkState × Nat × Nat × Nat :=
  (s.cfg, s.err, s.pkState, s.outLen, s.bitcnt, s.accN)

/-- From any sound state, `CLEAR`, the `COUNT`s of a text that fits, `BUILD` and `ASSIGN` make a code table for it. -/
theorem run_makesTable {s : State} {text : List (BitVec 16)} (h : s.Sound) (hne : text ≠ [])
    (hsyms : ∀ x ∈ text, x.toNat < s.cfg.nsym) (hfit : text.length ≤ s.cfg.countMax) :
    ∃ a, run (.clear 0x1F#5 :: (text.map .count ++ [.build, .assign])) s = .next a ∧ a.cfg = s.cfg ∧
      ReadyToEncode text a := by
  have hclear : exec (.clear 0x1F#5) s = .next (clearedState 0x1F#5 s) := rfl
  have hc : (clearedState 0x1F#5 s).Sound := clearedState_sound _ h
  obtain ⟨t, ht, hcounts, hfreq⟩ := run_counts text (s := clearedState 0x1F#5 s) rfl (by
    show 0 + text.length ≤ s.cfg.countMax
    omega)
  have hcounted : ∀ x ∈ text, t.freqOf x.toNat ≠ 0 := fun x hx => by
    have := List.count_pos_iff.2 (List.mem_map_of_mem (f := BitVec.toNat) hx)
    rw [hfreq]
    omega
  have htsound : t.Sound := run_sound (fun i hi => by
    obtain ⟨x, hx, rfl⟩ := List.mem_map.1 hi
    exact decide_eq_true (hsyms x hx)) hc ht
  obtain ⟨x, hx⟩ := List.exists_mem_of_ne_nil text hne
  have hidle : t.tbState = .idle := congrArg State.tbState hcounts
  obtain ⟨b, hb⟩ := buildBody_idle (sound_iff.1 htsound).2.1 hidle (leaves_ne_zero htsound.counts (hcounted x hx))
  have hbsound : b.Sound := (bodyOf_sound (i := .build) nofun rfl htsound).of_ok hb
  have hbuild : OnlyTree t b := buildBody_only hb
  have hempty : b.ctState = .empty := (congrArg State.ctState hbuild).trans (congrArg State.ctState hcounts)
  obtain ⟨a, ha, htree, hcodes⟩ := assignBody_covers hbsound (buildBody_done hb) hempty
  have hassign : OnlyTable b a := bodyOf_frame (i := .assign) nofun ha
  have hstart : a.packerStart = (s.cfg, ErrRecord.clear, .opened, 1, 0, 0) := by rw [hassign, hbuild, hcounts]; rfl
  simp only [State.packerStart, Prod.mk.injEq] at hstart
  obtain ⟨hcfg, herr, hopened, hout, hbits, hacc⟩ := hstart
  have hsame : b.freqOf = t.freqOf := by rw [hbuild]; rfl
  refine ⟨a, ?_, hcfg, (bodyOf_sound (i := .assign) nofun rfl hbsound).of_ok ha, herr, hopened, hout, hbits, hacc,
    by simp [htree], fun x hx => hcodes _ (hsame ▸ hcounted x hx)⟩
  rw [run_cons hclear, run_append ht, run_cons (exec_of_bodyOf (i := .build) nofun hb),
    run_cons (exec_of_bodyOf (i := .assign) nofun ha), run]

/-! Packing (42_encode_pack R152). -/

/-- `ENC` of each symbol of a text whose codes fit appends the codes. -/
theorem run_encs (text : List (BitVec 16)) {s : State} (hp : s.PackerSound) (ho : s.pkState = .opened)
    (hct : s.ctState ≠ .empty) (hcodes : ∀ x ∈ text, s.codeOf x.toNat ≠ [])
    (hfit : 1 + (s.bitcnt + (text.flatMap (fun x => s.codeOf x.toNat)).length + 7) / 8 ≤ s.cfg.outCap) :
    ∃ t, run (text.map .enc) s = .next t ∧ SameButPacker s t ∧ t.PackerSound ∧
      Appends s (text.flatMap (fun x => s.codeOf x.toNat)) t := by
  induction text generalizing s with
  | nil => exact ⟨s, rfl, rfl, hp, Appends.refl s⟩
  | cons x text ih =>
    rw [List.flatMap_cons, List.length_append] at hfit
    obtain ⟨u, hu, hpu, happ⟩ := appendBits_appends (x := s.codeOf x.toNat) hp ho (by omega)
    have hframe := appendBits_same hu
    have hbody : encBody x.toNat s = .ok u := by
      rw [encBody_code hct ho (hcodes x List.mem_cons_self), appendChecked_fits (by omega), hu]
    have hcode : u.codeOf = s.codeOf := by rw [hframe]; rfl
    have hcfg : u.cfg = s.cfg := by rw [hframe]
    obtain ⟨t, ht, hrest, hpt, happs⟩ := ih hpu (by rw [hframe]; exact ho) (by rw [hframe]; exact hct)
      (fun y hy => hcode ▸ hcodes y (List.mem_cons_of_mem _ hy)) (by rw [happ.bitcnt, hcode, hcfg]; omega)
    rw [hcode] at happs
    exact ⟨t, (run_cons (exec_of_bodyOf (i := .enc x) nofun hbody)).trans ht, hframe.trans hrest, hpt, happ.trans happs⟩

end Sys2Proof.Machine
end

section
/-! The way back of the packed bits: `FLUSH` pads them to a stream, `XFER` copies it, `UNPACK` reads its header
(42_encode_pack R155 to R157, 43_unpack_decode R172). -/

namespace Sys2Proof.Machine

open Sys2Proof.Claims

/-! The bits of a stream. -/

/-- The header byte is no part of the payload (20_memory R79). -/
theorem streamBits_congr_payload {s t : State} {n : Nat}
    (h : ∀ j, 1 ≤ j → j ≤ n → t.stored .outbuf j = s.stored .outbuf j) : streamBits t n = streamBits s n := by
  have hbyte : ∀ i ∈ List.range n, byteBits (t.stored .outbuf (1 + i)) = byteBits (s.stored .outbuf (1 + i)) :=
    fun i hi => by rw [h (1 + i) (by omega) (by have := List.mem_range.1 hi; omega)]
  simp only [streamBits, List.flatMap_def, List.map_congr_left hbyte]

theorem length_streamBits (s : State) (n : Nat) : (streamBits s n).length = 8 * n := by
  induction n with
  | zero => rfl
  | succ n ih => rw [streamBits_succ, List.length_append, ih, byteBits, List.length_map, List.length_range]; omega

/-- Payload bit `p` is bit `7 - p % 8` of byte `1 + p / 8` (20_memory R80). -/
theorem getElem?_streamBits {s : State} {n p : Nat} (h : p < 8 * n) :
    (streamBits s n)[p]? = some ((s.stored .outbuf (1 + p / 8)).getLsbD (7 - p % 8)) := by
  induction n with
  | zero => omega
  | succ n ih =>
    rw [streamBits_succ]
    by_cases hp : p < 8 * n
    · rw [List.getElem?_append_left (by rw [length_streamBits]; exact hp), ih hp]
    · have hq : p / 8 = n := by omega
      have hr : p - 8 * n = p % 8 := by omega
      rw [List.getElem?_append_right (by rw [length_streamBits]; omega), length_streamBits, hq, hr, byteBits,
        List.getElem?_map, List.getElem?_range (Nat.mod_lt p (by decide))]
      rfl

theorem length_packed {s : State} (h : s.PackerSound) (ho : s.pkState = .opened) : (packed s).length = s.bitcnt := by
  obtain ⟨-, hopen, -⟩ := h
  obtain ⟨haccN, -, hout⟩ := hopen ho
  rw [packed_eq, List.length_append, length_streamBits, length_bstr]
  omega

/-- Zeros below a value's bits. -/
theorem bstr_shift (v n k : Nat) : bstr (v * 2 ^ k) (n + k) = bstr v n ++ List.replicate k false := by
  induction k with
  | zero => simp
  | succ k ih =>
    have hv : v * 2 ^ (k + 1) = 2 * (v * 2 ^ k) + false.toNat := by rw [pow_succ, Bool.toNat_false]; ring
    rw [hv, ← Nat.add_assoc, bstr_append_bit, ih, List.append_assoc, List.replicate_succ']

/-! `FLUSH` (42_encode_pack R155). -/

/-- The pending bits, with zeros below them, make the byte after the last one packed. -/
theorem streamBits_of_lastByte {s u : State} {k : Nat} (hout : 1 ≤ s.outLen) (hk : s.accN + k = 8)
    (hbyte : ∀ j, u.stored .outbuf j =
      if j = s.outLen then BitVec.ofNat 8 (s.acc * 2 ^ k) else s.stored .outbuf j) :
    streamBits u s.outLen = packed s ++ List.replicate k false := by
  obtain ⟨n, hn⟩ := Nat.exists_eq_add_of_le hout
  have hlow : streamBits u n = streamBits s n := streamBits_congr fun j hj => by rw [hbyte, if_neg (by omega)]
  have hlast : byteBits (u.stored .outbuf (1 + n)) = bstr s.acc s.accN ++ List.replicate k false := by
    rw [hbyte, if_pos hn.symm, byteBits_ofNat, ← bstr_shift, hk]
  calc
    streamBits u s.outLen = streamBits u (n + 1) := by rw [hn, Nat.add_comm]
    _ = packed s ++ List.replicate k false := by
      rw [streamBits_succ, hlow, hlast, packed_eq, hn, Nat.add_sub_cancel_left, List.append_assoc]

/-- The last byte of `FLUSH` completes the packed bits with zeros. -/
theorem flushPending_streams {s : State} (h : s.PackerSound) (ho : s.pkState = .opened) :
    ∃ u, flushPending s = .ok u ∧ u = { s with outbuf := u.outbuf, outLen := u.outLen } ∧
      u.outLen = 1 + (s.bitcnt + 7) / 8 ∧
      streamBits u (u.outLen - 1) = packed s ++ List.replicate (padding s.bitcnt) false := by
  obtain ⟨hfit, hopen, -⟩ := h
  obtain ⟨haccN, -, hout⟩ := hopen ho
  rcases flushPending_cases s with ⟨h0, e⟩ | ⟨h0, -, e⟩ | ⟨h0, hfull, -⟩
  · have hpad : padding s.bitcnt = 0 := by rw [padding]; omega
    refine ⟨s, e, rfl, by omega, ?_⟩
    rw [packed_eq, h0, hpad, bstr, List.append_nil, List.replicate_zero, List.append_nil]
  · have hpad : s.accN + padding s.bitcnt = 8 := by rw [padding]; omega
    exact ⟨_, e, rfl, (show s.outLen + 1 = _ by omega), streamBits_of_lastByte (by omega) hpad fun j =>
      stored_withBuffer_set s .outbuf s.outLen j _⟩
  · omega

/-- `FLUSH` of a sound packer makes the whole stream: the header, the packed bits, the padding (42_encode_pack R157). -/
theorem flushBody_streams {s : State} (h : s.PackerSound) (ho : s.pkState = .opened) :
    ∃ t, flushBody s = .ok t ∧ t.pkState = .flushed ∧ t.outLen = 1 + (s.bitcnt + 7) / 8 ∧
      (t.stored .outbuf 0).toNat = padding s.bitcnt ∧
      streamBits t (t.outLen - 1) = packed s ++ List.replicate (padding s.bitcnt) false := by
  obtain ⟨u, hu, hframe, hout, hbits⟩ := flushPending_streams h ho
  have hcap : 0 < capacityOf u.cfg .outbuf := by
    rw [hframe]
    exact Nat.lt_of_lt_of_le (by omega) h.1
  have hstored := fun j => stored_withBuffer_set u .outbuf 0 j (BitVec.ofNat 8 (padding s.bitcnt))
  refine ⟨{ u with
    outbuf := Cells.set u.outbuf 0 (BitVec.ofNat 8 (padding s.bitcnt)), acc := 0, accN := 0, pkState := .flushed },
    ?_, rfl, hout, ?_, ?_⟩
  · rw [flushBody, if_neg (not_not.2 ho), hu, ok_bind, memWrite_ok _ hcap, ok_bind]
    rfl
  · refine (congrArg BitVec.toNat ((hstored 0).trans (if_pos rfl))).trans ?_
    rw [BitVec.toNat_ofNat, Nat.mod_eq_of_lt]
    exact (padding_lt s.bitcnt).trans (by decide)
  · rw [← hbits]
    exact streamBits_congr_payload fun j hj _ => (hstored j).trans (if_neg (Nat.ne_of_gt hj))

/-! `XFER` and `UNPACK` (42_encode_pack R156, 43_unpack_decode R172). -/

/-- `XFER` of a stream that fits `INBUF` copies it. -/
theorem xferBody_copies {s : State} (hf : s.pkState = .flushed) (ho : s.outLen ≤ s.cfg.outCap)
    (hi : s.outLen ≤ s.cfg.inCap) :
    ∃ t, xferBody s = .ok t ∧ t.inLen = s.outLen ∧ ∀ i < s.outLen, t.stored .inbuf i = s.stored .outbuf i := by
  obtain ⟨u, hu, -, hbytes⟩ := copyOut_ok ho hi
  refine ⟨{ u with inLen := s.outLen, upState := .idle }, ?_, rfl, fun i hlt => (hbytes i).trans (if_pos hlt)⟩
  rw [xferBody, if_neg (not_not.2 hf), if_neg (Nat.not_lt.2 hi), hu, ok_bind]

/-- The state of a decoder prepared for the payload of `INBUF`, without the padding its header gives. -/
def unpackedState (s : State) : State :=
  { s with
    decBits := 8 * (s.inLen - 1) - (s.stored .inbuf 0).toNat
    decPos := 0, decClen := 0, chunk := [], symoutLen := 0, upState := .ready }

/-- `UNPACK` of a header in range prepares the decoder. -/
theorem unpackBody_header {s : State} (h0 : s.inLen ≠ 0) (hcap : s.inLen ≤ s.cfg.inCap)
    (h7 : (s.stored .inbuf 0).toNat ≤ 7) (hpad : (s.stored .inbuf 0).toNat ≤ 8 * (s.inLen - 1)) :
    unpackBody s = .ok (unpackedState s) := by
  have hread : memRead .inbuf 0 s = .ok (s.stored .inbuf 0) :=
    memRead_ok (Nat.lt_of_lt_of_le (Nat.pos_of_ne_zero h0) hcap)
  rw [unpackBody, if_neg h0, hread, ok_bind]
  exact (if_neg (Nat.not_lt.2 h7)).trans (if_neg (Nat.not_lt.2 hpad))

/-- What the way back keeps: the parameters, the error record and the code table. -/
def State.coding (s : State) : Config × ErrRecord × Cells Bits × CtState := (s.cfg, s.err, s.ct, s.ctState)

/-- After `FLUSH`, `XFER` and `UNPACK` the decoder is prepared for the bits that were packed. -/
theorem run_loopBack {s : State} (h : s.PackerSound) (ho : s.pkState = .opened)
    (hin : 1 + (s.bitcnt + 7) / 8 ≤ s.cfg.inCap) :
    ∃ v, run [.flush, .xfer, .unpack] s = .next (unpackedState v) ∧ v.coding = s.coding ∧
      Ahead (unpackedState v) (packed s) := by
  obtain ⟨u, hu, hpk, hout, hheader, hbits⟩ := flushBody_streams h ho
  have huframe : OnlyPacker s u := flushBody_only hu
  have hucfg : u.cfg = s.cfg := by rw [huframe]
  obtain ⟨v, hv, hlen, hbytes⟩ := xferBody_copies hpk (by rw [hout, hucfg]; exact h.1) (by rw [hout, hucfg]; exact hin)
  have hvframe := xferBody_only hv
  have hcode : v.coding = s.coding := by rw [hvframe, huframe]; rfl
  have hvcfg : v.cfg = s.cfg := congrArg Prod.fst hcode
  have hpad : (v.stored .inbuf 0).toNat = padding s.bitcnt := by rw [hbytes 0 (by omega), hheader]
  have hlt := padding_lt s.bitcnt
  have hpadded : 8 * (v.inLen - 1) = s.bitcnt + padding s.bitcnt := by rw [hlen, hout, padding]; omega
  have hunpack := unpackBody_header (s := v) (by omega) (by rw [hlen, hout, hvcfg]; exact hin) (by omega) (by omega)
  refine ⟨v, ?_, hcode, ?_, fun p hp => ?_⟩
  · rw [run_cons (exec_of_bodyOf (i := .flush) nofun hu), run_cons (exec_of_bodyOf (i := .xfer) nofun hv),
      run_cons (exec_of_bodyOf (i := .unpack) nofun hunpack), run]
  · show _ = 8 * (v.inLen - 1) - (v.stored .inbuf 0).toNat
    rw [length_packed h ho]
    omega
  · rw [length_packed h ho] at hp
    have hbit := getElem?_streamBits (s := u) (n := u.outLen - 1) (p := p) (by omega)
    rw [hbits, List.getElem?_append_left (by rw [length_packed h ho]; exact hp)] at hbit
    rw [hbit, ← hbytes _ (by omega)]
    exact congrArg (fun q => some (payload (unpackedState v) q)) (Nat.zero_add p)

end Sys2Proof.Machine
end

section
/-! The whole round trip. -/

namespace Sys2Proof.Machine

open Sys2Proof.Claims

/-- A text for which the packer is ready, if its codes fit both buffers, is what the decoder is prepared for. -/
theorem run_packsText {a : State} {text : List (BitVec 16)} (h : ReadyToEncode text a)
    (hsyms : ∀ x ∈ text, x.toNat < a.cfg.nsym)
    (hout : 1 + ((text.flatMap (fun x => a.codeOf x.toNat)).length + 7) / 8 ≤ a.cfg.outCap)
    (hin : 1 + ((text.flatMap (fun x => a.codeOf x.toNat)).length + 7) / 8 ≤ a.cfg.inCap) :
    ∃ v, run (text.map .enc ++ [.flush, .xfer, .unpack]) a = .next (unpackedState v) ∧ v.coding = a.coding ∧
      (unpackedState v).Sound ∧ Ahead (unpackedState v) ((text.map BitVec.toNat).flatMap a.codeOf) := by
  obtain ⟨p, hp, hframe, hpsound, happ⟩ := run_encs text h.sound.packer h.opened h.table h.codes (by
    rw [h.bitcnt, Nat.zero_add]; exact hout)
  have hcode : p.coding = a.coding := by rw [hframe]; rfl
  have hcfg : p.cfg = a.cfg := congrArg Prod.fst hcode
  have hcnt : p.bitcnt = (text.flatMap (fun x => a.codeOf x.toNat)).length := by
    rw [happ.bitcnt, h.bitcnt, Nat.zero_add]
  have hpacked : packed p = (text.map BitVec.toNat).flatMap a.codeOf := by
    rw [happ.packed, packed_eq, h.outLen, h.accN, List.flatMap_map]
    rfl
  obtain ⟨v, hv, hvcode, hahead⟩ := run_loopBack hpsound (by rw [hframe]; exact h.opened) (by
    rw [hcnt, hcfg]; exact hin)
  have hrun := (run_append hp).trans hv
  refine ⟨v, hrun, hvcode.trans hcode, run_sound (fun i hi => ?_) h.sound hrun, hpacked ▸ hahead⟩
  rcases List.mem_append.1 hi with hi | hi
  · obtain ⟨x, hx, rfl⟩ := List.mem_map.1 hi
    exact decide_eq_true (hsyms x hx)
  · simp only [List.mem_cons, List.not_mem_nil, or_false] at hi
    rcases hi with rfl | rfl | rfl <;> rfl

/-- `DECODE` of the codes of a text gives the text back (43_unpack_decode R173). -/
theorem exec_decode_text {s : State} {text : List (BitVec 16)} (h : s.Sound) (hready : s.upState = .ready)
    (htable : s.ctState ≠ .empty) (hchunk : s.chunk = []) (hlen : s.symoutLen = 0)
    (hsyms : ∀ x ∈ text, x.toNat < s.cfg.nsym) (hroom : text.length ≤ s.cfg.symoutCap)
    (hcodes : ∀ x ∈ text, s.codeOf x.toNat ≠ []) (ha : Ahead s ((text.map BitVec.toNat).flatMap s.codeOf)) :
    ∃ t, exec .decode s = .next t ∧ t.err = s.err ∧ t.symoutLen = text.length ∧
      ∀ j x, text[j]? = some x → (t.stored .symout j).toNat = x.toNat := by
  have hclen : s.decClen = 0 := by
    obtain ⟨hlen, -⟩ := h.decoder
    rw [← hlen, hchunk, List.length_nil]
  have hne : ∀ x ∈ text.map BitVec.toNat, s.codeOf x ≠ [] := fun x hx => by
    obtain ⟨y, hy, rfl⟩ := List.mem_map.1 hx
    exact hcodes y hy
  have hparses : Parses s _ (text.map BitVec.toNat) [] :=
    ⟨ha, by rw [hchunk, List.append_nil, List.nil_append], hne, fun x hx => by
      rw [hclen]
      exact List.length_pos_iff.2 (hne x (List.mem_of_mem_head? hx))⟩
  obtain ⟨t, ht, hframe, ⟨hemitted, hstored, -⟩, -⟩ := decodeRecoversTheSymbols s _ _ h hready htable hparses (by
    rw [List.length_map, hlen, Nat.zero_add]
    exact hroom)
  rw [hlen] at hemitted hstored
  refine ⟨t, ht, by rw [hframe], by rw [hemitted, Nat.zero_add, List.length_map], fun j x hx => ?_⟩
  have hbyte := hstored j x.toNat (by rw [List.getElem?_map, hx]; rfl)
  rw [Nat.zero_add] at hbyte
  rw [hbyte, BitVec.toNat_ofNat, Nat.mod_eq_of_lt]
  exact (hsyms x (List.mem_of_getElem? hx)).trans_le (nsym_le h.legal)

/-- The text comes back through the packer and the decoder. -/
theorem run_returnsText {a : State} {text : List (BitVec 16)} (h : ReadyToEncode text a)
    (hsyms : ∀ x ∈ text, x.toNat < a.cfg.nsym) (hroom : text.length ≤ a.cfg.symoutCap)
    (hout : 1 + ((text.flatMap (fun x => a.codeOf x.toNat)).length + 7) / 8 ≤ a.cfg.outCap)
    (hin : 1 + ((text.flatMap (fun x => a.codeOf x.toNat)).length + 7) / 8 ≤ a.cfg.inCap) :
    ∃ t, run (text.map .enc ++ [.flush, .xfer, .unpack, .decode]) a = .next t ∧ t.err = ErrRecord.clear ∧
      t.symoutLen = text.length ∧ ∀ j x, text[j]? = some x → (t.stored .symout j).toNat = x.toNat := by
  obtain ⟨v, hv, hcoding, hsound, hahead⟩ := run_packsText h hsyms hout hin
  simp only [State.coding, Prod.mk.injEq] at hcoding
  obtain ⟨hcfg, herr, hct, hctState⟩ := hcoding
  have hcode : (unpackedState v).codeOf = a.codeOf := by
    funext x
    exact congrArg (fun ct => (Cells.get ct x).getD []) hct
  rw [← hcode] at hahead
  rw [← hcfg] at hsyms hroom
  obtain ⟨t, ht, hterr, hlen, hstored⟩ := exec_decode_text hsound rfl (hctState ▸ h.table) rfl rfl hsyms hroom
    (fun x hx => hcode ▸ h.codes x hx) hahead
  have hsplit : text.map Instr.enc ++ [.flush, .xfer, .unpack, .decode] =
      (text.map .enc ++ [.flush, .xfer, .unpack]) ++ [.decode] := by rw [List.append_assoc]; rfl
  exact ⟨t, by rw [hsplit, run_append hv, run_cons ht, run], hterr.trans (herr.trans h.noError), hlen, hstored⟩

/-- Settles O60: `CLEAR` and the counts make a table for the text, and the text comes back through it. -/
theorem textsRoundTrip : Obligations.TextsRoundTrip := by
  intro s text h hne hsyms hfit hroom
  obtain ⟨a, ha, hcfg, hready⟩ := run_makesTable h hne hsyms hfit
  refine ⟨a, ha, hready.noError, fun hout hin => ?_⟩
  rw [← hcfg] at hsyms hroom hout hin
  exact run_returnsText hready hsyms hroom hout hin

end Sys2Proof.Machine
end

section
/-! The frequency counter and the tree builder, one command at a time (40_tree_builder R111 to R113). -/

namespace Sys2Proof.Machine

open Sys2Proof.Claims

/-! The bodies by phase. -/

theorem countBody_below {sym : Nat} {s : State} (hi : s.tbState = .idle) (hfull : s.total ≠ s.cfg.countMax) :
    countBody sym s = .ok { s with
      leaves := if s.freqOf sym = 0 then s.leaves + 1 else s.leaves
      freq := Cells.set s.freq sym (s.freqOf sym + 1)
      total := s.total + 1 } :=
  (if_neg (not_not.2 hi)).trans (if_neg hfull)

theorem countBody_full {sym : Nat} {s : State} (hi : s.tbState = .idle) (hfull : s.total = s.cfg.countMax) :
    countBody sym s = raising .countOverflow 0 sym (s.freqOf sym) :=
  (if_neg (not_not.2 hi)).trans (if_pos hfull)

theorem initTree_empty {s : State} (h : s.leaves = 0) : initTree s = raising .emptyAlphabet 0 0 0 := if_pos h

theorem tbinitBody_of_idle {s : State} (hi : s.tbState = .idle) : tbinitBody s = initTree s := if_neg (not_not.2 hi)

theorem mergeBody_of_loaded {s : State} (hl : s.tbState = .loaded) : mergeBody s = mergeOnce s := if_neg (not_not.2 hl)

theorem buildBody_of_idle {s : State} (hi : s.tbState = .idle) :
    buildBody s = (initTree s).bind fun t => mergeAll t.wl.length t := by
  simp [buildBody, hi]

theorem buildBody_of_loaded {s : State} (hl : s.tbState = .loaded) : buildBody s = mergeAll s.wl.length s := by
  simp [buildBody, hl]

/-- A body that raises leaves its error recorded, with its own opcode's stage (60_exceptions R205, R207). -/
theorem exec_raising {i : Instr} {s : State} {code : ErrCode} {sub a b : Nat} (hi : i ≠ .decode)
    (hc : code ≠ .illegalCommand) (h : bodyOf i s = raising code sub a b) :
    ∃ t, exec i s = .next t ∧ Records i (stageOf i.opcode) code sub a b s t :=
  ⟨_, by rw [exec_eq_finish s hi, h]; rfl, records_raiseError i hc sub a b s⟩

/-! `COUNT`, and the raises past the phase check. -/

/-- Settles O36: past the phase check, each body's next check raises. -/
theorem fullCounterAndEmptyAlphabetRaise : Obligations.FullCounterAndEmptyAlphabetRaise := by
  intro s hi
  refine ⟨fun sym hfull => exec_raising nofun (by decide) (countBody_full hi hfull), fun h0 i hmem => ?_⟩
  simp only [List.mem_cons, List.not_mem_nil, or_false] at hmem
  rcases hmem with rfl | rfl
  · exact exec_raising nofun (by decide) ((tbinitBody_of_idle hi).trans (initTree_empty h0))
  · have hbuild : buildBody s = raising .emptyAlphabet 0 0 0 := by
      rw [buildBody_of_idle hi, initTree_empty h0]
      rfl
    exact exec_raising nofun (by decide) hbuild

/-- Settles O35: `FREQ` is written at the symbol alone. -/
theorem countCountsOneOccurrence : Obligations.CountCountsOneOccurrence := by
  intro s sym _ hi hfull
  refine ⟨_, exec_of_bodyOf (i := .count sym) nofun (countBody_below hi hfull), rfl, fun x => ?_, rfl, rfl⟩
  simp only [State.freqOf, Cells.get_set]
  split
  · rename_i hx
    rw [hx, Option.getD_some]
  · rfl

/-! `TBINIT`. -/

/-- A listed count is its symbol's. -/
theorem freqOf_of_mem {s : State} (h : Cells.Rising s.freq) {p : Nat × Nat} (hp : p ∈ s.freq) : s.freqOf p.1 = p.2 := by
  rw [State.freqOf, Cells.get_of_mem h hp, Option.getD_some]

/-- The symbols `TBINIT` orders are those counted. -/
theorem mem_leafOrder_symbols {s : State} (hpos : ∀ p ∈ s.freq, 1 ≤ p.2) (x : Nat) :
    x ∈ s.leafOrder.map Prod.fst ↔ 1 ≤ s.freqOf x := by
  rw [((leafOrder_perm hpos).map Prod.fst).mem_iff, ← not_iff_not, ← Cells.get_eq_none, State.freqOf]
  cases hg : Cells.get s.freq x with
  | none => simp
  | some c => simpa using Nat.one_le_iff_ne_zero.1 (hpos _ (Cells.mem_of_get hg))

/-- `TBINIT` orders them ascending by (count, symbol), and lists each once (40_tree_builder R112). -/
theorem leafOrder_symbols_pairwise {s : State} (hrise : Cells.Rising s.freq) (hpos : ∀ p ∈ s.freq, 1 ≤ p.2) :
    (s.leafOrder.map Prod.fst).Pairwise fun x y => s.freqOf x < s.freqOf y ∨ (s.freqOf x = s.freqOf y ∧ x < y) := by
  have hperm := leafOrder_perm hpos
  have hdistinct : (s.leafOrder.map Prod.fst).Nodup :=
    (hperm.map Prod.fst).nodup_iff.2 (List.Pairwise.imp Nat.ne_of_lt hrise)
  rw [List.pairwise_map]
  refine ((sortLeaves_sorted _).and (List.pairwise_map.1 hdistinct)).imp_of_mem fun {p q} hp hq h => ?_
  obtain ⟨hbefore, hne⟩ := h
  rw [freqOf_of_mem hrise (hperm.subset hp), freqOf_of_mem hrise (hperm.subset hq)]
  exact ((leafBefore_iff p q).1 hbefore).imp id fun h => ⟨h.1, Nat.lt_of_le_of_ne h.2 hne⟩

/-- Settles O37: the symbols of the leaves are those of the sorted counts. -/
theorem tbinitLoadsSortedLeaves : Obligations.TbinitLoadsSortedLeaves := by
  rintro s ⟨⟨hrise, -, hpos⟩, -⟩ ⟨-, -, hleaves⟩ hi h0
  have hbody : tbinitBody s = .ok s.treeInit := (tbinitBody_of_idle hi).trans (initTree_eq h0)
  refine ⟨s.treeInit, s.leafOrder.map Prod.fst, exec_of_bodyOf (i := .tbinit) nofun hbody, rfl,
    by rw [List.length_map, length_leafOrder hpos hleaves], mem_leafOrder_symbols hpos,
    leafOrder_symbols_pairwise hrise hpos, fun i x hx => ?_, rfl, rfl, rfl, rfl⟩
  rw [List.getElem?_map] at hx
  obtain ⟨p, hp, rfl⟩ := Option.map_eq_some_iff.1 hx
  rw [nodeAt_treeInit hpos hleaves, hp, Option.map_some,
    freqOf_of_mem hrise ((leafOrder_perm hpos).subset (List.mem_of_getElem? hp))]

/-! `MERGE`. -/

/-- The others of the working list, cut where `MERGE` sets the new node. -/
theorem filter_le_append_filter_lt {s : State} (c : Nat) {r : List Nat} (hr : r.Pairwise s.keyBefore) :
    r.filter (fun j => decide (s.countAt j ≤ c)) ++ r.filter (fun j => decide (c < s.countAt j)) = r := by
  obtain ⟨htake, hdrop⟩ := take_drop_filter_le c
    (hr.imp (S := fun i j => s.countAt i ≤ s.countAt j) fun h => h.elim Nat.le_of_lt fun h => h.1.le)
  exact (congrArg₂ (· ++ ·) htake hdrop).symm.trans (List.take_append_drop _ r)

/-- Settles O38: the working list ascends by key, so its two first nodes are the two smallest. -/
theorem mergeJoinsTheTwoSmallest : Obligations.MergeJoinsTheTwoSmallest := by
  intro s h hl
  obtain ⟨a, b, r, hw⟩ := wl_of_loaded h hl
  have hbody : mergeBody s = .ok (s.merged a b r) :=
    (mergeBody_of_loaded hl).trans (mergeOnce_eq hw (wl_present h))
  obtain ⟨-, -, -, -, -, -, hkeys, -⟩ := h
  rw [hw] at hkeys
  obtain ⟨ha, hkeys⟩ := List.pairwise_cons.1 hkeys
  obtain ⟨hb, hr⟩ := List.pairwise_cons.1 hkeys
  refine ⟨s.merged a b r, a, b, _, _, exec_of_bodyOf (i := .merge) nofun hbody, rfl,
    hw.trans (by rw [filter_le_append_filter_lt (s.countAt a + s.countAt b) hr]), fun x hx hxa => ?_,
    fun x hx hxa hxb => ?_, nodeAt_merged_new, fun i hi => nodeAt_merged_old hi, rfl, wl_merged hr,
    fun x hx => by simpa using (List.mem_filter.1 hx).2, fun x hx => by simpa using (List.mem_filter.1 hx).2, rfl, ?_⟩
  · rw [hw] at hx
    exact ha x ((List.mem_cons.1 hx).resolve_left hxa)
  · rw [hw] at hx
    exact hb x ((List.mem_cons.1 ((List.mem_cons.1 hx).resolve_left hxa)).resolve_left hxb)
  · have hlast : s.wlLen - 1 = 1 ↔ s.wlLen = 2 := by omega
    simp only [State.merged, hlast, hl]

end Sys2Proof.Machine
end

section
/-! `BUILD` (40_tree_builder R114), and the whole tree it makes (40_tree_builder R115). -/

namespace Sys2Proof.Machine

open Sys2Proof.Claims

/-! `BUILD` is `TBINIT`, then merges. -/

theorem exec_build (s : State) : exec .build s = finish .build s (buildBody s) := rfl

theorem mergeAll_of_not_loaded {s : State} (h : s.tbState ≠ .loaded) (n : Nat) : mergeAll n s = .ok s := by
  cases n <;> exact if_neg h

/-- The merges of `BUILD` raise nothing, so it does not matter from which state the command began: they end as `BUILD`
itself does from where they begin. -/
theorem finish_mergeAll (s t : State) :
    finish .build s (mergeAll t.wl.length t) = if t.tbState = .loaded then exec .build t else .next t := by
  split
  · rename_i hl
    rw [exec_build, buildBody_of_loaded hl]
    cases hm : mergeAll t.wl.length t with
    | ok u => rfl
    | error e => obtain ⟨f, rfl⟩ := mergeAll_error hm; rfl
  · rename_i hl
    rw [mergeAll_of_not_loaded hl, finish_ok]

/-- `MERGE` in its phase gives no state but its body's. -/
theorem mergeOnce_of_exec {s t : State} (hl : s.tbState = .loaded) (h : exec .merge s = .next t) :
    mergeOnce s = .ok t := by
  rcases exec_next (i := .merge) nofun h with hb | ⟨e, hb, -⟩
  · exact (mergeBody_ok hb).2
  · obtain ⟨f, hf⟩ := mergeOnce_error ((mergeBody_of_loaded hl).symm.trans hb)
    cases hf

theorem mergeOnce_shortens {s t : State} (h : mergeOnce s = .ok t) : s.wl.length = t.wl.length + 1 := by
  obtain ⟨a, b, r, hw, -, ht⟩ := mergeOnce_ok h
  have hperm : t.wl.Perm (s.nodeCount :: r) := ht ▸ wl_merged_perm (a := a) (b := b)
  rw [hperm.length_eq, hw]
  rfl

/-- Settles O39: what is left of `BUILD` after its `TBINIT`, or after a `MERGE`, is the merges from there. -/
theorem buildIsTbinitThenMerges : Obligations.BuildIsTbinitThenMerges := by
  refine ⟨fun s t hi h0 ht => ?_, fun s t hl ht => ?_⟩
  · have hinit : exec .tbinit s = .next s.treeInit :=
      exec_of_bodyOf (i := .tbinit) nofun ((tbinitBody_of_idle hi).trans (initTree_eq h0))
    obtain rfl : s.treeInit = t := Host.Outcome.next.inj (hinit.symm.trans ht)
    rw [← finish_mergeAll s, exec_build, buildBody_of_idle hi, initTree_eq h0, ok_bind]
  · have hm := mergeOnce_of_exec hl ht
    rw [← finish_mergeAll s, exec_build, buildBody_of_loaded hl, mergeOnce_shortens hm, mergeAll,
      if_pos hl, hm, ok_bind]

/-! What the merges keep. -/

/-- The merges of `BUILD` add nodes, and keep every other. -/
theorem mergeAll_keeps_nodes {n : Nat} {s t : State} (h : mergeAll n s = .ok t) :
    s.nodeCount ≤ t.nodeCount ∧ ∀ i < s.nodeCount, t.nodeAt i = s.nodeAt i := by
  induction n generalizing s with
  | zero =>
    unfold mergeAll stopping at h
    split at h <;> cases h
    exact ⟨le_rfl, fun _ _ => rfl⟩
  | succ n ih =>
    by_cases hl : s.tbState = .loaded
    · rw [mergeAll, if_pos hl] at h
      obtain ⟨u, hu, ht⟩ := bind_ok h
      obtain ⟨hcount, hkept⟩ := ih ht
      obtain ⟨a, b, r, -, -, hmerged⟩ := mergeOnce_ok hu
      have hnew : u.nodeCount = s.nodeCount + 1 := by rw [hmerged]
      have hold : ∀ i < s.nodeCount, u.nodeAt i = s.nodeAt i := fun i hi => hmerged ▸ nodeAt_merged_old hi
      exact ⟨by omega, fun i hi => (hkept i (by omega)).trans (hold i hi)⟩
    · rw [mergeAll_of_not_loaded hl] at h
      cases h
      exact ⟨le_rfl, fun _ _ => rfl⟩

/-- `BUILD` keeps the nodes it finds. -/
theorem buildBody_keeps_nodes {s t : State} (hsound : s.TreeSound) (h : buildBody s = .ok t) :
    ∀ i < s.nodeCount, t.nodeAt i = s.nodeAt i := by
  cases hs : s.tbState with
  | idle =>
    obtain ⟨-, hidle, -⟩ := hsound
    have hnone : s.nodeCount = 0 := hidle.1 hs
    intro i hi
    omega
  | loaded =>
    rw [buildBody_of_loaded hs] at h
    exact (mergeAll_keeps_nodes h).2
  | done => exact absurd hs (buildBody_ok h).1

/-- `BUILD` of a sound unfinished tree with a leaf runs to its end (70_reset_and_hazards R240). -/
theorem buildBody_completes {s : State} (hc : s.CounterWhole) (h : s.TreeWhole) (hphase : s.tbState ≠ .done)
    (hleaves : s.leaves ≠ 0) : ∃ t, buildBody s = .ok t := by
  cases hs : s.tbState with
  | idle => exact buildBody_idle hc hs hleaves
  | loaded =>
    obtain ⟨t, ht, -⟩ := mergeAll_whole h le_rfl
    exact ⟨t, (buildBody_of_loaded hs).trans ht⟩
  | done => exact absurd hs hphase

/-! The whole tree: one root, the last node made, above all others (40_tree_builder R115). -/

/-- Children come before their parents, so no child is the last node. -/
theorem succ_lt_of_mem_childList {s : State} (h : s.NodesSound) {i : Nat} (hi : i ∈ s.childList) :
    i + 1 < s.nodeCount := by
  obtain ⟨j, hj, hi⟩ := List.mem_flatMap.1 hi
  have hj := List.mem_range.1 hj
  rcases soundNode_cases (h j hj) with ⟨c, sym, hn⟩ | ⟨c, l, r, hn, hl, hr, -⟩
  · simp [State.childrenAt, hn] at hi
  · simp only [State.childrenAt, hn, List.mem_cons, List.not_mem_nil, or_false] at hi
    omega

/-- A present internal node of a sound tree has the sum of its children's counts. -/
theorem count_of_internal {s : State} (h : s.NodesSound) {i c l r : Nat} (hn : s.nodeAt i = some (.internal c l r)) :
    c = s.countAt l + s.countAt r := by
  rcases soundNode_cases (h i (lt_of_nodeAt hn)) with ⟨c', sym, hn'⟩ | ⟨c', l', r', hn', -, -, hc⟩
  · rw [hn] at hn'; cases hn'
  · rw [hn] at hn'; cases hn'; exact hc

section WholeTree

variable {s : State} (h : s.TreeSound) (hd : s.tbState = .done)
include h hd

theorem nodeCount_of_done : s.nodeCount + 1 = 2 * s.leaves ∧ s.wlLen = 1 := by
  obtain ⟨-, -, -, hdone, -, -, -, hbusy⟩ := h
  obtain ⟨-, hsize, -⟩ := hbusy (by simp [hd])
  obtain ⟨-, hone⟩ := hdone.1 hd
  exact ⟨hone ▸ hsize, hone⟩

/-- The root is the last node made. -/
theorem wl_of_done_last : s.wl = [s.nodeCount - 1] := by
  obtain ⟨hsize, -⟩ := nodeCount_of_done h hd
  obtain ⟨root, hroot⟩ := wl_of_done h hd
  obtain ⟨-, -, -, -, hnodes, hperm, -⟩ := h
  have hlast : s.nodeCount - 1 ∈ s.childList ++ s.wl := hperm.mem_iff.2 (List.mem_range.2 (by omega))
  rcases List.mem_append.1 hlast with hchild | hwl
  · have := succ_lt_of_mem_childList hnodes hchild
    omega
  · rw [hroot] at hwl ⊢
    rw [List.mem_singleton.1 hwl]

theorem countAt_root : s.countAt (s.nodeCount - 1) = s.total := by
  have hwl := wl_of_done_last h hd
  obtain ⟨-, -, -, -, -, -, -, hbusy⟩ := h
  obtain ⟨-, -, hsum, -⟩ := hbusy (by simp [hd])
  rw [hwl] at hsum
  simpa using hsum

/-- Every node but the root is the child of exactly one node. -/
theorem count_childList_of_done {i : Nat} (hi : i + 1 < s.nodeCount) : s.childList.count i = 1 := by
  have hwl := wl_of_done_last h hd
  obtain ⟨-, -, -, -, -, hperm, -⟩ := h
  have hroot : s.wl.count i = 0 := by
    rw [hwl, List.count_eq_zero, List.mem_singleton]
    omega
  have hrange : (List.range s.nodeCount).count i = 1 :=
    List.count_eq_one_of_mem List.nodup_range (List.mem_range.2 (by omega))
  rw [← hperm.count_eq, List.count_append, hroot] at hrange
  exact hrange

end WholeTree

/-- Settles O40: the merges run to their end and keep the tree sound, and a sound tree with one root is whole. -/
theorem buildMakesTheWholeTree : Obligations.BuildMakesTheWholeTree := by
  intro s h hphase hleaves
  obtain ⟨-, hcounter, htree, -⟩ := sound_iff.1 h
  obtain ⟨t, ht⟩ := buildBody_completes hcounter htree hphase hleaves
  obtain ⟨hsound, -⟩ : t.TreeWhole := (buildBody_endsIn hcounter htree).of_ok ht
  have hd : t.tbState = .done := buildBody_done ht
  have hframe : OnlyTree s t := buildBody_only ht
  have hl : t.leaves = s.leaves := by rw [hframe]
  have htotal : t.total = s.total := by rw [hframe]
  obtain ⟨hsize, hone⟩ := nodeCount_of_done hsound hd
  have hcount : t.nodeCount = 2 * s.leaves - 1 := by omega
  have hroot : t.nodeCount - 1 = 2 * s.leaves - 2 := by omega
  have hnodes : t.NodesSound := by
    obtain ⟨-, -, -, -, hnodes, -⟩ := hsound
    exact hnodes
  exact ⟨t, exec_of_bodyOf (i := .build) nofun ht, hframe, hd, hcount, hroot ▸ wl_of_done_last hsound hd, hone,
    hroot ▸ (countAt_root hsound hd).trans htotal, buildBody_keeps_nodes htree.1 ht,
    fun i c l r hn => count_of_internal hnodes hn, fun i hi => count_childList_of_done hsound hd hi⟩

end Sys2Proof.Machine
end

section
/-! `ASSIGN` (41_code_table R133, R136): the codes of a tree are its paths, and together they fill the code space. -/

namespace Sys2Proof.Machine

open Sys2Proof.Claims

/-! The codes of a tree. -/

/-- The part of the code space a list of codes takes: 2^-len for each (41_code_table R136). -/
def codeSpace (xs : List (Nat × Bits)) : ℚ := (xs.map fun p => (1 / 2 : ℚ) ^ p.2.length).sum

theorem codeSpace_append (xs ys : List (Nat × Bits)) : codeSpace (xs ++ ys) = codeSpace xs + codeSpace ys := by
  simp [codeSpace]

theorem codeSpace_perm {xs ys : List (Nat × Bits)} (h : xs.Perm ys) : codeSpace xs = codeSpace ys := (h.map _).sum_eq

/-- The leaves below a node together take what the path to the node takes: each internal node halves it in two. -/
theorem codeSpace_walk {s : State} {f i : Nat} {p : Bits} {xs : List (Nat × Bits)} (h : walk s f i p = some xs) :
    codeSpace xs = (1 / 2 : ℚ) ^ p.length := by
  induction f generalizing i p xs with
  | zero => cases h
  | succ f ih =>
    rcases walk_cases h with ⟨c, sym, -, rfl⟩ | ⟨c, l, r, ys, zs, -, hy, hz, rfl⟩
    · simp [codeSpace]
    · rw [codeSpace_append, ih hy, ih hz, List.length_append, List.length_append, List.length_singleton,
        List.length_singleton, pow_succ]
      ring

/-- Each leaf a walk finds is reached from the walk's start by what its path adds to the path begun with. -/
theorem descend_of_walk {s : State} {f i : Nat} {p : Bits} {xs : List (Nat × Bits)} (h : walk s f i p = some xs) :
    ∀ q ∈ xs, ∃ y c, q.2 = p ++ y ∧ descend s i y = some (.leaf c q.1) := by
  induction f generalizing i p xs with
  | zero => cases h
  | succ f ih =>
    rcases walk_cases h with ⟨c, sym, hn, rfl⟩ | ⟨c, l, r, ys, zs, hn, hy, hz, rfl⟩
    · intro q hq
      rw [List.mem_singleton.1 hq]
      exact ⟨[], c, (List.append_nil p).symm, hn⟩
    · intro q hq
      rcases List.mem_append.1 hq with hq | hq
      · obtain ⟨y, c', hpath, hleaf⟩ := ih hy q hq
        exact ⟨leftBit :: y, c', hpath.trans (List.append_cons p leftBit y).symm,
          by simpa [descend, hn, leftBit] using hleaf⟩
      · obtain ⟨y, c', hpath, hleaf⟩ := ih hz q hq
        exact ⟨rightBit :: y, c', hpath.trans (List.append_cons p rightBit y).symm,
          by simpa [descend, hn, rightBit] using hleaf⟩

/-- The codes of a tree are a lone leaf's one-bit code, or the paths to two leaves or more (41_code_table R133). -/
theorem treeCodes_cases {s : State} {root : Nat} {codes : List (Nat × Bits)} (h : s.treeCodes root = some codes) :
    (∃ sym, codes = [(sym, [true])]) ∨ (walk s s.nodeCount root [] = some codes ∧ 2 ≤ codes.length) := by
  unfold State.treeCodes at h
  split at h
  · cases h
    exact .inl ⟨_, rfl⟩
  · rename_i hleaf
    refine .inr ⟨h, ?_⟩
    cases hk : s.nodeCount with
    | zero => rw [hk] at h; cases h
    | succ k =>
      rw [hk] at h
      rcases walk_cases h with ⟨c, sym, hn, -⟩ | ⟨c, l, r, ys, zs, -, hy, hz, rfl⟩
      · exact absurd hn (hleaf c sym)
      · have hys := List.length_pos_iff.2 (walk_ne_nil hy)
        have hzs := List.length_pos_iff.2 (walk_ne_nil hz)
        rw [List.length_append]
        omega

theorem walk_of_treeCodes {s : State} {root : Nat} {codes : List (Nat × Bits)} (h : s.treeCodes root = some codes)
    (htwo : 2 ≤ codes.length) : walk s s.nodeCount root [] = some codes := by
  rcases treeCodes_cases h with ⟨sym, rfl⟩ | ⟨hwalk, -⟩
  · exact absurd htwo (by simp)
  · exact hwalk

/-! The table `ASSIGN` makes. -/

/-- What `ASSIGN` enters: the codes of the tree, one for each counted symbol. -/
theorem assignBody_enters {s t : State} (h : s.Sound) (ht : assignBody s = .ok t) :
    ∃ root codes, s.wl = [root] ∧ s.treeCodes root = some codes ∧ t.ct.Perm codes ∧
      (codes.map Prod.fst).Perm (s.freq.map Prod.fst) ∧ codes.length = s.leaves := by
  obtain ⟨-, ⟨⟨-, -, hleaves⟩, hrise, -⟩, ⟨htree, -⟩, ⟨⟨-, -, htable⟩, -⟩, -⟩ := sound_iff.1 h
  obtain ⟨hdone, hempty, root, r, codes, hw, hcodes, rfl⟩ := assignBody_ok ht
  obtain ⟨root', hroot⟩ := wl_of_done htree hdone
  obtain ⟨rfl, rfl⟩ : root = root' ∧ r = [] := by simpa using hw.symm.trans hroot
  have hlt : root < s.nodeCount := wl_lt htree (by simp [hw])
  obtain ⟨-, -, -, -, hnodes, -, -, hbusy⟩ := htree
  obtain ⟨-, -, -, hsyms⟩ := hbusy (by simp [hdone])
  have hfst : codes.map Prod.fst = s.leafSymbols root := by
    obtain ⟨codes', hcodes', hfst, -⟩ := treeCodes_sound hnodes hlt
    rw [hcodes] at hcodes'
    cases hcodes'
    exact hfst
  have hkeys : (codes.map Prod.fst).Perm (s.freq.map Prod.fst) := by simpa [hfst, hw] using hsyms
  have hperm : (enterCodes codes s.ct).Perm codes := by
    have hnodup := hkeys.nodup_iff.2 (nodup_keys hrise)
    rw [htable.1 hempty]
    simpa using enterCodes_perm (codes := codes) (ct := []) (by simpa using hnodup)
  exact ⟨root, codes, hw, hcodes, hperm, hkeys, by simpa [hleaves] using hkeys.length_eq⟩

/-- The symbols with a code are those the table lists. -/
theorem coded_perm {s : State} (h : s.Sound) :
    ((List.range s.cfg.nsym).filter fun x => decide (s.codeOf x ≠ [])).Perm (s.ct.map Prod.fst) := by
  obtain ⟨-, -, -, ⟨-, hrise, hbelow, hlens⟩, -⟩ := sound_iff.1 h
  refine (List.perm_ext_iff_of_nodup (List.nodup_range.filter _) (nodup_keys hrise)).2 fun x => ?_
  rw [List.mem_filter, List.mem_range, decide_eq_true_iff]
  constructor
  · rintro ⟨-, hx⟩
    exact List.mem_map_of_mem (f := Prod.fst) (mem_of_codeOf hx)
  · intro hx
    obtain ⟨p, hp, rfl⟩ := List.mem_map.1 hx
    rw [codeOf_of_mem hrise hp]
    exact ⟨hbelow p hp, List.length_pos_iff.1 (hlens p hp).1⟩

/-- Summed over the symbols with a code, 2^-len is the code space the table takes. -/
theorem sum_coded {s : State} (h : s.Sound) :
    (((List.range s.cfg.nsym).filter fun x => decide (s.codeOf x ≠ [])).map
      fun x => (1 / 2 : ℚ) ^ (s.codeOf x).length).sum = codeSpace s.ct := by
  rw [((coded_perm h).map _).sum_eq, List.map_map, codeSpace]
  refine congrArg List.sum (List.map_congr_left fun p hp => ?_)
  rw [Function.comp_apply, codeOf_of_mem (rising_ct h) hp]

/-- `ASSIGN` from an empty table that leads to a table from the tree raised nothing. -/
theorem assignBody_of_exec {s t : State} (hempty : s.ctState = .empty) (h : exec .assign s = .next t)
    (ht : t.ctState = .tree) : assignBody s = .ok t := by
  rcases exec_next (i := .assign) nofun h with hbody | ⟨e, -, rfl⟩
  · exact hbody
  · exact absurd (hempty.symm.trans ht) (by decide)

/-- Settles O43: the table lists the paths of the tree's walk, which begins with the whole code space. -/
theorem assignedTableIsComplete : Obligations.AssignedTableIsComplete := by
  intro s t h htwo hempty hexec htree
  have hbody := assignBody_of_exec hempty hexec htree
  have hsound : t.Sound := (bodyOf_sound (i := .assign) nofun rfl h).of_ok hbody
  have hframe : OnlyTable s t := bodyOf_frame (i := .assign) nofun hbody
  have hcfg : t.cfg = s.cfg := by rw [hframe]
  obtain ⟨root, codes, -, hcodes, hperm, -, hlen⟩ := assignBody_enters h hbody
  have hwalk := walk_of_treeCodes hcodes (by omega)
  rw [← hcfg, sum_coded hsound, codeSpace_perm hperm, codeSpace_walk hwalk, List.length_nil, pow_zero]

/-- A symbol that is listed with a count is one counted. -/
theorem one_le_freqOf_of_mem {s : State} (h : s.Sound) {x : Nat} (hx : x ∈ s.freq.map Prod.fst) : 1 ≤ s.freqOf x := by
  obtain ⟨⟨hrise, -, hpos⟩, -⟩ := h.canonical
  obtain ⟨p, hp, rfl⟩ := List.mem_map.1 hx
  rw [freqOf_of_mem hrise hp]
  exact hpos p hp

/-- Settles O41: a symbol's code is listed among those of the tree's walk, or is the lone leaf's. -/
theorem assignRecordsThePathsOfTheTree : Obligations.AssignRecordsThePathsOfTheTree := by
  intro s h hdone hempty
  obtain ⟨t, hbody, htree, hcovers⟩ := assignBody_covers h hdone hempty
  obtain ⟨root, codes, hw, hcodes, hperm, hkeys, hlen⟩ := assignBody_enters h hbody
  have hcount : t.ctCount = s.leaves := by obtain ⟨-, -, _, _, _, -, -, rfl⟩ := assignBody_ok hbody; rfl
  have hcovers : ∀ x, 1 ≤ s.freqOf x → t.codeOf x ≠ [] := fun x hx => hcovers x (Nat.one_le_iff_ne_zero.1 hx)
  have hlisted : ∀ x, t.codeOf x ≠ [] → (x, t.codeOf x) ∈ codes := fun x hx => hperm.subset (mem_of_codeOf hx)
  refine ⟨t, root, exec_of_bodyOf (i := .assign) nofun hbody, bodyOf_frame (i := .assign) nofun hbody, hw, htree, hcount,
    fun x => ⟨fun hx => ?_, hcovers x⟩, fun hone x hx => ?_, fun htwo x hx => ?_⟩
  · exact one_le_freqOf_of_mem h (hkeys.subset (List.mem_map_of_mem (f := Prod.fst) (hlisted x hx)))
  · have hmem := hlisted x (hcovers x hx)
    rcases treeCodes_cases hcodes with ⟨sym, rfl⟩ | ⟨-, hmany⟩
    · exact congrArg Prod.snd (List.mem_singleton.1 hmem)
    · omega
  · have hmem := hlisted x (hcovers x hx)
    have hwalk := walk_of_treeCodes hcodes (by omega)
    obtain ⟨y, c, hpath, hleaf⟩ := descend_of_walk hwalk _ hmem
    obtain rfl : t.codeOf x = y := hpath
    have hshort : (t.codeOf x).length + 1 ≤ 0 + codes.length := walk_path_length hwalk _ hmem
    exact ⟨⟨c, hleaf⟩, by omega⟩

end Sys2Proof.Machine
end

section
/-! `LOADCODE` (41_code_table R134), check by check. -/

namespace Sys2Proof.Machine

open Sys2Proof.Claims

/-- In a canonical memory the first entry that meets a test is the one with the smallest key. -/
theorem Cells.find?_of_smallest {α : Type} {m : Cells α} (h : Cells.Rising m) {q : Nat × α → Bool} {p : Nat × α}
    (hp : p ∈ m) (hq : q p = true) (hmin : ∀ r ∈ m, r.1 < p.1 → q r = false) : m.find? q = some p := by
  obtain ⟨before, after, rfl⟩ := List.append_of_mem hp
  refine List.find?_eq_some_iff_append.2 ⟨hq, before, after, rfl, fun r hr => ?_⟩
  have hlt : r.1 < p.1 := (List.pairwise_append.1 (List.pairwise_map.1 h)).2.2 r hr p List.mem_cons_self
  rw [hmin r (List.mem_append_left _ hr) hlt]
  rfl

/-- A listed entry is passed over by `LOADCODE`'s clash check exactly when its symbol's code stands apart. -/
theorem clashTest_eq_false {s : State} (h : Cells.Rising s.ct) {x : Bits} {p : Nat × Bits} (hp : p ∈ s.ct)
    (hapart : s.codeOf p.1 ≠ [] → ¬ s.codeOf p.1 <+: x ∧ ¬ x <+: s.codeOf p.1) :
    (decide (p.2 ≠ []) && clashes x p.2) = false := by
  rw [codeOf_of_mem h hp] at hapart
  refine Bool.and_eq_false_imp.2 fun hne => Bool.eq_false_iff.2 fun hclash => ?_
  obtain ⟨hbefore, hafter⟩ := hapart (of_decide_eq_true hne)
  exact ((clashes_iff x p.2).1 hclash).elim hafter hbefore

section FirstClash

variable {s : State} (h : Cells.Rising s.ct) {x : Bits}
include h

/-- `K` is empty (41_code_table R134). -/
theorem firstClash_eq_none (hapart : ∀ y, s.codeOf y ≠ [] → ¬ s.codeOf y <+: x ∧ ¬ x <+: s.codeOf y) :
    firstClash s.ct x = none := by
  refine Option.map_eq_none_iff.2 (List.find?_eq_none.2 fun p hp => ?_)
  rw [clashTest_eq_false h hp (hapart p.1)]
  exact Bool.false_ne_true

/-- `min K` (41_code_table R134). -/
theorem firstClash_eq_some {y : Nat} (hy : s.codeOf y ≠ []) (hclash : s.codeOf y <+: x ∨ x <+: s.codeOf y)
    (hmin : ∀ z, z < y → s.codeOf z ≠ [] → ¬ s.codeOf z <+: x ∧ ¬ x <+: s.codeOf z) :
    firstClash s.ct x = some y := by
  have htest : (decide (s.codeOf y ≠ []) && clashes x (s.codeOf y)) = true := by
    rw [Bool.and_eq_true, decide_eq_true_iff, clashes_iff]
    exact ⟨hy, hclash.symm⟩
  rw [firstClash, Cells.find?_of_smallest h (mem_of_codeOf hy) htest fun p hp hlt =>
    clashTest_eq_false h hp (hmin p.1 hlt), Option.map_some]

end FirstClash

/-! The body of `LOADCODE`, one equation for each way it ends after its phase check. -/

section LoadcodeBody

variable {len sym : Nat} {s : State} (hp : s.ctState ≠ .tree)
include hp

theorem loadcodeBody_empty : loadcodeBody 0 sym s = raising .malformedCodeTable 1 sym 0 := by
  simp [loadcodeBody, hp]

variable (h0 : len ≠ 0)
include h0

theorem loadcodeBody_wide (hw : 2 ^ len ≤ s.staged) : loadcodeBody len sym s = raising .malformedCodeTable 2 sym len := by
  simp [loadcodeBody, hp, h0, hw]

variable (hw : s.staged < 2 ^ len)
include hw

theorem loadcodeBody_taken (hc : s.codeOf sym ≠ []) :
    loadcodeBody len sym s = raising .malformedCodeTable 3 sym sym := by
  simp [loadcodeBody, hp, h0, hw, hc]

variable (hc : s.codeOf sym = [])
include hc

theorem loadcodeBody_clash {y : Nat} (hk : firstClash s.ct (bstr s.staged len) = some y) :
    loadcodeBody len sym s = raising .malformedCodeTable 4 sym y := by
  simp [loadcodeBody, hp, h0, hw, hc, hk]

theorem loadcodeBody_fresh (hk : firstClash s.ct (bstr s.staged len) = none) :
    loadcodeBody len sym s =
      .ok { s with ct := Cells.set s.ct sym (bstr s.staged len), ctCount := s.ctCount + 1, ctState := .loaded } := by
  simp [loadcodeBody, hp, h0, hw, hc, hk]

end LoadcodeBody

/-- The length operand as a number is 0 only as the field is. -/
theorem toNat_len_ne_zero {len : BitVec 8} (h : len ≠ 0#8) : len.toNat ≠ 0 :=
  fun h0 => h (BitVec.eq_of_toNat_eq h0)

/-- Settles O44: no check of the body raises, and the table is written at the symbol alone. -/
theorem loadcodeEntersThePair : Obligations.LoadcodeEntersThePair := by
  intro s len sym _ hrise hp h0 hw hc hapart
  have hbody := loadcodeBody_fresh hp (toNat_len_ne_zero h0) hw hc (firstClash_eq_none hrise hapart)
  refine ⟨_, exec_of_bodyOf (i := .loadcode len sym) nofun hbody, rfl, ?_, ?_, fun x hx => ?_, rfl, rfl⟩
  · simp [State.codeOf]
  · simp [State.codeOf, val_bstr hw]
  · simp [State.codeOf, hx]

/-- Settles O45: each check of the body raises where those before it pass. -/
theorem loadcodeRejectsMalformedPairs : Obligations.LoadcodeRejectsMalformedPairs := by
  intro s len sym hrise hp
  refine ⟨fun h0 => ?_, fun h0 hw => ?_, fun h0 hw hc => ?_, fun y h0 hw hc hy hclash hmin => ?_⟩
  · subst h0
    exact exec_raising nofun (by decide) (loadcodeBody_empty hp)
  · exact exec_raising nofun (by decide) (loadcodeBody_wide hp (toNat_len_ne_zero h0) hw)
  · exact exec_raising nofun (by decide) (loadcodeBody_taken hp (toNat_len_ne_zero h0) hw hc)
  · exact exec_raising nofun (by decide)
      (loadcodeBody_clash hp (toNat_len_ne_zero h0) hw hc (firstClash_eq_some hrise hy hclash hmin))

end Sys2Proof.Machine
end

section
/-! `FLUSH`, `XFER` and `UNPACK` one command at a time and in a row (42_encode_pack R155 to R157), and what the packer
raises (42_encode_pack R151 to R153, R156). -/

namespace Sys2Proof.Machine

open Sys2Proof.Claims

/-! The loop back. -/

/-- Settles O59: the decoder is prepared for the packed bits, from position 0 on. -/
theorem loopBackReturnsThePackedBits : Obligations.LoopBackReturnsThePackedBits := by
  intro s h ho hin
  obtain ⟨v, hrun, hcode, hlen, hbits⟩ := run_loopBack h ho hin
  have hcount := length_packed h ho
  refine ⟨unpackedState v, hrun, congrArg (fun c => c.2.1) hcode, rfl, hlen.symm.trans hcount, hcount, fun p hp => ?_⟩
  have hbit := hbits p (hcount.symm ▸ hp)
  rwa [show (unpackedState v).decPos = 0 from rfl, Nat.zero_add] at hbit

/-! What `FLUSH` and `XFER` leave. -/

/-- Before the header `FLUSH` writes no byte but the one the pending bits complete (42_encode_pack R155). -/
theorem flushPending_keeps {s u : State} (h : flushPending s = .ok u) :
    u.bitcnt = s.bitcnt ∧
    ∀ j, ¬ (s.outLen ≤ j ∧ j < u.outLen) → u.stored .outbuf j = s.stored .outbuf j := by
  rcases flushPending_cases s with ⟨-, e⟩ | ⟨-, -, e⟩ | ⟨-, -, e⟩ <;> rw [e] at h <;> cases h
  case inl => exact ⟨rfl, fun _ _ => rfl⟩
  case inr.inl =>
    exact ⟨rfl, fun j hj => (stored_withBuffer_set s .outbuf s.outLen j _).trans
      (if_neg fun hlast : j = s.outLen => hj ⟨hlast.ge, hlast ▸ Nat.lt_succ_self _⟩)⟩

/-- `FLUSH` empties the pending bits and writes no byte but its last one and the header (42_encode_pack R155). -/
theorem flushBody_keeps {s t : State} (h : flushBody s = .ok t) :
    t.bitcnt = s.bitcnt ∧ t.acc = 0 ∧ t.accN = 0 ∧
    ∀ j, j ≠ 0 → ¬ (s.outLen ≤ j ∧ j < t.outLen) → t.stored .outbuf j = s.stored .outbuf j := by
  obtain ⟨-, u, hu, -, rfl⟩ := flushBody_ok h
  obtain ⟨hcnt, hstored⟩ := flushPending_keeps hu
  exact ⟨hcnt, rfl, rfl, fun j h0 hj =>
    (stored_withBuffer_set u .outbuf 0 j _).trans ((if_neg h0).trans (hstored j hj))⟩

/-- Settles O48: the stream `FLUSH` makes has whole bytes, so its padding and the packed bits fill them. -/
theorem flushPadsAndWritesTheHeader : Obligations.FlushPadsAndWritesTheHeader := by
  intro s h ho
  obtain ⟨t, ht, hflushed, hout, hheader, hbits⟩ := flushBody_streams h ho
  obtain ⟨hcnt, hacc, haccN, hstored⟩ := flushBody_keeps ht
  have hfill : 8 * (t.outLen - 1) = s.bitcnt + padding s.bitcnt := by rw [hout, padding]; omega
  exact ⟨t, exec_of_bodyOf (i := .flush) nofun ht, flushBody_only ht, hflushed, hcnt, hacc, haccN, hout, hheader,
    by rw [hheader, hfill, Nat.add_sub_cancel], hbits, hstored⟩

/-- Settles O49: `XFER` passes its two checks, and its copy is the only change to `INBUF`. -/
theorem xferCopiesTheStream : Obligations.XferCopiesTheStream := by
  intro s hf hout hin
  obtain ⟨u, hu, hframe, hbytes⟩ := copyOut_ok hout hin
  have hbody : xferBody s = .ok { u with inLen := s.outLen, upState := .idle } := by
    rw [xferBody, if_neg (not_not.2 hf), if_neg (Nat.not_lt.2 hin), hu, ok_bind]
  exact ⟨_, exec_of_bodyOf (i := .xfer) nofun hbody, xferBody_only hbody, hbytes, rfl, rfl⟩

/-! What the packer raises. -/

/-- `ENC` of a symbol with no code (42_encode_pack R152). -/
theorem encBody_unknown {sym : Nat} {s : State} (hct : s.ctState ≠ .empty) (ho : s.pkState = .opened)
    (hcode : s.codeOf sym = []) : encBody sym s = raising .unknownSymbol 0 sym 0 := by
  rw [encBody, if_neg (by simp [hct, ho]), State.lookup, if_pos hcode]

/-- Bits that do not fit fail the capacity check (42_encode_pack R151). -/
theorem appendChecked_overflows {x : Bits} {s : State} (h : s.cfg.outCap < 1 + (s.bitcnt + x.length + 7) / 8) :
    appendChecked x s = raising .bufferOverflow 1 s.bitcnt x.length :=
  if_neg (by rw [State.fits, decide_eq_true_iff]; exact Nat.not_le.2 h)

/-- `XFER` of a stream that does not fit `INBUF` (42_encode_pack R156). -/
theorem xferBody_overflows {s : State} (hf : s.pkState = .flushed) (h : s.cfg.inCap < s.outLen) :
    xferBody s = raising .bufferOverflow 2 s.outLen s.cfg.inCap :=
  (if_neg (not_not.2 hf)).trans (if_pos h)

/-- Settles O47: past the phase check, each body's next check raises. -/
theorem packerRejectsWhatDoesNotFit : Obligations.PackerRejectsWhatDoesNotFit := by
  intro s
  refine ⟨fun sym ho hct hcode => ?_, fun sym ho hct hcode hfull => ?_, fun n v ho hfull => ?_, fun hf hlong => ?_⟩
  · exact exec_raising nofun (by decide) (encBody_unknown hct ho hcode)
  · exact exec_raising nofun (by decide) ((encBody_code hct ho hcode).trans (appendChecked_overflows hfull))
  · have hlen : (rawBits n v).length = n.toNat := length_bstr _ _
    rw [← hlen] at hfull ⊢
    exact exec_raising nofun (by decide) ((putbitsBody_opened ho).trans (appendChecked_overflows hfull))
  · exact exec_raising nofun (by decide) (xferBody_overflows hf hlong)

end Sys2Proof.Machine
end

section
/-! `UNPACK` (43_unpack_decode R172), check by check. -/

namespace Sys2Proof.Machine

open Sys2Proof.Claims

/-- Settles O50: the header passes every check of the body. -/
theorem unpackReadsTheHeader : Obligations.UnpackReadsTheHeader := by
  intro s h1 hcap h7 hpad
  exact exec_of_bodyOf (i := .unpack) nofun (unpackBody_header (by omega) hcap h7 hpad)

/-- A stream with no header byte. -/
theorem unpackBody_empty {s : State} (h0 : s.inLen = 0) : unpackBody s = raising .truncatedOrCorruptStream 1 0 0 :=
  if_pos h0

section HeaderByte

variable {s : State} (h0 : s.inLen ≠ 0) (hcap : s.inLen ≤ s.cfg.inCap)
include h0 hcap

theorem memRead_header : memRead .inbuf 0 s = .ok (s.stored .inbuf 0) :=
  memRead_ok (Nat.lt_of_lt_of_le (Nat.pos_of_ne_zero h0) hcap)

/-- A header above 7. -/
theorem unpackBody_padTooLong (h7 : 7 < (s.stored .inbuf 0).toNat) :
    unpackBody s = raising .truncatedOrCorruptStream 2 (s.stored .inbuf 0).toNat 0 := by
  rw [unpackBody, if_neg h0, memRead_header h0 hcap, ok_bind]
  exact if_pos h7

/-- A header above the number of payload bits. -/
theorem unpackBody_padBeyondPayload (h7 : (s.stored .inbuf 0).toNat ≤ 7)
    (hpad : 8 * (s.inLen - 1) < (s.stored .inbuf 0).toNat) :
    unpackBody s = raising .truncatedOrCorruptStream 3 (s.stored .inbuf 0).toNat s.inLen := by
  rw [unpackBody, if_neg h0, memRead_header h0 hcap, ok_bind]
  exact (if_neg (Nat.not_lt.2 h7)).trans (if_pos hpad)

end HeaderByte

/-- Settles O51: each check of the body raises where those before it pass. -/
theorem unpackRejectsBadHeaders : Obligations.UnpackRejectsBadHeaders := by
  intro s hcap
  refine ⟨fun h0 => ?_, fun h0 h7 => ?_, fun h0 h7 hpad => ?_⟩
  · exact exec_raising nofun (by decide) (unpackBody_empty h0)
  · exact exec_raising nofun (by decide) (unpackBody_padTooLong h0 hcap h7)
  · exact exec_raising nofun (by decide) (unpackBody_padBeyondPayload h0 hcap h7 hpad)

end Sys2Proof.Machine
end

section
/-! `DECODE` that raises past the symbols it decoded (43_unpack_decode R173): where it stands after them, how it stops in
the bits that follow, and what it keeps. -/

namespace Sys2Proof.Machine

open Sys2Proof.Claims

/-! Past the symbols. -/

/-- `DECODE` of the payload bits `bits` from `s` has emitted `syms` and goes on from `u`, with the payload bits `rest` to
take and the bits `tail` from the chunk's start on. -/
structure AtTail (s : State) (bits : Bits) (syms : List Nat) (tail : Bits) (u : State) (rest : Bits) : Prop where
  run : decodeBits bits.length s = decodeBits rest.length u
  sound : u.Sound
  ahead : Ahead u rest
  splits : u.chunk ++ rest = tail
  only : OnlyDecoder s u
  emits : Emits s u syms
  upState : u.upState = s.upState
  chunkStart : u.chunkStart = s.chunkStart + (syms.flatMap s.codeOf).length
  unmoved : syms = [] → u = s ∧ rest = bits
  fresh : syms ≠ [] → u.decClen = 0

/-- A payload that parses is read up to its tail. -/
theorem atTail_of_parses {s : State} {bits tail : Bits} {syms : List Nat} (h : s.Sound) (hp : Parses s bits syms tail)
    (hroom : s.symoutLen + syms.length ≤ s.cfg.symoutCap) : ∃ u rest, AtTail s bits syms tail u rest := by
  obtain ⟨u, rest, hrun, hsound, hahead, htail, honly, hemits, hup, hpos, hnil, hcons⟩ := decodeBits_parses h hp hroom
  refine ⟨u, rest, hrun, hsound, hahead, htail, honly, hemits, hup, ?_, hnil, hcons⟩
  rw [State.chunkStart, hpos, Nat.add_sub_cancel]
  rfl

/-- With no bit left to take no symbol is decoded: the chunk holds no whole code of one. -/
theorem syms_eq_nil_of_parses {s : State} {tail : Bits} {syms : List Nat} (h : s.Sound) (hp : Parses s [] syms tail) :
    syms = [] := by
  obtain ⟨-, he, -, hhead⟩ := hp
  cases syms with
  | nil => rfl
  | cons x xs =>
    have hlt := hhead x rfl
    have hlen := congrArg List.length he
    have hchunk := h.decoder.1
    simp only [List.append_nil, List.flatMap_cons, List.length_append] at hlen
    omega

section AtTail

variable {s u : State} {bits tail rest : Bits} {syms : List Nat} (h : AtTail s bits syms tail u rest)
include h

theorem AtTail.codeOf (x : Nat) : u.codeOf x = s.codeOf x := by
  rw [h.only]
  rfl

/-- A code that the chunk holds only the beginning of is still to be completed past the symbols. -/
theorem AtTail.decClen_lt {n : Nat} (hn : 0 < n) (hs : syms = [] → s.decClen < n) : u.decClen < n := by
  by_cases hnil : syms = []
  · rw [(h.unmoved hnil).1]
    exact hs hnil
  · rwa [h.fresh hnil]

theorem AtTail.noMatchIn (hno : NoMatchIn s syms tail) : NoMatchIn u [] tail := fun x hx hxt => by
  rw [h.codeOf] at hx hxt ⊢
  obtain ⟨hnil, hle⟩ := hno x hx hxt
  rw [(h.unmoved hnil).1]
  exact ⟨rfl, hle⟩

/-- The tail ends where the payload does. -/
theorem AtTail.tail_end : s.chunkStart + (syms.flatMap s.codeOf).length + tail.length = s.decBits := by
  have hbits : u.decBits = s.decBits := by rw [h.only]
  obtain ⟨hchunk, -, hstart, hpos, -⟩ := h.sound.decoder
  have hahead := h.ahead.1
  rw [← h.chunkStart, ← h.splits, List.length_append, State.chunkStart]
  omega

/-- Past the symbols `SYMOUT` is as full as they make it. -/
theorem AtTail.symout_full (hfull : s.symoutLen + syms.length = s.cfg.symoutCap) : u.symoutLen = u.cfg.symoutCap := by
  have hcfg : u.cfg = s.cfg := by rw [h.only]
  rw [hcfg, h.emits.1, hfull]

end AtTail

/-! Bits taken without a symbol. -/

/-- The chunk grows at its end only. -/
theorem chunkStart_takeBits (y : Bits) (s : State) : (takeBits y s).chunkStart = s.chunkStart :=
  Nat.add_sub_add_right _ _ _

theorem decClen_takeBits {s : State} (h : s.DecoderSound) (y : Bits) :
    (takeBits y s).decClen = (takeBits y s).chunk.length := by
  show s.decClen + y.length = (s.chunk ++ y).length
  rw [List.length_append, h.1]

theorem decPos_takeBits {s : State} (h : s.DecoderSound) (y : Bits) :
    (takeBits y s).decPos = s.chunkStart + (takeBits y s).chunk.length := by
  obtain ⟨hlen, -, hstart, -⟩ := h
  show s.decPos + y.length = s.decPos - s.decClen + (s.chunk ++ y).length
  rw [List.length_append]
  omega

/-- `DECODE` that stops with an error in bits past the symbols records it, the chunk's start as its first detail, and keeps
the symbols and the chunk (43_unpack_decode R173). -/
theorem exec_decode_raisesAtTail {s u : State} {bits tail rest y z : Bits} {syms : List Nat} {code : ErrCode}
    {sub info : Nat} (hready : s.upState = .ready) (hct : s.ctState ≠ .empty) (ha : Ahead s bits)
    (h : AtTail s bits syms tail u rest) (hcode : code ≠ .illegalCommand)
    (hstop : decodeBits rest.length u = .ok (takeBits y u, some ⟨code, sub, (takeBits y u).chunkStart, info⟩))
    (hz : (takeBits y u).chunk = z) :
    ∃ t w, exec .decode s = .next t ∧ OnlyDecoder s w ∧ Emits s w syms ∧
      Records .decode .decoding code sub (s.decPos - s.decClen + (syms.flatMap s.codeOf).length) info w t ∧
      w.decPos = s.decPos - s.decClen + (syms.flatMap s.codeOf).length + z.length ∧
      w.decClen = z.length ∧ w.chunk = z ∧ w.upState = .ready := by
  have hbody : decodeBody s =
      .ok (takeBits y u, some ⟨code, sub, s.chunkStart + (syms.flatMap s.codeOf).length, info⟩) := by
    rw [decodeBody, if_neg (by simp [hready, hct]), ← ha.1, h.run, hstop, chunkStart_takeBits, h.chunkStart]
  have htaken : OnlyDecoder u (takeBits y u) := rfl
  refine ⟨_, takeBits y u, execDecode_raised hbody, SameButDecoder.trans h.only htaken, h.emits,
    records_raiseError .decode hcode _ _ _ _, ?_, hz ▸ decClen_takeBits h.sound.decoder y, hz, h.upState.trans hready⟩
  rw [decPos_takeBits h.sound.decoder, h.chunkStart, hz]
  rfl

/-! How it stops. -/

/-- No bit ahead completes a code when none of the tail's does. -/
theorem matchCode_none_of_noMatchIn {s : State} {rest tail y : Bits} (h : s.Sound) (he : s.chunk ++ rest = tail)
    (hno : NoMatchIn s [] tail) (hy : y ≠ []) (hyr : y <+: rest) : matchCode s.ct (s.chunk ++ y) = none := by
  refine matchCode_none (rising_ct h) fun x hx hxy => ?_
  obtain ⟨-, hle⟩ := hno x hx (hxy ▸ he ▸ (List.prefix_append_right_inj _).2 hyr)
  have hpos := List.length_pos_iff.2 hy
  have hchunk := h.decoder.1
  rw [hxy, List.length_append] at hle
  omega

/-- A payload that ends with bits in the chunk (60_exceptions R202, subcode 4). -/
theorem decodeBits_stray {s : State} {rest tail : Bits} (h : s.Sound) (ha : Ahead s rest) (he : s.chunk ++ rest = tail)
    (hne : tail ≠ []) (hshort : tail.length < 255 ∨ rest = []) (hno : NoMatchIn s [] tail) :
    decodeBits rest.length s = .ok (takeBits rest s,
      some ⟨.truncatedOrCorruptStream, 4, (takeBits rest s).chunkStart, tail.length⟩) := by
  have hclen : (takeBits rest s).decClen = tail.length := by
    rw [decClen_takeBits h.decoder]
    exact congrArg List.length he
  have htaken : decodeBits rest.length s = decodeBits 0 (takeBits rest s) := by
    rcases hshort with hlt | rfl
    · rw [← hclen] at hlt
      rw [← List.append_nil rest] at ha
      obtain ⟨hskip, -⟩ := decodeBits_skip h ha hlt fun y => matchCode_none_of_noMatchIn h he hno
      simpa using hskip
    · rw [takeBits_nil, List.length_nil]
  rw [htaken, decodeBits, if_pos (by rw [hclen]; exact List.length_pos_iff.2 hne), hclen]

/-- A code completed with `SYMOUT` full (60_exceptions R202). -/
theorem decodeBits_symoutFull {s : State} {x : Nat} {bits rest : Bits} (h : s.Sound) (ha : Ahead s bits)
    (hx : s.codeOf x ≠ []) (he : s.chunk ++ bits = s.codeOf x ++ rest) (hc : s.decClen < (s.codeOf x).length)
    (hfull : s.symoutLen = s.cfg.symoutCap) :
    ∃ y, decodeBits bits.length s = .ok (takeBits y s,
      some ⟨.bufferOverflow, 3, (takeBits y s).chunkStart, x⟩) ∧ (takeBits y s).chunk = s.codeOf x := by
  have hchunk := h.decoder.1
  have hmax := h.codeOf_length x
  obtain ⟨y, hcode⟩ : s.chunk <+: s.codeOf x :=
    List.prefix_of_prefix_length_le (he ▸ List.prefix_append _ _) (List.prefix_append _ _) (by omega)
  obtain rfl : bits = y ++ rest := by rwa [← hcode, List.append_assoc, List.append_cancel_left_eq] at he
  have hlen : s.decClen + y.length = (s.codeOf x).length := by rw [← hcode, List.length_append, hchunk]
  obtain ⟨z, b, rfl⟩ : ∃ z b, y = z ++ [b] :=
    (List.eq_nil_or_concat' y).resolve_left fun hy => by simp [hy] at hlen; omega
  refine ⟨z ++ [b], ?_, hcode⟩
  rw [List.length_append, List.length_singleton] at hlen
  rw [List.append_assoc, List.singleton_append] at ha ⊢
  obtain ⟨hskip, hsound, hahead⟩ := decodeBits_skip h ha (by omega) fun w _ hw => by
    have hwx : s.chunk ++ w <+: s.codeOf x :=
      hcode ▸ (List.prefix_append_right_inj _).2 (hw.trans (List.prefix_append _ _))
    have hwlen := hw.length_le
    exact matchCode_properPrefix h hx hwx (by rw [List.length_append]; omega)
  obtain ⟨-, hb⟩ := payloadBit_of_ahead hahead hsound.decoder
  have hroom : (takeBits z s).decClen < Config.codeLenMax := by
    show s.decClen + z.length < 255
    omega
  have hmatch : matchCode (takeBits z s).ct ((takeBits z s).chunk ++ [b]) = some x := by
    show matchCode s.ct (s.chunk ++ z ++ [b]) = some x
    rw [List.append_assoc, hcode]
    exact matchCode_codeOf h hx
  have hlast : takeBits (z ++ [b]) s = takeBit b (takeBits z s) := by
    simp [takeBits, takeBit, Nat.add_assoc]
  rw [hskip, List.length_cons, decodeBits_succ _ _ hroom hb, hmatch, hlast]
  exact if_pos hfull

/-- Settles O53: past the symbols, the bits ahead complete no code, or complete one with `SYMOUT` full. -/
theorem decodeKeepsItsProgressWhenItRaises : Obligations.DecodeKeepsItsProgressWhenItRaises := by
  intro s bits syms tail h hready hct hp hroom
  obtain ⟨u, rest, hu⟩ := atTail_of_parses h hp hroom
  refine ⟨fun hne hshort hno => ?_, fun x after hx htail hc hfull => ?_⟩
  · have hshort' : tail.length < 255 ∨ rest = [] := hshort.imp_right fun hbits => by
      subst hbits
      exact (hu.unmoved (syms_eq_nil_of_parses h hp)).2
    obtain ⟨t, w, hexec, honly, hemits, hrec, hpos, hclen, hchunk, hup⟩ :=
      exec_decode_raisesAtTail hready hct hp.1 hu (by decide)
        (decodeBits_stray hu.sound hu.ahead hu.splits hne hshort' (hu.noMatchIn hno)) hu.splits
    exact ⟨t, w, hexec, honly, hemits, hrec, hpos.trans hu.tail_end, hclen, hchunk, hup⟩
  · rw [← hu.codeOf] at hx
    obtain ⟨y, hstop, hchunk⟩ := decodeBits_symoutFull hu.sound hu.ahead hx
      (by rw [hu.splits, htail, hu.codeOf]) (hu.decClen_lt (List.length_pos_iff.2 hx) (by rwa [hu.codeOf]))
      (hu.symout_full hfull)
    rw [hu.codeOf] at hchunk
    rw [List.length_append, ← Nat.add_assoc]
    exact exec_decode_raisesAtTail hready hct hp.1 hu (by decide) hstop hchunk

end Sys2Proof.Machine
end

section
/-! The control commands (44_control): the words of `NOP` and `CLEAR`, and what `CLEAR` leaves of each unit. -/

namespace Sys2Proof.Machine

/-- The only word of a command is its encoding (30_encoding R100). -/
theorem decode_eq_ok_iff {c : Config} {w : Word} {i : Instr} : decode c w = .ok i ↔ encode i = w ∧ WellFormed c i :=
  ⟨decodeThenEncodeIsIdentity c w i, fun ⟨hw, hi⟩ => hw ▸ encodeThenDecodeIsIdentity c i hi⟩

/-! `NOP`. -/

theorem decode_eq_nop_iff (c : Config) (w : Word) : decode c w = .ok .nop ↔ w = 0x00000000#32 := by
  have hword : encode .nop = 0x00000000#32 := by decide
  rw [decode_eq_ok_iff, hword, eq_comm]
  exact and_iff_left rfl

/-- The word of `NOP` changes nothing, whether the error gate ignores it or not (60_exceptions R206). -/
theorem execute_nop (s : State) : execute 0x00000000#32 s = .next s := by
  rw [execute, (decode_eq_nop_iff s.cfg _).2 rfl]
  exact ite_self _

/-- Settles O33: the arm of `NOP` and the error gate both give back the state. -/
theorem nopLeavesTheStateUnchanged : Obligations.NopLeavesTheStateUnchanged := fun s =>
  ⟨rfl, decode_eq_nop_iff s.cfg, fun _ h => (step_of_command h).trans (execute_nop _)⟩

/-! The word of `CLEAR`. -/

theorem encode_clear (m : BitVec 5) : encode (.clear m) = 0x01000000#32 ||| m.setWidth 32 := by
  decide +revert

/-- Every mask is legal (30_encoding R98). -/
theorem decode_clear (c : Config) (m : BitVec 5) : decode c (0x01000000#32 ||| m.setWidth 32) = .ok (.clear m) :=
  decode_eq_ok_iff.2 ⟨encode_clear m, rfl⟩

/-! What `CLEAR` leaves of each unit (44_control R192). -/

/-- `t` has the frequency table and the tree builder of `s`. -/
def SameTreeUnit (s t : State) : Prop :=
  t.freq = s.freq ∧ t.total = s.total ∧ t.leaves = s.leaves ∧ t.nodes = s.nodes ∧ t.nodeCount = s.nodeCount ∧
  t.wl = s.wl ∧ t.wlLen = s.wlLen ∧ t.tbState = s.tbState

/-- `t` has the code table of `s`. -/
def SameTableUnit (s t : State) : Prop := t.ct = s.ct ∧ t.ctCount = s.ctCount ∧ t.ctState = s.ctState

/-- `t` has the packer of `s`. -/
def SamePackerUnit (s t : State) : Prop :=
  t.outbuf = s.outbuf ∧ t.outLen = s.outLen ∧ t.bitcnt = s.bitcnt ∧ t.acc = s.acc ∧ t.accN = s.accN ∧
  t.pkState = s.pkState

/-- `t` has the unpacker and the decoder of `s`. -/
def SameDecoderUnit (s t : State) : Prop :=
  t.decBits = s.decBits ∧ t.decPos = s.decPos ∧ t.decClen = s.decClen ∧ t.chunk = s.chunk ∧
  t.symoutLen = s.symoutLen ∧ t.upState = s.upState

/-- `t` has what belongs to no unit as it is in `s`. -/
def SameOutsideUnits (s t : State) : Prop :=
  t.cfg = s.cfg ∧ t.errIe = s.errIe ∧ t.inLen = s.inLen ∧ t.inbuf = s.inbuf ∧ t.symSel = s.symSel ∧
  t.nodeSel = s.nodeSel ∧ t.wlSel = s.wlSel ∧ t.lcBits = s.lcBits ∧ t.symout = s.symout ∧ t.draws = s.draws ∧
  t.host = s.host ∧ t.reply = s.reply

section Masked

variable (R : State → State → Prop) {part : State → State} {s u : State} (c : Bool)

/-- What a part of `CLEAR` keeps stays, selected or not. -/
theorem masked_keeps (hpart : ∀ u, R s u → R s (part u)) (h : R s u) : R s (if c then part u else u) := by
  split
  · exact hpart u h
  · exact h

/-- What a part of `CLEAR` does to its own unit, it does to any state with the same unit, selected or not. -/
theorem masked_congr (hpart : R s u → R (part s) (part u)) (h : R s u) :
    R (if c then part s else s) (if c then part u else u) := by
  split
  · exact hpart h
  · exact h

end Masked

theorem clearedState_outsideUnits (m : BitVec 5) (s : State) : SameOutsideUnits s (clearedState m s) :=
  clearedState_induction (P := SameOutsideUnits s) (fun _ h => h) (fun _ h => h) (fun _ h => h) (fun _ h => h)
    (fun _ h => h) m ⟨rfl, rfl, rfl, rfl, rfl, rfl, rfl, rfl, rfl, rfl, rfl, rfl⟩

theorem clearedState_treeUnit (m : BitVec 5) (s : State) :
    SameTreeUnit (if m.getLsbD 0 then clearTree s else s) (clearedState m s) := by
  refine masked_keeps SameTreeUnit _ (fun _ h => h) ?_
  refine masked_keeps SameTreeUnit _ (fun _ h => h) ?_
  refine masked_keeps SameTreeUnit _ (fun _ h => h) ?_
  refine masked_keeps SameTreeUnit _ (fun _ h => h) ?_
  exact ⟨rfl, rfl, rfl, rfl, rfl, rfl, rfl, rfl⟩

theorem clearedState_tableUnit (m : BitVec 5) (s : State) :
    SameTableUnit (if m.getLsbD 1 then clearTable s else s) (clearedState m s) := by
  refine masked_keeps SameTableUnit _ (fun _ h => h) ?_
  refine masked_keeps SameTableUnit _ (fun _ h => h) ?_
  refine masked_keeps SameTableUnit _ (fun _ h => h) ?_
  refine masked_congr SameTableUnit _ (fun _ => ⟨rfl, rfl, rfl⟩) ?_
  exact masked_keeps SameTableUnit _ (fun _ h => h) ⟨rfl, rfl, rfl⟩

theorem samePackerUnit_clearPacker {s u : State} (h : SamePackerUnit s u) :
    SamePackerUnit (clearPacker s) (clearPacker u) :=
  ⟨congrArg (Cells.set · 0 0#8) h.1, rfl, rfl, rfl, rfl, rfl⟩

theorem clearedState_packerUnit (m : BitVec 5) (s : State) :
    SamePackerUnit (if m.getLsbD 2 then clearPacker s else s) (clearedState m s) := by
  refine masked_keeps SamePackerUnit _ (fun _ h => h) ?_
  refine masked_keeps SamePackerUnit _ (fun _ h => h) ?_
  refine masked_congr SamePackerUnit _ samePackerUnit_clearPacker ?_
  refine masked_keeps SamePackerUnit _ (fun _ h => h) ?_
  exact masked_keeps SamePackerUnit _ (fun _ h => h) ⟨rfl, rfl, rfl, rfl, rfl, rfl⟩

theorem clearedState_decoderUnit (m : BitVec 5) (s : State) :
    SameDecoderUnit (if m.getLsbD 3 then clearUnpacker s else s) (clearedState m s) := by
  refine masked_keeps SameDecoderUnit _ (fun _ h => h) ?_
  refine masked_congr SameDecoderUnit _ (fun _ => ⟨rfl, rfl, rfl, rfl, rfl, rfl⟩) ?_
  refine masked_keeps SameDecoderUnit _ (fun _ h => h) ?_
  refine masked_keeps SameDecoderUnit _ (fun _ h => h) ?_
  exact masked_keeps SameDecoderUnit _ (fun _ h => h) ⟨rfl, rfl, rfl, rfl, rfl, rfl⟩

theorem clearedState_err (m : BitVec 5) (s : State) :
    (clearedState m s).err = if m.getLsbD 4 then ErrRecord.clear else s.err := by
  simp [clearedState, apply_ite State.err]

/-- `OUTBUF` under `CLEAR` with mask bit 2: byte 0 becomes 0 (44_control R192). -/
theorem stored_clearedState {m : BitVec 5} (hm : m.getLsbD 2 = true) (s : State) (i : Nat) :
    (clearedState m s).stored .outbuf i = if i = 0 then 0#8 else s.stored .outbuf i := by
  have hunit := clearedState_packerUnit m s
  rw [if_pos hm] at hunit
  obtain ⟨-, -, -, -, -, -, -, -, -, hdraws, -⟩ := clearedState_outsideUnits m s
  calc (clearedState m s).stored .outbuf i = (clearPacker s).stored .outbuf i :=
        stored_congr hdraws (congrArg (Cells.get · i) hunit.1)
    _ = _ := stored_withBuffer_set s .outbuf 0 i 0#8

/-- Settles O34: past the gate `CLEAR` runs its parts, and each unit is what its own part, selected or not, leaves. -/
theorem clearResetsTheSelectedUnits : Obligations.ClearResetsTheSelectedUnits := by
  intro m s
  refine ⟨fun rest h => stepExecutesDecodedCommand s rest _ _ h (decode_clear s.cfg m) (.inr ⟨m, rfl⟩),
    clearedState m s, rfl, clearedState_outsideUnits m s, ?tree, ?table, ?packer, ?decoder, ?error⟩
  case tree =>
    have h := clearedState_treeUnit m s
    split at h
    · rename_i hm
      obtain ⟨hfreq, htotal, hleaves, -, hcount, hwl⟩ := h
      rw [if_pos hm]
      exact ⟨fun x => by rw [State.freqOf, hfreq]; rfl, htotal, hleaves, hcount, hwl⟩
    · rwa [if_neg ‹_›]
  case table =>
    have h := clearedState_tableUnit m s
    split at h
    · rename_i hm
      obtain ⟨hct, hrest⟩ := h
      rw [if_pos hm]
      exact ⟨fun x => by rw [State.codeOf, hct]; rfl, hrest⟩
    · rwa [if_neg ‹_›]
  case packer =>
    have h := clearedState_packerUnit m s
    split at h
    · rename_i hm
      rw [if_pos hm]
      exact ⟨stored_clearedState hm s 0, fun i hi => (stored_clearedState hm s i).trans (if_neg hi), h.2⟩
    · rwa [if_neg ‹_›]
  case decoder =>
    have h := clearedState_decoderUnit m s
    split at h
    · rwa [if_pos ‹_›]
    · rwa [if_neg ‹_›]
  case error =>
    rw [clearedState_err]
    split <;> rfl

end Sys2Proof.Machine
end

section
/-! The error record over a command and a step (60_exceptions R203 to R207, R213): who writes it, and what is written. -/

namespace Sys2Proof.Machine

/-! `IllegalCommand` belongs to the legality check (30_encoding R99): no command's rule raises it. -/

/-- Whatever a body raises is not `IllegalCommand`. -/
def NeverIllegal {α : Type} (r : Cmd α) : Prop := ∀ e, r = .error (.error e) → e.code ≠ .illegalCommand

namespace NeverIllegal

theorem ok {α : Type} (a : α) : NeverIllegal (.ok a : Cmd α) := fun _ h => by cases h

theorem raising {α : Type} {code : ErrCode} {sub info0 info1 : Nat} (hc : code ≠ .illegalCommand) :
    NeverIllegal (Machine.raising code sub info0 info1 : Cmd α) := fun _ h => by cases h; exact hc

theorem sequenceError {α : Type} (s : State) : NeverIllegal (Machine.sequenceError s : Cmd α) :=
  raising (by decide)

/-- A body that stops only with a fault raises nothing. -/
theorem of_fault {α : Type} {r : Cmd α} (h : ∀ {e}, r = .error e → ∃ f, e = .fault f) : NeverIllegal r :=
  fun e he => by obtain ⟨f, hf⟩ := h he; cases hf

theorem stopping {α : Type} (f : Fault) : NeverIllegal (Machine.stopping f : Cmd α) :=
  of_fault fun h => by cases h; exact ⟨f, rfl⟩

theorem ite {α : Type} {c : Prop} {_ : Decidable c} {x y : Cmd α} (hx : NeverIllegal x) (hy : NeverIllegal y) :
    NeverIllegal (if c then x else y) := by
  split
  · exact hx
  · exact hy

theorem bind {α β : Type} {x : Cmd α} {f : α → Cmd β} (hx : NeverIllegal x) (hf : ∀ a, NeverIllegal (f a)) :
    NeverIllegal (x.bind f) := by
  cases x with
  | ok a => exact hf a
  | error e => intro e' h; cases h; exact hx _ rfl

end NeverIllegal

theorem initTree_neverIllegal (s : State) : NeverIllegal (initTree s) :=
  .ite (.raising (by decide)) (.ok _)

theorem appendChecked_neverIllegal (x : Bits) (s : State) : NeverIllegal (appendChecked x s) :=
  .ite (.of_fault appendBits_error) (.raising (by decide))

theorem memRead_neverIllegal (b : Buffer) (i : Nat) (s : State) : NeverIllegal (memRead b i s) :=
  .ite (.ok _) (.stopping _)

theorem memWrite_neverIllegal (b : Buffer) (i : Nat) (v : Byte) (s : State) : NeverIllegal (memWrite b i v s) :=
  .ite (.ok _) (.stopping _)

/-- The rule of a command but `DECODE` raises other errors (60_exceptions R202). -/
theorem bodyOf_neverIllegal (i : Instr) (s : State) : NeverIllegal (bodyOf i s) := by
  cases i with
  | nop => exact .ok s
  | clear mask => exact .ok _
  | count sym => exact .ite (.sequenceError s) (.ite (.raising (by decide)) (.ok _))
  | tbinit => exact .ite (.sequenceError s) (initTree_neverIllegal s)
  | merge => exact .ite (.sequenceError s) (.of_fault mergeOnce_error)
  | build =>
    exact .ite (.sequenceError s)
      (.bind (.ite (initTree_neverIllegal s) (.ok s)) fun _ => .of_fault mergeAll_error)
  | assign =>
    refine .ite (.sequenceError s) ?_
    split
    · exact .stopping _
    split
    · exact .stopping _
    · exact .ok _
  | loadcode len sym =>
    refine .ite (.sequenceError s) (.ite (.raising (by decide)) (.ite (.raising (by decide))
      (.ite (.raising (by decide)) ?_)))
    dsimp only
    split
    · exact .raising (by decide)
    · exact .ok _
  | enc sym =>
    refine .ite (.sequenceError s) ?_
    split
    · exact .raising (by decide)
    · exact appendChecked_neverIllegal _ s
  | putbits n v => exact .ite (.sequenceError s) (appendChecked_neverIllegal _ s)
  | flush =>
    have hpending : NeverIllegal (flushPending s) :=
      .ite (.bind (memWrite_neverIllegal _ _ _ s) fun _ => .ok _) (.ok s)
    exact .ite (.sequenceError s) (.bind hpending fun t => .bind (memWrite_neverIllegal _ _ _ t) fun _ => .ok _)
  | xfer =>
    exact .ite (.sequenceError s) (.ite (.raising (by decide)) (.bind (.of_fault copyOut_error) fun _ => .ok _))
  | unpack =>
    exact .ite (.raising (by decide)) (.bind (memRead_neverIllegal _ _ s) fun _ =>
      .ite (.raising (by decide)) (.ite (.raising (by decide)) (.ok _)))
  | decode => exact .ok s

/-- The loop of `DECODE` ends in other errors (43_unpack_decode R173). -/
theorem decodeBits_neverIllegal {n : Nat} {s t : State} {r : Raised} (h : decodeBits n s = .ok (t, some r)) :
    r.code ≠ .illegalCommand := by
  induction n generalizing s with
  | zero =>
    simp only [decodeBits] at h
    split at h <;> cases h
    nofun
  | succ n ih =>
    simp only [decodeBits] at h
    split at h
    · cases h; nofun
    obtain ⟨b, -, h⟩ := bind_ok h
    split at h
    · split at h
      · cases h; nofun
      · obtain ⟨u, -, h⟩ := bind_ok h
        exact ih h
    · split at h
      · cases h; nofun
      · exact ih h

/-! What a command records. -/

/-- A command that raises nothing records nothing. -/
theorem FrameOf.err_code {i : Instr} {s t : State} (h : FrameOf i s t) (hs : s.err.code = .none) :
    t.err.code = .none := by
  cases i with
  | clear m =>
    rw [show t = _ from h, clearedState_err]
    split
    · rfl
    · exact hs
  | _ => rw [h]; exact hs

/-- A command that ends with an error recorded raised it: in the state before it, or, for `DECODE`, in the progress it
made (60_exceptions R205, R207). -/
theorem exec_raised {i : Instr} {s t : State} (hs : s.err.code = .none) (h : exec i s = .next t)
    (ht : t.err.code ≠ .none) :
    ∃ e u, t = raiseError (encode i) e u ∧ e.code ≠ .illegalCommand ∧ (i ≠ .decode → u = s) := by
  by_cases hi : i = .decode
  · subst hi
    rcases execDecode_next h with ⟨-, rfl⟩ | ⟨-, -, u, r, hu, rfl⟩
    · exact ⟨_, s, rfl, nofun, fun _ => rfl⟩
    · cases r with
      | none =>
        have hframe : FrameOf .decode s u := (decodeBits_same hu).1
        exact absurd (hframe.err_code hs) ht
      | some r => exact ⟨r, u, rfl, decodeBits_neverIllegal hu, fun hi => absurd rfl hi⟩
  · rcases exec_next hi h with hb | ⟨e, hb, rfl⟩
    · exact absurd ((bodyOf_frame hi hb).err_code hs) ht
    · exact ⟨e, s, rfl, bodyOf_neverIllegal i s e hb, fun _ => rfl⟩

/-- The stage recorded is the one of the command's opcode (60_exceptions R203). -/
theorem stage_raiseError (i : Instr) {e : Raised} (he : e.code ≠ .illegalCommand) (u : State) :
    (raiseError (encode i) e u).err.stage = stageOf i.opcode := by
  simp [raiseError, stageRecorded, he]

/-- Settles O10: a command but `DECODE` raises in the state before it, with its own word. -/
theorem commandsButDecodeArePrecise : Obligations.CommandsButDecodeArePrecise := by
  intro i s t hi hs h ht
  obtain ⟨e, u, rfl, -, hu⟩ := exec_raised hs h ht
  obtain rfl := hu hi
  exact ⟨rfl, rfl, opcField_encode i⟩

/-- Settles O11: no rule raises `IllegalCommand`, so the stage is the opcode's; `NOP` and `CLEAR` only ever end as their
frame says. -/
theorem raisedStageIsTheOpcodesStage : Obligations.RaisedStageIsTheOpcodesStage := by
  intro i s t hs h ht
  obtain ⟨e, u, hraised, he, -⟩ := exec_raised hs h ht
  have hstage : t.err.stage = stageOf i.opcode := hraised ▸ stage_raiseError i he u
  cases i with
  | nop => cases h; exact ht hs
  | clear m =>
    have hframe : FrameOf (.clear m) s t := by cases h; rfl
    exact ht (hframe.err_code hs)
  | _ => rw [hstage]; rfl

/-! What a step leaves of a recorded error. -/

/-- Settles O7: the error gate ignores every word that is not a well-formed `CLEAR`. -/
theorem ignoredCommandChangesNothing : Obligations.IgnoredCommandChangesNothing := by
  intro s rest w h herr hw
  have hclear : isClear w = false := by
    rw [← Bool.not_eq_true, isClear_iff s.cfg]
    exact fun ⟨m, hm⟩ => hw m hm
  rw [step_of_command h, execute, if_pos (by simp [gated, State.errored, herr, hclear])]

/-- Settles O9: of what a step can do, past the gate of a recorded error only reset and `CLEAR` write the record. -/
theorem errorsNeverNest : Obligations.ErrorsNeverNest := by
  intro s t herr h
  rcases step_next h with ⟨-, rfl⟩ | ⟨a, rest, hhost, ⟨r, rfl⟩ | ⟨rfl, rfl⟩ | ⟨off, v, -, rfl⟩ |
    ⟨w, e, -, hnone, -⟩ | ⟨w, i, rfl, hok, hd, hx⟩⟩
  · exact .inl rfl
  · exact .inl rfl
  · exact .inr ⟨rfl, .inl ⟨rest, hhost⟩⟩
  · exact .inl (by rw [writePort_same])
  · exact absurd hnone herr
  · obtain ⟨m, rfl⟩ := hok.resolve_left herr
    cases hx
    by_cases hm : m.getLsbD 4 = true
    · exact .inr ⟨(clearedState_err m _).trans (if_pos hm), .inr ⟨rest, w, m, hhost, hd, hm⟩⟩
    · exact .inl ((clearedState_err m _).trans (if_neg hm))

end Sys2Proof.Machine
end
